-- ==== Sys2Proof/Word.lean ====
section
/-! DEFINITION. The machine's words (00_scope.md section 8, 10_state.md R10, 30_encoding.md R60) and the number types:
`Alg`, the exact reals the reference semantics needs, and `NumValue`, a value of the format `NUM`. Types only; the arithmetic
is in Machine/Alg.lean. -/

namespace Sys2Proof

/-- `u8`: a byte of the image, of the output stream, a divisor, a symbol. -/
abbrev Byte := BitVec 8

/-- `u16` or `i16`. -/
abbrev Half := BitVec 16

/-- `u32`: the accumulator, the information word, the `RD` datum. -/
abbrev Word := BitVec 32

/-- The 64-bit command word `CW64` (30_encoding.md R60). -/
abbrev CommandWord := BitVec 64

/-- An exact real number of the field that holds every reference value of the spec (00_scope.md R7): with
`C_k = cos(k*pi/16)`, the number is `(n0*C_0 + n1*C_1 + ... + n7*C_7) / (dm1 + 1)`. The field is closed under the sums,
products and quotients of 40_dct.md R91, R93, R94, 41_quant_tables.md R104, 42_quantizer_zigzag.md R112, R113 and
47_frontend.md R193, and holds every rational. DESIGN CHOICE (log entry 4): a draw or a loaded value outside this field
is not represented. -/
structure Alg where
  n0 : Int
  n1 : Int
  n2 : Int
  n3 : Int
  n4 : Int
  n5 : Int
  n6 : Int
  n7 : Int
  /-- the common denominator less one -/
  dm1 : Nat
  deriving DecidableEq, Repr, Inhabited

/-- A value of the format `NUM` (00_scope.md R7): a real number or "not a finite number". A value that `LD` brought
keeps its 32-bit encoding, so that `RD` gives back the same pattern whatever the format is. -/
inductive NumValue where
  /-- the value whose `NUM` encoding is this pattern (written by `LD`) -/
  | code (pattern : Word)
  /-- a computed real number -/
  | real (value : Alg)
  /-- a computed value that is not a finite number; `tag` names its (free) pattern -/
  | notFinite (tag : Nat)
  deriving DecidableEq, Repr, Inhabited

end Sys2Proof
end

