-- ==== Sys2Proof/Syntax.lean ====
section
/-! DEFINITION. The fifteen commands (30_encoding.md R61) as one inductive type, with their operands as R62 names them.
Names with a fixed set of values (strategy, buffer, selector) are types of their own; numeric operands stay the bit
fields of the command word, and WellFormed.lean says which values are legal. -/

namespace Sys2Proof

/-- The DCT strategy, `strat` and `STRAT` (10_state.md R15): 0 is direct, 1 is fast. -/
inductive Strategy where
  | direct
  | fast
  deriving DecidableEq, Repr, Inhabited

/-- The buffer code of `LD` (30_encoding.md R62): 0 = `S`, 1 = `C`, 2 = `Z`. -/
inductive Buffer where
  | samp
  | coef
  | zz
  deriving DecidableEq, Repr, Inhabited

/-- The read selectors of `RD` (10_state.md R27). -/
inductive Selector where
  | status | finfo | dim | mcucnt | acc | cur | outlen | pred | outb
  | samp | coef | zz | qtab | fscale | ehuf | hbits | hval
  deriving DecidableEq, Repr, Inhabited

/-- The commands, one constructor per row of the opcode table. -/
inductive Instr where
  /-- `RESET` (46_session_commands.md R170) -/
  | reset
  /-- `CFG level, strat` (41_quant_tables.md R100) -/
  | cfg (level : Half) (strat : Strategy)
  /-- `HBUILD` (43_huffman_builder.md R120) -/
  | hbuild
  /-- `IMG w, h` (47_frontend.md R190) -/
  | img (w h : Half)
  /-- `START` (46_session_commands.md R171) -/
  | start
  /-- `END pad` (46_session_commands.md R172) -/
  | endImage (pad : Bool)
  /-- `RD sel, c, i, d` (46_session_commands.md R176) -/
  | rd (sel : Selector) (c i : Byte) (d : Word)
  /-- `LD buf, c, i, value` (46_session_commands.md R175); `value` is the field `D` -/
  | ld (buf : Buffer) (c i : Byte) (value : Word)
  /-- `TILE mx, my` (47_frontend.md R193) -/
  | tile (mx my : Half)
  /-- `FDCT c` (40_dct.md R90) -/
  | fdct (c : Byte)
  /-- `QZZ c` (42_quantizer_zigzag.md R111) -/
  | qzz (c : Byte)
  /-- `ENC c` (44_entropy_coder.md R130) -/
  | enc (c : Byte)
  /-- `PUTBITS n, v` (45_bit_packer.md R150) -/
  | putbits (n : Byte) (v : Half)
  /-- `BLK c` (46_session_commands.md R173) -/
  | blk (c : Byte)
  /-- `MCU` (46_session_commands.md R174) -/
  | mcu
  deriving DecidableEq, Repr, Inhabited

end Sys2Proof
end

