-- ==== Sys2Proof/WellFormed.lean ====
section
/-! DEFINITION. Which operand values are legal whatever the state (30_encoding.md R62, R64 item 3, 10_state.md R27): the
static causes of `F_ILLCMD` that lie in the values of operands (60_exceptions.md R208). -/

namespace Sys2Proof

/-- `c` names a component, 0..2. -/
def componentOk (c : Byte) : Bool := decide (c.toNat < 3)

/-- `i` is an index into a block of 64. -/
def indexOk (i : Byte) : Bool := decide (i.toNat < 64)

/-- The operands a selector's row uses are in its range and the operands it does not use are zero (10_state.md R27). The
range of `d` for `OUTB` depends on the state and is checked by `RD` itself (60_exceptions.md R208). -/
def Selector.operandsOk (sel : Selector) (c i : Byte) (d : Word) : Bool :=
  match sel with
  | .status | .finfo | .dim | .mcucnt | .acc | .cur | .outlen => c == 0 && i == 0 && d == 0
  | .pred => componentOk c && i == 0 && d == 0
  | .outb => c == 0 && i == 0
  | .samp | .coef | .zz => componentOk c && indexOk i && d == 0
  | .qtab | .fscale => decide (c.toNat < 2) && indexOk i && d == 0
  | .ehuf | .hval => decide (c.toNat < 4) && d == 0
  | .hbits => decide (c.toNat < 4) && decide (i.toNat < 16) && d == 0

/-- The legal operand values of each command (30_encoding.md R62). -/
def Instr.wf : Instr → Bool
  | .reset | .cfg _ _ | .hbuild | .img _ _ | .start | .endImage _ | .tile _ _ | .mcu => true
  | .rd sel c i d => sel.operandsOk c i d
  | .ld buf c i value =>
    componentOk c && indexOk i && (decide (buf ≠ Buffer.zz) || value.extractLsb' 16 16 == (0 : BitVec 16))
  | .fdct c | .qzz c | .enc c | .blk c => componentOk c
  | .putbits n _ => decide (n.toNat ≤ 16)

/-- A command whose operands are legal. -/
abbrev Instr.WellFormed (i : Instr) : Prop := i.wf = true

end Sys2Proof
end

