-- ==== Sys2Proof/Decode.lean ====
section
/-! DEFINITION. Decoding the 64-bit command word (30_encoding.md R60, R61, R62, R64), total and refusing by name, and then
the encoder. -/

namespace Sys2Proof

/-- Why a word is illegal (30_encoding.md R64). Every reason leads to `F_ILLCMD`. -/
inductive DecodeError where
  /-- R64 item 1: an opcode that is not in the map -/
  | unassignedOpcode
  /-- R64 item 2: a non-zero bit that the command does not use -/
  | unusedBits
  /-- R64 item 3: a buffer code above 2 -/
  | bufferCode
  /-- R64 item 3: a reserved read selector -/
  | reservedSelector
  /-- R64 item 3 (and item 2 for the operands of `RD` and `LD`): an operand out of its range -/
  | operandRange
  deriving DecidableEq, Repr

/-- The fields of R60. -/
def fieldOPC (w : CommandWord) : Byte := w.extractLsb' 56 8
def fieldA (w : CommandWord) : Byte := w.extractLsb' 48 8
def fieldC (w : CommandWord) : Byte := w.extractLsb' 40 8
def fieldI (w : CommandWord) : Byte := w.extractLsb' 32 8
def fieldD (w : CommandWord) : Word := w.extractLsb' 0 32
/-- `D[15:0]`. -/
def fieldDlo (w : CommandWord) : Half := w.extractLsb' 0 16
/-- `D[31:16]`. -/
def fieldDhi (w : CommandWord) : Half := w.extractLsb' 16 16

/-- The upper 32 bits of a command word, `{OPC, A, C, I}`: the information word of `F_SEQ` and `F_ILLCMD`
(60_exceptions.md R201). -/
def upperWord (w : CommandWord) : Word := w.extractLsb' 32 32

/-- The buffer codes of `LD` (R62). -/
def Buffer.ofCode (a : Byte) : Option Buffer :=
  if a = 0 then some .samp else if a = 1 then some .coef else if a = 2 then some .zz else none

def Buffer.code : Buffer → Byte
  | .samp => 0
  | .coef => 1
  | .zz => 2

/-- The selector codes of `RD` (10_state.md R27). -/
def Selector.code : Selector → Byte
  | .status => 0x00
  | .finfo => 0x01
  | .dim => 0x02
  | .mcucnt => 0x03
  | .acc => 0x04
  | .cur => 0x05
  | .outlen => 0x06
  | .pred => 0x07
  | .outb => 0x08
  | .samp => 0x10
  | .coef => 0x11
  | .zz => 0x12
  | .qtab => 0x13
  | .fscale => 0x14
  | .ehuf => 0x15
  | .hbits => 0x16
  | .hval => 0x17

def Selector.ofCode (a : Byte) : Option Selector :=
  match a.toNat with
  | 0x00 => some .status
  | 0x01 => some .finfo
  | 0x02 => some .dim
  | 0x03 => some .mcucnt
  | 0x04 => some .acc
  | 0x05 => some .cur
  | 0x06 => some .outlen
  | 0x07 => some .pred
  | 0x08 => some .outb
  | 0x10 => some .samp
  | 0x11 => some .coef
  | 0x12 => some .zz
  | 0x13 => some .qtab
  | 0x14 => some .fscale
  | 0x15 => some .ehuf
  | 0x16 => some .hbits
  | 0x17 => some .hval
  | _ => none

/-- `strat = A[0]` (R62). -/
def Strategy.ofBit (b : Bool) : Strategy := if b then .fast else .direct

def Strategy.bit : Strategy → BitVec 1
  | .direct => 0
  | .fast => 1

/-- A command all of whose unused bits were found zero, once its operands are in range too. -/
def checked (unusedZero : Bool) (i : Instr) : Except DecodeError Instr :=
  if unusedZero then (if i.wf then .ok i else .error .operandRange) else .error .unusedBits

/-- The field `A` holds one bit `A[0]` and zeros. -/
def aIsBit (w : CommandWord) : Bool := (w.extractLsb' 49 7 : BitVec 7) == 0

/-- Decoding: the opcode map of R61, the operands of R62, the refusals of R64. -/
def decode (w : CommandWord) : Except DecodeError Instr :=
  let aZero := fieldA w == 0
  let cZero := fieldC w == 0
  let iZero := fieldI w == 0
  let dZero := fieldD w == 0
  let dHiZero := fieldDhi w == 0
  match (fieldOPC w).toNat with
  | 0x00 => checked (aZero && cZero && iZero && dZero) .reset
  | 0x01 => checked (aIsBit w && cZero && iZero && dHiZero) (.cfg (fieldDlo w) (Strategy.ofBit (w.getLsbD 48)))
  | 0x02 => checked (aZero && cZero && iZero && dZero) .hbuild
  | 0x03 => checked (aZero && cZero && iZero) (.img (fieldDlo w) (fieldDhi w))
  | 0x04 => checked (aZero && cZero && iZero && dZero) .start
  | 0x05 => checked (aIsBit w && cZero && iZero && dZero) (.endImage (w.getLsbD 48))
  | 0x06 =>
    match Selector.ofCode (fieldA w) with
    | some sel => checked true (.rd sel (fieldC w) (fieldI w) (fieldD w))
    | none => .error .reservedSelector
  | 0x07 =>
    match Buffer.ofCode (fieldA w) with
    | some buf => checked true (.ld buf (fieldC w) (fieldI w) (fieldD w))
    | none => .error .bufferCode
  | 0x08 => checked (aZero && cZero && iZero) (.tile (fieldDlo w) (fieldDhi w))
  | 0x10 => checked (aZero && iZero && dZero) (.fdct (fieldC w))
  | 0x11 => checked (aZero && iZero && dZero) (.qzz (fieldC w))
  | 0x12 => checked (aZero && iZero && dZero) (.enc (fieldC w))
  | 0x13 => checked (cZero && iZero && dHiZero) (.putbits (fieldA w) (fieldDlo w))
  | 0x14 => checked (aZero && iZero && dZero) (.blk (fieldC w))
  | 0x15 => checked (aZero && cZero && iZero && dZero) .mcu
  | _ => .error .unassignedOpcode

/-! The encoder, from the same tables. -/

/-- `OPC << 56 | A << 48 | C << 40 | I << 32 | D` (R60). -/
def packWord (opc a c i : Byte) (d : Word) : CommandWord := opc ++ a ++ c ++ i ++ d

/-- The field `A` or `D` that holds one bit. -/
def bitField (b : BitVec 1) : Byte := b.setWidth 8

/-- The word of a command (R61, R62). -/
def encode : Instr → CommandWord
  | .reset => packWord 0x00 0 0 0 0
  | .cfg level strat => packWord 0x01 (bitField strat.bit) 0 0 (level.setWidth 32)
  | .hbuild => packWord 0x02 0 0 0 0
  | .img w h => packWord 0x03 0 0 0 (h ++ w)
  | .start => packWord 0x04 0 0 0 0
  | .endImage pad => packWord 0x05 (bitField (BitVec.ofBool pad)) 0 0 0
  | .rd sel c i d => packWord 0x06 sel.code c i d
  | .ld buf c i value => packWord 0x07 buf.code c i value
  | .tile mx my => packWord 0x08 0 0 0 (my ++ mx)
  | .fdct c => packWord 0x10 0 c 0 0
  | .qzz c => packWord 0x11 0 c 0 0
  | .enc c => packWord 0x12 0 c 0 0
  | .putbits n v => packWord 0x13 n 0 0 (v.setWidth 32)
  | .blk c => packWord 0x14 0 c 0 0
  | .mcu => packWord 0x15 0 0 0 0

/-- The upper half of a command's own word. -/
def Instr.upper (i : Instr) : Word := upperWord (encode i)

/-- What the decoder reads from a row of the opcode table: one 64-bit word whose low `nbits` bits are those of `w` and
whose other bits are zero. The command word is one word, so bit 0 of the table is bit 0 of the word. -/
def decodeTableWord (nbits w : Nat) : Option Instr :=
  match decode (BitVec.ofNat 64 (w % 2 ^ nbits)) with
  | .ok i => some i
  | .error _ => none

end Sys2Proof
end

