-- ==== Sys2Proof/Machine/Alg.lean ====
section
/-! DEFINITION. Exact arithmetic on `Alg`, the numbers `(n0*C_0 + ... + n7*C_7) / den` with `C_k = cos(k*pi/16)`:
sums, products, reciprocals, an exact sign and an exact floor. 00_scope.md R7 gives every result of the real-valued
units as an exact real number; these are the operations its formulas use. -/

namespace Sys2Proof

/-- The denominator, at least 1. -/
def Alg.den (x : Alg) : Nat := x.dm1 + 1

/-- The eight coefficients with the index `k` of their `C_k`. -/
def Alg.terms (x : Alg) : List (Nat × Int) :=
  [(0, x.n0), (1, x.n1), (2, x.n2), (3, x.n3), (4, x.n4), (5, x.n5), (6, x.n6), (7, x.n7)]

/-- Zero with the given denominator-less-one. -/
def Alg.zeroOver (dm1 : Nat) : Alg := ⟨0, 0, 0, 0, 0, 0, 0, 0, dm1⟩

def Alg.zero : Alg := Alg.zeroOver 0

/-- The rational `n / d` (`d` at least 1). -/
def Alg.ofFrac (n : Int) (d : Nat) : Alg := ⟨n, 0, 0, 0, 0, 0, 0, 0, d - 1⟩

def Alg.ofInt (n : Int) : Alg := Alg.ofFrac n 1

def Alg.ofRat (q : Rat) : Alg := Alg.ofFrac q.num q.den

/-- Every coefficient of an irrational `C_k` is zero. -/
def Alg.isRational (x : Alg) : Bool :=
  x.n1 == 0 && x.n2 == 0 && x.n3 == 0 && x.n4 == 0 && x.n5 == 0 && x.n6 == 0 && x.n7 == 0

def Alg.isZero (x : Alg) : Bool := x.n0 == 0 && x.isRational

/-- Numerators times `k`, denominator unchanged. -/
def Alg.mulInt (k : Int) (x : Alg) : Alg :=
  ⟨k * x.n0, k * x.n1, k * x.n2, k * x.n3, k * x.n4, k * x.n5, k * x.n6, k * x.n7, x.dm1⟩

/-- `x / d` for a natural `d` of at least 1. -/
def Alg.divNat (x : Alg) (d : Nat) : Alg := { x with dm1 := x.den * d - 1 }

/-- `x * n / d`. -/
def Alg.mulFrac (x : Alg) (n : Int) (d : Nat) : Alg := (Alg.mulInt n x).divNat d

def Alg.neg (x : Alg) : Alg := Alg.mulInt (-1) x

/-- Sum of two numbers with the same denominator. -/
def Alg.addSame (x y : Alg) : Alg :=
  ⟨x.n0 + y.n0, x.n1 + y.n1, x.n2 + y.n2, x.n3 + y.n3, x.n4 + y.n4, x.n5 + y.n5, x.n6 + y.n6, x.n7 + y.n7, x.dm1⟩

/-- `x` written over the denominator `x.den * k`. -/
def Alg.widen (x : Alg) (k : Nat) : Alg := (Alg.mulInt k x).divNat k

def Alg.add (x y : Alg) : Alg :=
  if x.dm1 = y.dm1 then Alg.addSame x y
  else
    let l := Nat.lcm x.den y.den
    Alg.addSame (x.widen (l / x.den)) (y.widen (l / y.den))

def Alg.sub (x y : Alg) : Alg := Alg.add x y.neg

/-- Adds `r` to the coefficient of `C_i`, `i` = 0..7 (`C_8 = 0`: nothing to add). -/
def Alg.addAt (x : Alg) (i : Nat) (r : Int) : Alg :=
  match i with
  | 0 => { x with n0 := x.n0 + r }
  | 1 => { x with n1 := x.n1 + r }
  | 2 => { x with n2 := x.n2 + r }
  | 3 => { x with n3 := x.n3 + r }
  | 4 => { x with n4 := x.n4 + r }
  | 5 => { x with n5 := x.n5 + r }
  | 6 => { x with n6 := x.n6 + r }
  | 7 => { x with n7 := x.n7 + r }
  | _ => x

/-- `x + r*C_k/den` for any index `k`: `C_(32-k) = C_k`, `C_(16-k) = -C_k`, `C_8 = 0`. -/
def Alg.addCos (x : Alg) (r : Int) (k : Nat) : Alg :=
  let m := k % 32
  let q := if m ≤ 16 then m else 32 - m
  if q ≤ 8 then Alg.addAt x q r else Alg.addAt x (16 - q) (-r)

/-- `C_k = cos(k*pi/16)`. -/
def Alg.cos (k : Nat) : Alg := Alg.addCos Alg.zero 1 k

/-- The product, from `2*C_i*C_j = C_(i+j) + C_(i-j)`. -/
def Alg.mulFull (x y : Alg) : Alg :=
  ⟨2 * (x.n0 * y.n0) + (x.n1 * y.n1 + x.n2 * y.n2 + x.n3 * y.n3 + x.n4 * y.n4 + x.n5 * y.n5 + x.n6 * y.n6 + x.n7 * y.n7),
   2 * (x.n0 * y.n1 + x.n1 * y.n0) + (x.n1 * y.n2 + x.n2 * y.n1 + x.n2 * y.n3 + x.n3 * y.n2 + x.n3 * y.n4 + x.n4 * y.n3
      + x.n4 * y.n5 + x.n5 * y.n4 + x.n5 * y.n6 + x.n6 * y.n5 + x.n6 * y.n7 + x.n7 * y.n6),
   2 * (x.n0 * y.n2 + x.n2 * y.n0) + x.n1 * y.n1 + (x.n1 * y.n3 + x.n3 * y.n1 + x.n2 * y.n4 + x.n4 * y.n2 + x.n3 * y.n5
      + x.n5 * y.n3 + x.n4 * y.n6 + x.n6 * y.n4 + x.n5 * y.n7 + x.n7 * y.n5) - x.n7 * y.n7,
   2 * (x.n0 * y.n3 + x.n3 * y.n0) + (x.n1 * y.n2 + x.n2 * y.n1) + (x.n1 * y.n4 + x.n4 * y.n1 + x.n2 * y.n5 + x.n5 * y.n2
      + x.n3 * y.n6 + x.n6 * y.n3 + x.n4 * y.n7 + x.n7 * y.n4) - (x.n6 * y.n7 + x.n7 * y.n6),
   2 * (x.n0 * y.n4 + x.n4 * y.n0) + (x.n1 * y.n3 + x.n3 * y.n1) + x.n2 * y.n2 + (x.n1 * y.n5 + x.n5 * y.n1
      + x.n2 * y.n6 + x.n6 * y.n2 + x.n3 * y.n7 + x.n7 * y.n3) - (x.n5 * y.n7 + x.n7 * y.n5) - x.n6 * y.n6,
   2 * (x.n0 * y.n5 + x.n5 * y.n0) + (x.n1 * y.n4 + x.n4 * y.n1 + x.n2 * y.n3 + x.n3 * y.n2) + (x.n1 * y.n6 + x.n6 * y.n1
      + x.n2 * y.n7 + x.n7 * y.n2) - (x.n4 * y.n7 + x.n7 * y.n4 + x.n5 * y.n6 + x.n6 * y.n5),
   2 * (x.n0 * y.n6 + x.n6 * y.n0) + (x.n1 * y.n5 + x.n5 * y.n1 + x.n2 * y.n4 + x.n4 * y.n2) + x.n3 * y.n3
      + (x.n1 * y.n7 + x.n7 * y.n1) - (x.n3 * y.n7 + x.n7 * y.n3 + x.n4 * y.n6 + x.n6 * y.n4) - x.n5 * y.n5,
   2 * (x.n0 * y.n7 + x.n7 * y.n0) + (x.n1 * y.n6 + x.n6 * y.n1 + x.n2 * y.n5 + x.n5 * y.n2 + x.n3 * y.n4 + x.n4 * y.n3)
      - (x.n2 * y.n7 + x.n7 * y.n2 + x.n3 * y.n6 + x.n6 * y.n3 + x.n4 * y.n5 + x.n5 * y.n4),
   2 * x.den * y.den - 1⟩

def Alg.mul (x y : Alg) : Alg :=
  if y.isRational then x.mulFrac y.n0 y.den
  else if x.isRational then y.mulFrac x.n0 x.den
  else Alg.mulFull x y

/-- The same number over its least denominator: equal numbers have equal normal forms. -/
def Alg.norm (x : Alg) : Alg :=
  let g := x.terms.foldl (fun a kb => Nat.gcd a kb.2.natAbs) x.den
  ⟨x.n0 / g, x.n1 / g, x.n2 / g, x.n3 / g, x.n4 / g, x.n5 / g, x.n6 / g, x.n7 / g, x.den / g - 1⟩

/-! The tower of fields: the numbers with coefficients at multiples of 8 only (the rationals), of 4, of 2, of 1. Each is
the one before it with `C_4`, `C_2`, `C_1` adjoined, and `x = e + o` splits a number into its part in the smaller field
and the rest, for which `o*C_g` lies in the smaller field again. -/

/-- The coefficients whose index is an even multiple of `g` (`g` is 1, 2 or 4; the others are left out). -/
def Alg.evenPart (g : Nat) (x : Alg) : Alg :=
  match g with
  | 1 => ⟨x.n0, 0, x.n2, 0, x.n4, 0, x.n6, 0, x.dm1⟩
  | 2 => ⟨x.n0, 0, 0, 0, x.n4, 0, 0, 0, x.dm1⟩
  | _ => ⟨x.n0, 0, 0, 0, 0, 0, 0, 0, x.dm1⟩

/-- The coefficients whose index is an odd multiple of `g`. -/
def Alg.oddPart (g : Nat) (x : Alg) : Alg :=
  match g with
  | 1 => ⟨0, x.n1, 0, x.n3, 0, x.n5, 0, x.n7, x.dm1⟩
  | 2 => ⟨0, 0, x.n2, 0, 0, 0, x.n6, 0, x.dm1⟩
  | _ => ⟨0, 0, 0, 0, x.n4, 0, 0, 0, x.dm1⟩

/-- The sign of `x` in the field with `C_g`, from the sign function of the smaller field: compare the two parts, and
where they pull in opposite directions compare their squares. -/
def Alg.signAbove (g : Nat) (below : Alg → Int) (x : Alg) : Int :=
  let e := x.evenPart g
  let o := x.oddPart g
  if o.isZero then below e
  else
    let se := below e
    let so := below (Alg.mul o (Alg.cos g))
    if se = 0 then so
    else if se = so then se
    else se * below (Alg.sub (Alg.mul e e) (Alg.mul o o))

/-- The exact sign of the real number: -1, 0 or 1. -/
def Alg.sign (x : Alg) : Int :=
  Alg.signAbove 1 (Alg.signAbove 2 (Alg.signAbove 4 fun y => y.n0.sign)) x

def Alg.le (x y : Alg) : Bool := decide (0 ≤ (Alg.sub y x).sign)

def Alg.lt (x y : Alg) : Bool := decide (0 < (Alg.sub y x).sign)

def Alg.abs (x : Alg) : Alg := if x.sign < 0 then x.neg else x

/-- The reciprocal in the field with `C_g`: `1/(e+o) = (e-o) * 1/(e*e - o*o)`. -/
def Alg.invAbove (g : Nat) (below : Alg → Alg) (x : Alg) : Alg :=
  let e := x.evenPart g
  let o := x.oddPart g
  if o.isZero then below e
  else Alg.mul (Alg.sub e o) (below (Alg.norm (Alg.sub (Alg.mul e e) (Alg.mul o o))))

/-- The reciprocal of a non-zero number, in normal form (of zero: zero, which no rule asks for). -/
def Alg.inv (x : Alg) : Alg :=
  Alg.norm (Alg.invAbove 1 (Alg.invAbove 2 (Alg.invAbove 4 fun y => Alg.ofFrac (y.n0.sign * y.den) y.n0.natAbs)) x)

/-- `floor(C_k * 2^64)`, `k` = 0..7: only a starting point for `Alg.floor`, whose answer is checked exactly. -/
def Alg.cosApprox : List Nat :=
  [18446744073709551616, 18092295058859852118, 17042569291174129989, 15337907143211554841,
   13043817825332782212, 10248461903483781988, 7059263338087549766, 3598781241489102188]

/-- A guess at the floor. -/
def Alg.guessFloor (x : Alg) : Int :=
  ((x.terms.zip Alg.cosApprox).foldl (fun a p => a + p.1.2 * (p.2 : Int)) (0 : Int)) / ((x.den : Int) * 18446744073709551616)

/-- The integer `m` with `m <= x < m + 1`, found in `lo .. lo + 2^fuel - 1` by halving. -/
def Alg.floorSearch (x : Alg) : Nat → Int → Int
  | 0, lo => lo
  | fuel + 1, lo =>
    let mid := lo + (2 ^ fuel : Nat)
    if Alg.le (Alg.ofInt mid) x then Alg.floorSearch x fuel mid else Alg.floorSearch x fuel lo

/-- A bound: `|x| < magnitude x`. -/
def Alg.magnitude (x : Alg) : Nat :=
  x.terms.foldl (fun a kb => a + kb.2.natAbs) 0 / x.den + 1

/-- `floor(x)`, exact: the guess where the exact comparison confirms it, else the search. -/
def Alg.floor (x : Alg) : Int :=
  if x.isRational then x.n0 / (x.den : Int)
  else
    let g := x.guessFloor
    if Alg.le (Alg.ofInt g) x && Alg.lt x (Alg.ofInt (g + 1)) then g
    else Alg.floorSearch x (Nat.log2 (2 * x.magnitude) + 1) (-(x.magnitude : Int))

/-- `ceil(x)`. -/
def Alg.ceil (x : Alg) : Int := -(x.neg.floor)

/-- `x + 1/2`. -/
def Alg.addHalf (x : Alg) : Alg := Alg.add x (Alg.ofFrac 1 2)

/-- `x - 1/2`. -/
def Alg.subHalf (x : Alg) : Alg := Alg.sub x (Alg.ofFrac 1 2)

end Sys2Proof
end

