-- ==== Sys2Proof/Machine/Table.lean ====
section
/-! DEFINITION. Building a table from a function of its index or from a list. -/

namespace Sys2Proof

/-- The table whose entry `i` is `f i`. -/
def tabulate {α : Type} {n : Nat} (f : Fin n → α) : Vector α n :=
  ⟨(List.ofFn f).toArray, by simp⟩

/-- The table of `n` entries that begins with the list and goes on with `x`. -/
def tableOfList {α : Type} (n : Nat) (x : α) (l : List α) : Vector α n :=
  ⟨((l ++ List.replicate n x).take n).toArray, by simp⟩

end Sys2Proof
end

