-- ==== Sys2Proof/Config.lean ====
section
/-! DEFINITION. What an implementation fixes and the spec leaves `OPEN` (00_scope.md R6, 92_eei_decisions.md "Open
parameters"), and the free values. Every constant here is opaque and has no body: nothing in Lean can evaluate it, and a
statement proved about the model holds for every choice of it. The tables the spec prints are in Machine/Tables.lean. -/

namespace Sys2Proof

/-- The format `NUM` as the command port and the read port encode it (00_scope.md R6, R7, 92_eei_decisions.md D6):
IEEE 754 binary32, which the spec recommends, or any other format, known by a number only. -/
inductive NumFormat where
  | binary32
  | other (k : Nat)
  deriving DecidableEq, Repr, Inhabited

/-- The launch parameters of a run (46_session_commands.md R181, 00_scope.md R6): the format and the two tolerances.
They are fields of State so that every statement covers every choice; no command writes them. -/
structure Params where
  /-- `NUM` -/
  fmt : NumFormat
  /-- `EPS_DCT`, the bound on the deviation of each `FDCT` output (in the scale of the direct transform) -/
  epsDct : Rat
  /-- `EPS_Q`, the bound on the deviation of each quotient in `QZZ` -/
  epsQ : Rat
  deriving DecidableEq, Repr, Inhabited

/-- `LIGHT_N[cls][i] - 1`, natural order, free (00_scope.md R6, 41_quant_tables.md R102, R103). The type `Fin 255` is the
constraint of R103: an entry outside 1..255 cannot be given (DESIGN CHOICE, log entry 5; safe). -/
opaque Config.lightLessOne : Fin 2 → Fin 64 → Fin 255

/-- The real value of a 32-bit encoding in the format `other k`; `none` is "not a finite number". -/
opaque Config.numDecode : Nat → BitVec 32 → Option Alg

/-- The 32-bit encoding that `RD` gives of a computed value in the format `other k` (93_implementation_defined.md U21). -/
opaque Config.numEncode : Nat → NumValue → BitVec 32

/-- The pattern of a computed value that is not a finite number, by its tag. -/
opaque Config.notFiniteBits : Nat → BitVec 32

/-- Draw `n` for the deviation of a DCT output (00_scope.md R7: "a free draw within that bound"; DESIGN CHOICE, log entries
3, 18; safe). -/
opaque Config.dctDraw : Nat → Alg

/-- Draw `n` for the deviation of a quotient (42_quantizer_zigzag.md R115). -/
opaque Config.quotientDraw : Nat → Alg

/-- `OUT` after a fault inside `ENC`, unspecified (60_exceptions.md R203 item 3; DEDUCED, log entry 15; safe). -/
opaque Config.lostOut : Nat → List (BitVec 8)

/-- `ACC` after a fault inside `ENC`, unspecified (60_exceptions.md R203 item 3). -/
opaque Config.lostAcc : Nat → BitVec 32

/-- `CUR` after a fault inside `ENC`, unspecified (60_exceptions.md R203 item 3). -/
opaque Config.lostCur : Nat → BitVec 6

/-- `PRED` after a fault inside `ENC`, unspecified (60_exceptions.md R203 item 3). -/
opaque Config.lostPred : Nat → Vector (BitVec 16) 3

end Sys2Proof
end

