-- ==== Sys2Proof/Machine/Types.lean ====
section
/-! DEFINITION. The types of the pieces of state (10_state.md) and of the two ports (30_encoding.md R63,
46_session_commands.md R182). Types only. -/

namespace Sys2Proof.Machine

/-- `PHASE` (10_state.md R22). Code 3 is never held, so it is no value of the type. -/
inductive Phase where
  | idle
  | image
  | faulted
  deriving DecidableEq, Repr, Inhabited

/-- What `FAULT` holds (60_exceptions.md R200): `none` is 0. The reserved codes 5 and 11..255 are never held. -/
inductive FaultCode where
  | none | precond | huffovf | huffspec | zerolen | seq | illcmd | uninit | qrange | cat
  deriving DecidableEq, Repr, Inhabited

/-- A block of 64 entries, `none` being `BOT` (10_state.md R11). -/
abbrev Block (α : Type) := Vector (Option α) 64

/-- One entry of the extended Huffman table (10_state.md R19): the code length `SI`, 0..16, and the code `CO`. -/
structure HuffCode where
  si : Fin 17
  co : Half
  deriving DecidableEq, Repr, Inhabited

/-- One Huffman specification (10_state.md R18): `bits[l-1]` is `BITS[l]`, the number of codes of length `l`, and
`vals` the 256 value slots. -/
structure HuffSpec where
  bits : Vector Half 16
  vals : Vector Byte 256
  deriving DecidableEq, Repr, Inhabited

/-- The answer to a command (30_encoding.md R63). -/
inductive Response where
  /-- `OK` -/
  | ok
  /-- `OK(data)` -/
  | data (d : Word)
  /-- `OK(data)` for a `NUM` entry: `bits` is the 32-bit datum on the port, and `v` the entry itself, which is what the
  exact model returns (10_state.md R27; DESIGN CHOICE, log entry 11; safe) -/
  | num (v : NumValue) (bits : Word)
  /-- `FAULT` -/
  | fault
  deriving DecidableEq, Repr, Inhabited

/-- Memory as a list of (address, byte) pairs in one canonical form (Machine/Ops.lean). -/
abbrev Memory := List Host.Cell

/-- What the host may do between two commands (46_session_commands.md R182). -/
inductive HostMove where
  /-- present one command word -/
  | command (w : CommandWord)
  /-- assert the reset input (70_reset_and_hazards.md R230, R231) -/
  | resetInput
  /-- hand over an image: these bytes replace those of the image space (20_memory.md R40, R51) -/
  | supplyImage (bytes : Memory)
  deriving DecidableEq, Repr, Inhabited

end Sys2Proof.Machine
end

