-- ==== Sys2Proof/Machine/Tables.lean ====
section
/-! DEFINITION. The constant tables (10_state.md R29): the zig-zag map and its inverse (42_quantizer_zigzag.md R110), the
preset divisor tables (41_quant_tables.md R102), the AAN factors (40_dct.md R93), `BIAS` (42_quantizer_zigzag.md R113) and
the Huffman specifications (43_huffman_builder.md R121). The spec marks all of them but `UNITY_N` as general knowledge;
the model takes them as the spec prints them. -/

namespace Sys2Proof

/-- `ZZMAP`, natural index to zig-zag position, row by row (R110). -/
def zzMapTable : List Nat :=
  [0, 1, 5, 6, 14, 15, 27, 28,
   2, 4, 7, 13, 16, 26, 29, 42,
   3, 8, 12, 17, 25, 30, 41, 43,
   9, 11, 18, 24, 31, 40, 44, 53,
   10, 19, 23, 32, 39, 45, 52, 54,
   20, 22, 33, 38, 46, 51, 55, 60,
   21, 34, 37, 47, 50, 56, 59, 61,
   35, 36, 48, 49, 57, 58, 62, 63]

/-- The inverse map, zig-zag position to natural index (R110). -/
def zzInvTable : List Nat :=
  [0, 1, 8, 16, 9, 2, 3, 10,
   17, 24, 32, 25, 18, 11, 4, 5,
   12, 19, 26, 33, 40, 48, 41, 34,
   27, 20, 13, 6, 7, 14, 21, 28,
   35, 42, 49, 56, 57, 50, 43, 36,
   29, 22, 15, 23, 30, 37, 44, 51,
   58, 59, 52, 45, 38, 31, 39, 46,
   53, 60, 61, 54, 47, 55, 62, 63]

/-- `ZZMAP[i]`. -/
def zzMap (i : Fin 64) : Fin 64 := Fin.ofNat 64 (zzMapTable.getD i.val 0)

/-- The natural index at a zig-zag position. -/
def zzInv (k : Fin 64) : Fin 64 := Fin.ofNat 64 (zzInvTable.getD k.val 0)

/-- `STD_N[0]`, luma, natural order (R102). -/
def stdLuma : List Nat :=
  [16, 11, 10, 16, 24, 40, 51, 61,
   12, 12, 14, 19, 26, 58, 60, 55,
   14, 13, 16, 24, 40, 57, 69, 56,
   14, 17, 22, 29, 51, 87, 80, 62,
   18, 22, 37, 56, 68, 109, 103, 77,
   24, 35, 55, 64, 81, 104, 113, 92,
   49, 64, 78, 87, 103, 121, 120, 101,
   72, 92, 95, 98, 112, 100, 103, 99]

/-- `STD_N[1]`, chroma, natural order (R102). -/
def stdChroma : List Nat :=
  [17, 18, 24, 47, 99, 99, 99, 99,
   18, 21, 26, 66, 99, 99, 99, 99,
   24, 26, 56, 99, 99, 99, 99, 99,
   47, 66, 99, 99, 99, 99, 99, 99,
   99, 99, 99, 99, 99, 99, 99, 99,
   99, 99, 99, 99, 99, 99, 99, 99,
   99, 99, 99, 99, 99, 99, 99, 99,
   99, 99, 99, 99, 99, 99, 99, 99]

/-- `STD_N[cls][i]`. -/
def stdN (cls : Fin 2) (i : Fin 64) : Byte :=
  BitVec.ofNat 8 ((if cls = 0 then stdLuma else stdChroma).getD i.val 0)

/-- `UNITY_N[cls][i]`: every entry 1 (R102). -/
def unityN (_cls : Fin 2) (_i : Fin 64) : Byte := 1

/-- `LIGHT_N[cls][i]`, the open parameter, an entry of 1..255 (R102, R103). -/
def lightN (cls : Fin 2) (i : Fin 64) : Byte := BitVec.ofNat 8 ((Config.lightLessOne cls i).val + 1)

/-- `PRESET(level)`: 1 unity, 2 light, 3 the standard tables, any other level unity (R101). -/
def preset (level : Half) : Fin 2 → Fin 64 → Byte :=
  if level = 2 then lightN else if level = 3 then stdN else unityN

/-- `AANS[0] = 1`, `AANS[k] = sqrt(2)*cos(k*pi/16)` (40_dct.md R93), with `sqrt(2) = 2*cos(4*pi/16)`. -/
def aans (k : Nat) : Alg :=
  if k = 0 then Alg.ofInt 1 else Alg.norm (Alg.mul (Alg.mulInt 2 (Alg.cos 4)) (Alg.cos k))

/-- `BIAS` (42_quantizer_zigzag.md R113). -/
def bias : Int := 16384

namespace Machine

/-- A specification from its counts and its values; slots past the end of the list hold 0 (log entry 6). -/
def HuffSpec.ofLists (bits vals : List Nat) : HuffSpec :=
  { bits := tableOfList 16 0 (bits.map (BitVec.ofNat 16))
    vals := tableOfList 256 0 (vals.map (BitVec.ofNat 8)) }

/-- `HSPEC[0]`, luma DC: the counts (R121). -/
def bitsDcLuma : List Nat :=
  [0, 1, 5, 1, 1, 1, 1, 1, 1, 0, 0, 0, 0, 0, 0, 0]

/-- `HSPEC[0]`, luma DC: the values in specification order (R121). -/
def valsDcLuma : List Nat :=
  [0x00, 0x01, 0x02, 0x03, 0x04, 0x05, 0x06, 0x07, 0x08, 0x09, 0x0A, 0x0B]

/-- `HSPEC[1]`, luma AC: the counts (R121). -/
def bitsAcLuma : List Nat :=
  [0, 2, 1, 3, 3, 2, 4, 3, 5, 5, 4, 4, 0, 0, 1, 125]

/-- `HSPEC[1]`, luma AC: the values in specification order (R121). -/
def valsAcLuma : List Nat :=
  [0x01, 0x02, 0x03, 0x00, 0x04, 0x11, 0x05, 0x12, 0x21, 0x31, 0x41, 0x06, 0x13, 0x51, 0x61, 0x07,
   0x22, 0x71, 0x14, 0x32, 0x81, 0x91, 0xA1, 0x08, 0x23, 0x42, 0xB1, 0xC1, 0x15, 0x52, 0xD1, 0xF0,
   0x24, 0x33, 0x62, 0x72, 0x82, 0x09, 0x0A, 0x16, 0x17, 0x18, 0x19, 0x1A, 0x25, 0x26, 0x27, 0x28,
   0x29, 0x2A, 0x34, 0x35, 0x36, 0x37, 0x38, 0x39, 0x3A, 0x43, 0x44, 0x45, 0x46, 0x47, 0x48, 0x49,
   0x4A, 0x53, 0x54, 0x55, 0x56, 0x57, 0x58, 0x59, 0x5A, 0x63, 0x64, 0x65, 0x66, 0x67, 0x68, 0x69,
   0x6A, 0x73, 0x74, 0x75, 0x76, 0x77, 0x78, 0x79, 0x7A, 0x83, 0x84, 0x85, 0x86, 0x87, 0x88, 0x89,
   0x8A, 0x92, 0x93, 0x94, 0x95, 0x96, 0x97, 0x98, 0x99, 0x9A, 0xA2, 0xA3, 0xA4, 0xA5, 0xA6, 0xA7,
   0xA8, 0xA9, 0xAA, 0xB2, 0xB3, 0xB4, 0xB5, 0xB6, 0xB7, 0xB8, 0xB9, 0xBA, 0xC2, 0xC3, 0xC4, 0xC5,
   0xC6, 0xC7, 0xC8, 0xC9, 0xCA, 0xD2, 0xD3, 0xD4, 0xD5, 0xD6, 0xD7, 0xD8, 0xD9, 0xDA, 0xE1, 0xE2,
   0xE3, 0xE4, 0xE5, 0xE6, 0xE7, 0xE8, 0xE9, 0xEA, 0xF1, 0xF2, 0xF3, 0xF4, 0xF5, 0xF6, 0xF7, 0xF8,
   0xF9, 0xFA]

/-- `HSPEC[2]`, chroma DC: the counts (R121). -/
def bitsDcChroma : List Nat :=
  [0, 3, 1, 1, 1, 1, 1, 1, 1, 1, 1, 0, 0, 0, 0, 0]

/-- `HSPEC[2]`, chroma DC: the values in specification order (R121). -/
def valsDcChroma : List Nat :=
  [0x00, 0x01, 0x02, 0x03, 0x04, 0x05, 0x06, 0x07, 0x08, 0x09, 0x0A, 0x0B]

/-- `HSPEC[3]`, chroma AC: the counts (R121). -/
def bitsAcChroma : List Nat :=
  [0, 2, 1, 2, 4, 4, 3, 4, 7, 5, 4, 4, 0, 1, 2, 119]

/-- `HSPEC[3]`, chroma AC: the values in specification order (R121). -/
def valsAcChroma : List Nat :=
  [0x00, 0x01, 0x02, 0x03, 0x11, 0x04, 0x05, 0x21, 0x31, 0x06, 0x12, 0x41, 0x51, 0x07, 0x61, 0x71,
   0x13, 0x22, 0x32, 0x81, 0x08, 0x14, 0x42, 0x91, 0xA1, 0xB1, 0xC1, 0x09, 0x23, 0x33, 0x52, 0xF0,
   0x15, 0x62, 0x72, 0xD1, 0x0A, 0x16, 0x24, 0x34, 0xE1, 0x25, 0xF1, 0x17, 0x18, 0x19, 0x1A, 0x26,
   0x27, 0x28, 0x29, 0x2A, 0x35, 0x36, 0x37, 0x38, 0x39, 0x3A, 0x43, 0x44, 0x45, 0x46, 0x47, 0x48,
   0x49, 0x4A, 0x53, 0x54, 0x55, 0x56, 0x57, 0x58, 0x59, 0x5A, 0x63, 0x64, 0x65, 0x66, 0x67, 0x68,
   0x69, 0x6A, 0x73, 0x74, 0x75, 0x76, 0x77, 0x78, 0x79, 0x7A, 0x82, 0x83, 0x84, 0x85, 0x86, 0x87,
   0x88, 0x89, 0x8A, 0x92, 0x93, 0x94, 0x95, 0x96, 0x97, 0x98, 0x99, 0x9A, 0xA2, 0xA3, 0xA4, 0xA5,
   0xA6, 0xA7, 0xA8, 0xA9, 0xAA, 0xB2, 0xB3, 0xB4, 0xB5, 0xB6, 0xB7, 0xB8, 0xB9, 0xBA, 0xC2, 0xC3,
   0xC4, 0xC5, 0xC6, 0xC7, 0xC8, 0xC9, 0xCA, 0xD2, 0xD3, 0xD4, 0xD5, 0xD6, 0xD7, 0xD8, 0xD9, 0xDA,
   0xE2, 0xE3, 0xE4, 0xE5, 0xE6, 0xE7, 0xE8, 0xE9, 0xEA, 0xF2, 0xF3, 0xF4, 0xF5, 0xF6, 0xF7, 0xF8,
   0xF9, 0xFA]

/-- The four standard specifications, in the table order of 00_scope.md R4. -/
def standardHspec : Vector HuffSpec 4 :=
  #v[HuffSpec.ofLists bitsDcLuma valsDcLuma, HuffSpec.ofLists bitsAcLuma valsAcLuma,
     HuffSpec.ofLists bitsDcChroma valsDcChroma, HuffSpec.ofLists bitsAcChroma valsAcChroma]

end Machine

end Sys2Proof
end

