-- ==== Sys2Proof/Machine/State.lean ====
section
/-! DEFINITION. The machine's state (10_state.md R10, R30), as plain data: the core's own pieces under the spec's names,
then what a run adds to them (the image space, the command port, the responses), then the model's own fields. -/

namespace Sys2Proof.Machine

/-- Why the model stops. The core's own faults are not among these: their entry is a next state
(60_exceptions.md R203). -/
inductive Fault where
  /-- Raised by `MemRead` at an address outside `0 .. W*H*3-1`, where 20_memory.md R41 says nothing is defined. Safe; no
  command reaches it (47_frontend.md R195). -/
  | outsideImage (addr : Nat)
  /-- Raised by the host's move `supplyImage` in phase `IMAGE`, which 46_session_commands.md R182 says the host never
  makes. Safe. -/
  | imageMoved
  deriving DecidableEq, Repr

/-- Why the model gives no meaning. -/
inductive Refusal where
  /-- Raised by an arm of `exec` for an instruction that is not modelled yet; no arm is. Safe. -/
  | notModelled (mnemonic : String)
  deriving DecidableEq, Repr

structure State where
  /-- `SAMP[c][i]`, natural index (10_state.md R12) -/
  samp : Vector (Block NumValue) 3
  /-- `COEF[c][i]`, natural index (R13) -/
  coef : Vector (Block NumValue) 3
  /-- `ZZ[c][k]`, zig-zag position (R14) -/
  zz : Vector (Block Half) 3
  /-- `LEVEL` (R15) -/
  level : Half
  /-- `STRAT` (R15) -/
  strat : Strategy
  /-- `W` (R24) -/
  w : Half
  /-- `H` (R24) -/
  h : Half
  /-- `QTAB[cls][k]`, zig-zag position (R16) -/
  qtab : Vector (Block Byte) 2
  /-- `FSCALE[cls][i]`, natural index (R17) -/
  fscale : Vector (Block NumValue) 2
  /-- `HSPEC[t]` (R18), read-only -/
  hspec : Vector HuffSpec 4
  /-- `EHUF[t][s]` (R19) -/
  ehuf : Vector (Vector (Option HuffCode) 256) 4
  /-- `PRED[c]` (R20), two's complement -/
  pred : Vector Half 3
  /-- `ACC` (R21) -/
  acc : Word
  /-- `CUR` (R21) -/
  cur : BitVec 6
  /-- `OUT`, first byte first (R26, 20_memory.md R45) -/
  out : List Byte
  /-- `PHASE` (R22) -/
  phase : Phase
  /-- `NEXTC` (R22) -/
  nextc : Fin 3
  /-- `MCUCNT` (R22) -/
  mcucnt : Word
  /-- `QVALID` (R23) -/
  qvalid : Bool
  /-- `HVALID` (R23) -/
  hvalid : Bool
  /-- `IMGVALID` (R23) -/
  imgvalid : Bool
  /-- `FAULT` (R25) -/
  fault : FaultCode
  /-- `FINFO` (R25) -/
  finfo : Word
  /-- the image space `IMG` (20_memory.md R40), the host's bytes -/
  img : Memory
  /-- the host's moves still to come, first one first: the rest of the program (46_session_commands.md R181) -/
  port : List HostMove
  /-- the responses given, latest first: the run's record (46_session_commands.md R181) -/
  responses : List Response
  /-- the launch parameters (46_session_commands.md R181); the model's own field -/
  params : Params
  /-- the number of the next free value; the model's own field, on whose value no statement rests -/
  draws : Nat
  deriving DecidableEq, Repr

/-- The parameters of the launch at reset: the recommended port format and the spec's exact model, both tolerances 0
(00_scope.md R6, R7; DESIGN CHOICE, log entries 1 and 2). -/
def Params.atReset : Params := { fmt := .binary32, epsDct := 0, epsQ := 0 }

/-- The state after reset (10_state.md R30, 70_reset_and_hazards.md R230), with no image, no program and no response. -/
def State.reset : State :=
  { samp := Vector.replicate 3 (Vector.replicate 64 none)
    coef := Vector.replicate 3 (Vector.replicate 64 none)
    zz := Vector.replicate 3 (Vector.replicate 64 none)
    level := 0
    strat := .direct
    w := 0
    h := 0
    qtab := Vector.replicate 2 (Vector.replicate 64 none)
    fscale := Vector.replicate 2 (Vector.replicate 64 none)
    hspec := standardHspec
    ehuf := Vector.replicate 4 (Vector.replicate 256 none)
    pred := Vector.replicate 3 0
    acc := 0
    cur := 0
    out := []
    phase := .idle
    nextc := 0
    mcucnt := 0
    qvalid := false
    hvalid := false
    imgvalid := false
    fault := .none
    finfo := 0
    img := []
    port := []
    responses := []
    params := Params.atReset
    draws := 0 }

end Sys2Proof.Machine
end

