-- ==== Sys2Proof/Machine/Flags.lean ====
section
/-! DEFINITION. The flags and the sequencing state: their codes, the `STATUS` word (10_state.md R22, R23, R25, R27,
60_exceptions.md R200) and the phase table, which says when a command is accepted (46_session_commands.md R160). -/

namespace Sys2Proof.Machine

/-- The code of a phase (R22). -/
def Phase.code : Phase → BitVec 2
  | .idle => 0
  | .image => 1
  | .faulted => 2

/-- The fault codes (60_exceptions.md R200). -/
def FaultCode.code : FaultCode → Byte
  | .none => 0
  | .precond => 1
  | .huffovf => 2
  | .huffspec => 3
  | .zerolen => 4
  | .seq => 6
  | .illcmd => 7
  | .uninit => 8
  | .qrange => 9
  | .cat => 10

/-- `NEXTC` in two bits. -/
def nextcBits (c : Fin 3) : BitVec 2 := BitVec.ofNat 2 c.val

/-- The `STATUS` word: `LEVEL` 31:16, `FAULT` 15:8, `STRAT` 7, `IMGVALID` 6, `HVALID` 5, `QVALID` 4, `NEXTC` 3:2,
`PHASE` 1:0 (R27). -/
def statusWord (s : State) : Word :=
  s.level ++ s.fault.code ++ s.strat.bit ++ BitVec.ofBool s.imgvalid ++ BitVec.ofBool s.hvalid
    ++ BitVec.ofBool s.qvalid ++ nextcBits s.nextc ++ s.phase.code

/-- `c` is the component that the next `ENC` must encode. -/
def isNext (c : Byte) (s : State) : Bool := decide (c.toNat = s.nextc.val)

/-- The phase table (46_session_commands.md R160), row by row: whether a command is accepted. -/
def accepts (i : Instr) (s : State) : Bool :=
  match i with
  | .reset => true
  | .rd sel _ _ _ => s.phase != .faulted || sel == .status || sel == .finfo
  | .cfg _ _ => s.phase == .idle && !s.qvalid
  | .hbuild => s.phase == .idle && !s.hvalid
  | .img _ _ => s.phase == .idle
  | .ld _ _ _ _ => s.phase != .faulted
  | .tile _ _ => s.phase != .faulted
  | .fdct _ => s.phase != .faulted && s.qvalid
  | .qzz _ => s.phase != .faulted && s.qvalid
  | .start => s.phase == .idle && s.qvalid && s.hvalid
  | .enc c => s.phase == .image && isNext c s
  | .putbits _ _ => s.phase == .image
  | .blk c => s.phase == .image && isNext c s
  | .mcu => s.phase == .image && s.nextc == 0
  | .endImage _ => s.phase == .image && s.nextc == 0

end Sys2Proof.Machine
end

