-- ==== Sys2Proof/Machine/Operands.lean ====
section
/-! DEFINITION. The operand forms: component, class, table number, block index (00_scope.md R4, R5, 30_encoding.md R62),
the static operand check, and the first never-written entry of a block (10_state.md R11). -/

namespace Sys2Proof.Machine

/-- Whether the operands are legal whatever the state (30_encoding.md R64 item 3). -/
def operandsLegal (i : Instr) : Bool := i.wf

/-- The component a legal field `C` names, 0..2 (above the range: DESIGN CHOICE, log entry 19; safe). -/
def component (c : Byte) : Fin 3 := Fin.ofNat 3 c.toNat

/-- The index a legal field `I` names, 0..63. -/
def index64 (i : Byte) : Fin 64 := Fin.ofNat 64 i.toNat

/-- The index a field `I` names, 0..255. -/
def index256 (i : Byte) : Fin 256 := Fin.ofNat 256 i.toNat

/-- The class or the table number a legal field `C` names. -/
def classOf (c : Byte) : Fin 2 := Fin.ofNat 2 c.toNat

def tableOf (c : Byte) : Fin 4 := Fin.ofNat 4 c.toNat

/-- `cls(0) = 0`, `cls(1) = cls(2) = 1` (R4). -/
def cls (c : Fin 3) : Fin 2 := if c = 0 then 0 else 1

/-- The DC table of a component, `2*cls` (R4). -/
def dcTable (c : Fin 3) : Fin 4 := if c = 0 then 0 else 2

/-- The AC table of a component, `2*cls + 1` (R4). -/
def acTable (c : Fin 3) : Fin 4 := if c = 0 then 1 else 3

/-- A small number in a byte of an information word. -/
def byteOf (n : Nat) : Byte := BitVec.ofNat 8 n

/-- `{0, a, b, c}` (60_exceptions.md R201). -/
def infoBytes (a b c : Byte) : Word := (0 : Byte) ++ a ++ b ++ c

/-- The lowest index that holds `BOT`, or `none` where every entry has been written. -/
def firstBot {α : Type} {n : Nat} (b : Vector (Option α) n) : Option Nat := b.toList.findIdx? Option.isNone

/-- The value field of `LD` for `buf` = `Z`: `sext_16(D[15:0])`, held in 16 bits (30_encoding.md R62). -/
def loadedHalf (value : Word) : Half := value.extractLsb' 0 16

end Sys2Proof.Machine
end

