-- ==== Sys2Proof/Machine/Ops.lean ====
section
/-! DEFINITION. The named operations every meaning is written over: the image memory, answering a command, fault entry
(60_exceptions.md R203), the order of checks (R204), reset (70_reset_and_hazards.md R230), and taking the host's next
move. -/

namespace Sys2Proof.Machine

/-- What one step answers. -/
abbrev Out := Host.Outcome State Fault Refusal

/-! ### The image space (20_memory.md R40, R41) -/

/-- What an address that is not listed reads as (DESIGN CHOICE, log entry 7). -/
def unlistedByte : Byte := 0

/-- The byte listed at an address, else `unlistedByte`. -/
def Memory.read : Memory → Nat → Byte
  | [], _ => unlistedByte
  | (b, x) :: m, a => if a = b then x else Memory.read m a

/-- A list with the cell `(a, x)` in front, unless that is what an unlisted address reads as. -/
def Memory.cell (a : Nat) (x : Byte) (m : Memory) : Memory := if x = unlistedByte then m else (a, x) :: m

/-- The memory with `x` at address `a`, in canonical form where `m` is. -/
def Memory.write : Memory → Nat → Byte → Memory
  | [], a, x => Memory.cell a x []
  | (b, y) :: m, a, x =>
    if a < b then Memory.cell a x ((b, y) :: m)
    else if a = b then Memory.cell a x m
    else (b, y) :: Memory.write m a x

/-- Every address listed is above `lo`. -/
def Memory.above (lo : Nat) : Memory → Bool
  | [] => true
  | (b, _) :: _ => decide (lo < b)

/-- The canonical form: addresses strictly rising, and no cell that an unlisted address would read the same. -/
def Memory.wf : Memory → Bool
  | [] => true
  | (b, y) :: m => (y != unlistedByte) && Memory.above b m && Memory.wf m

/-- The canonical memory of a list of cells, the later ones written over the earlier. -/
def Memory.ofCells (cells : List Host.Cell) : Memory :=
  cells.foldl (fun m c => Memory.write m c.1 c.2) []

/-- The size of the image space in bytes, `W*H*3` (R40). -/
def imageSize (s : State) : Nat := s.w.toNat * s.h.toNat * 3

/-- `MemRead(IMG, addr, 1)` (R41): defined for `addr < W*H*3` only. -/
def memRead (s : State) (addr : Nat) : Except Fault Byte :=
  if addr < imageSize s then .ok (Memory.read s.img addr) else .error (.outsideImage addr)

/-! ### Answering and faulting -/

/-- Gives a response and records it (30_encoding.md R63, 46_session_commands.md R181). -/
def respond (r : Response) (s : State) : State := { s with responses := r :: s.responses }

/-- A command that completed with `OK`. -/
def answerOk (s : State) : Out := .next (respond .ok s)

/-- A fault about to be taken: its code and its information word. -/
structure Raise where
  code : FaultCode
  info : Word
  deriving DecidableEq, Repr

/-- Fault entry (60_exceptions.md R203), but for the response. -/
def enterFault (r : Raise) (s : State) : State :=
  { s with fault := r.code, finfo := r.info, phase := .faulted }

/-- `raise F_X(info)`: fault entry and the response `FAULT`. -/
def takeFault (r : Raise) (s : State) : Out := .next (respond .fault (enterFault r s))

/-- The response `FAULT` alone, nothing else written: any word that phase `FAULTED` does not accept (R205). -/
def refuseInFaulted (s : State) : Out := .next (respond .fault s)

/-- `OUT`, `ACC`, `CUR` and `PRED` after a fault inside `ENC`: unspecified, hence free (R203 item 3). -/
def loseStream (s : State) : State :=
  { s with
    out := Config.lostOut s.draws
    acc := Config.lostAcc s.draws
    cur := Config.lostCur s.draws
    pred := Config.lostPred s.draws
    draws := s.draws + 1 }

/-- A stage of the pipeline: the state it leaves, or (`error`) the state after the fault entry it took. -/
abbrev Stage := State → Except State State

/-- Two stages in a row: a fault of the first stops the second (46_session_commands.md R173). -/
def Stage.andThen (f g : Stage) : Stage := fun s =>
  match f s with
  | .ok s' => g s'
  | .error s' => .error s'

/-- A stage that raises a fault. -/
def raiseIn (r : Raise) (s : State) : Except State State := .error (enterFault r s)

/-- The answer to a command that is a stage. -/
def finish (r : Except State State) : Out :=
  match r with
  | .ok s => answerOk s
  | .error s => .next (respond .fault s)

/-- The order of checks of R204 and R205 in front of every command: in phase `FAULTED` what is not accepted is answered
`FAULT` and changes nothing; elsewhere an illegal operand raises `F_ILLCMD`, a command the phase table refuses raises
`F_SEQ`, and only then the command runs. -/
def issue (i : Instr) (s : State) (run : State → Out) : Out :=
  if s.phase = .faulted ∧ (operandsLegal i && accepts i s) = false then refuseInFaulted s
  else if operandsLegal i = false then takeFault ⟨.illcmd, i.upper⟩ s
  else if accepts i s = false then takeFault ⟨.seq, i.upper⟩ s
  else run s

/-- An illegal word (30_encoding.md R64, 60_exceptions.md R205, R208): `F_ILLCMD`, but in phase `FAULTED` nothing. -/
def issueIllegal (w : CommandWord) (s : State) : Out :=
  if s.phase = .faulted then refuseInFaulted s else takeFault ⟨.illcmd, upperWord w⟩ s

/-! ### Reset -/

/-- Reset (70_reset_and_hazards.md R230): every piece of the core takes its reset value; `HSPEC` keeps its contents, and
what is not part of the core (the image, the host's moves, the record, the launch parameters, the draw counter) stays
(DEDUCED, log entry 16; safe). -/
def resetCore (s : State) : State :=
  { State.reset with
    hspec := s.hspec
    img := s.img
    port := s.port
    responses := s.responses
    params := s.params
    draws := s.draws }

/-! ### The host's next move -/

/-- The machine with the host's first move taken off the port. -/
def nextMove (s : State) : Option (HostMove × State) :=
  match s.port with
  | [] => none
  | m :: rest => some (m, { s with port := rest })

/-- The host hands over an image (46_session_commands.md R182); during `IMAGE` that is no move of the host's
(DESIGN CHOICE, log entry 9; safe). -/
def supplyImage (cells : List Host.Cell) (s : State) : Out :=
  if s.phase = .image then .fault .imageMoved else .next { s with img := Memory.ofCells cells }

end Sys2Proof.Machine
end

