-- ==== Sys2Proof/Machine/Packer.lean ====
section
/-! DEFINITION. The bit accumulator with byte stuffing (45_bit_packer.md): `PUTBITS` as an operation, the padding of
`END`, and the command `PUTBITS`. -/

namespace Sys2Proof.Machine

/-- What the packer reads and writes: `ACC`, `CUR`, `OUT`. -/
structure Packer where
  acc : Word
  cur : BitVec 6
  out : List Byte
  deriving DecidableEq, Repr

def State.packer (s : State) : Packer := { acc := s.acc, cur := s.cur, out := s.out }

def State.withPacker (s : State) (p : Packer) : State := { s with acc := p.acc, cur := p.cur, out := p.out }

/-- A byte as it goes to `OUT`: every `0xFF` is followed at once by a `0x00` (R152). -/
def stuffed (b : Byte) : List Byte := if b = 0xFF then [b, 0] else [b]

/-- The extraction loop, `n` times: the top byte goes to `OUT`, the register shifts left by 8 (R151). -/
def drain : Nat → Word → List Byte → Word × List Byte
  | 0, acc, out => (acc, out)
  | n + 1, acc, out => drain n (acc <<< 8) (out ++ stuffed (acc.extractLsb' 24 8))

/-- `PUTBITS(n, v)` (R151). The loop `while CUR >= 8` runs `(CUR + n) / 8` times. With more than 7 bits
pending, which no run reaches, see log entry 21 (DESIGN CHOICE; safe). -/
def putBits (n v : Nat) (p : Packer) : Packer :=
  if n = 0 then p
  else
    let acc := p.acc ||| (BitVec.ofNat 32 (v % 2 ^ n) <<< (32 - p.cur.toNat - n))
    let total := p.cur.toNat + n
    let r := drain (total / 8) acc p.out
    { acc := r.1, cur := BitVec.ofNat 6 (total % 8), out := r.2 }

/-- `PAD1`: fills the partial byte with 1 bits (R155). -/
def pad1 (p : Packer) : Packer :=
  if p.cur = 0 then p else putBits (8 - p.cur.toNat) (2 ^ (8 - p.cur.toNat) - 1) p

/-- `PUTBITS n, v` (R150). -/
def execPutbits (n : Byte) (v : Half) (s : State) : Out :=
  issue (.putbits n v) s fun s => answerOk (s.withPacker (putBits n.toNat v.toNat s.packer))

end Sys2Proof.Machine
end

