-- ==== Sys2Proof/Machine/Entropy.lean ====
section
/-! DEFINITION. The entropy coder (44_entropy_coder.md): magnitude and category, symbol emission, DC and AC coding, the
stage and the command `ENC`. -/

namespace Sys2Proof.Machine

/-- `bitlen(a)` (00_scope.md section 8). -/
def bitlen (a : Nat) : Nat := if a = 0 then 0 else Nat.log2 a + 1

/-- `MAGCAT(v)`, the pair `(raw, cat)` (R131). -/
def magcat (v : Int) : Nat × Nat :=
  let cat := bitlen v.natAbs
  let v' := if v < 0 then v - 1 else v
  ((v' % (2 ^ cat : Nat)).toNat, cat)

/-- The extended tables, as `EMITSYM` reads them. -/
abbrev HuffTables := Vector (Vector (Option HuffCode) 256) 4

/-- `EMITSYM(t, s)` (R133). An entry holding `BOT`, which `PHASE = IMAGE` excludes, is `F_UNINIT` (10_state.md R11; DESIGN
CHOICE, log entry 14; safe). -/
def emitSym (tabs : HuffTables) (t : Fin 4) (sym : Byte) (p : Packer) : Except Raise Packer :=
  match tabs[t][sym.toNat] with
  | none => .error ⟨.uninit, infoBytes 0x15 (byteOf t.val) sym⟩
  | some e =>
    if e.si = 0 then .error ⟨.zerolen, infoBytes 0 (byteOf t.val) sym⟩
    else .ok (putBits e.si.val e.co.toNat p)

/-- `DC(c, td)` (R134) but for the predictor's update: `diff` is coded. -/
def encodeDc (tabs : HuffTables) (td : Fin 4) (diff : Int) (p : Packer) : Except Raise Packer :=
  let rc := magcat diff
  (emitSym tabs td (byteOf rc.2) p).map fun p => putBits rc.2 rc.1 p

/-- `n` ZRL symbols, `0xF0` (30_encoding.md R74). -/
def emitZrls (tabs : HuffTables) (ta : Fin 4) : Nat → Packer → Except Raise Packer
  | 0, p => .ok p
  | n + 1, p => (emitSym tabs ta 0xF0 p).bind (emitZrls tabs ta n)

/-- One AC coefficient item (R135): the symbol byte `(run << 4) | cat`, then the raw bits; `F_CAT` (R136). -/
def emitCoefficient (tabs : HuffTables) (c : Fin 3) (ta : Fin 4) (k run : Nat) (v : Int) (p : Packer) :
    Except Raise Packer :=
  let rc := magcat v
  if 15 < rc.2 then .error ⟨.cat, infoBytes 0 (byteOf c.val) (byteOf k)⟩
  else (emitSym tabs ta (byteOf (run * 16 + rc.2)) p).map fun p => putBits rc.2 rc.1 p

/-- The AC loop (R135) over the coefficients from position `k` on, `run` zeros having been counted. -/
def encodeRuns (tabs : HuffTables) (c : Fin 3) (ta : Fin 4) : Nat → Nat → List Int → Packer → Except Raise Packer
  | _, _, [], p => .ok p
  | k, run, v :: rest, p =>
    if v = 0 then encodeRuns tabs c ta (k + 1) (run + 1) rest p
    else
      (emitZrls tabs ta (run / 16) p).bind fun p =>
        (emitCoefficient tabs c ta k (run % 16) v p).bind fun p => encodeRuns tabs c ta (k + 1) 0 rest p

/-- The list up to its last non-zero element. -/
def upToLast : List Int → List Int
  | [] => []
  | v :: rest =>
    match upToLast rest with
    | [] => if v = 0 then [] else [v]
    | r => v :: r

/-- `AC(c, ta)` (R135) for the coefficients at positions 1..63: the items up to `last`, then EOB (symbol `0x00`) unless
position 63 is non-zero. -/
def encodeAc (tabs : HuffTables) (c : Fin 3) (ta : Fin 4) (z : List Int) (p : Packer) : Except Raise Packer :=
  let body := upToLast z
  (encodeRuns tabs c ta 1 0 body p).bind fun p =>
    if body.length = 63 then .ok p else emitSym tabs ta 0x00 p

/-- The 64 coefficients of a block with no `BOT`, as integers in zig-zag order. -/
def coefficients (b : Block Half) : List Int := b.toList.map fun e => (e.getD 0).toInt

/-- The bits of the block `ZZ[c]`: its DC item against the predictor, then its AC items. -/
def encodeBlock (s : State) (c : Fin 3) : Except Raise Packer :=
  let z := coefficients s.zz[c]
  (encodeDc s.ehuf (dcTable c) (z.headD 0 - s.pred[c].toInt) s.packer).bind fun p =>
    encodeAc s.ehuf c (acTable c) z.tail p

/-- What a fault inside `ENC` leaves of `OUT`, `ACC`, `CUR`, `PRED` (60_exceptions.md R203 items 2 and 3; DEDUCED, log entry
15; safe). -/
def afterEncFault (r : Raise) (s : State) : State := if r.code = .uninit then s else loseStream s

/-- `ENC`'s effect once its items have gone to the packer (R130, R134). -/
def encoded (c : Fin 3) (p : Packer) (s : State) : State :=
  { s.withPacker p with
    pred := s.pred.set c.val (s.zz[c][0].getD 0) c.isLt
    nextc := s.nextc + 1
    mcucnt := if c = 2 then s.mcucnt + 1 else s.mcucnt }

/-- The stage `ENC c` (R130). -/
def encStage (c : Fin 3) : Stage := fun s =>
  match firstBot s.zz[c] with
  | some k => raiseIn ⟨.uninit, infoBytes 0x12 (byteOf c.val) (byteOf k)⟩ s
  | none =>
    match encodeBlock s c with
    | .error r => raiseIn r (afterEncFault r s)
    | .ok p => .ok (encoded c p s)

/-- `ENC c` (R130). -/
def execEnc (c : Byte) (s : State) : Out := issue (.enc c) s fun s => finish (encStage (component c) s)

end Sys2Proof.Machine
end

