-- ==== Sys2Proof/Machine/Num.lean ====
section
/-! DEFINITION. The values of the format `NUM` (00_scope.md R7): what real number a stored entry denotes, the 32-bit
encoding of an entry (10_state.md R27), and the deviations an implementation may add. -/

namespace Sys2Proof

/-- The real number of an IEEE 754 binary32 pattern; `none` for infinities and NaNs. -/
def decodeBinary32 (p : Word) : Option Alg :=
  let sgn : Int := if p.getLsbD 31 then -1 else 1
  let expo := (p.extractLsb' 23 8).toNat
  let frac := (p.extractLsb' 0 23).toNat
  if expo = 255 then none
  else if expo = 0 then some (Alg.norm (Alg.ofFrac (sgn * frac) (2 ^ 149)))
  else if expo ≥ 150 then some (Alg.ofInt (sgn * ((8388608 + frac) * 2 ^ (expo - 150) : Nat)))
  else some (Alg.norm (Alg.ofFrac (sgn * (8388608 + frac : Nat)) (2 ^ (150 - expo))))

/-- `a * 2^149 / 2^e` for a non-negative `a`: the significand of `a` when its exponent field is `e` (or 1 for `e` = 0). -/
def significand (a : Alg) (e : Nat) : Alg := a.mulFrac (2 ^ 149 : Nat) (2 ^ e)

/-- The binary32 pattern of a non-negative real number, to nearest, ties to even; infinity past the largest
(DESIGN CHOICE, log entry 10; unsafe). -/
def encodeMagnitude (a : Alg) : Nat :=
  let f := (a.mulFrac (2 ^ 126 : Nat) 1).floor.toNat
  let e := if f = 0 then 0 else Nat.log2 f
  let x := significand a e
  let m := x.floor.toNat
  let twice := (Alg.sub (x.mulInt 2) (Alg.ofInt (2 * m + 1))).sign
  let m' := if twice > 0 || (twice = 0 && m % 2 = 1) then m + 1 else m
  min (e * 8388608 + m') 0x7F800000

/-- The binary32 pattern nearest a real number (10_state.md R27, 41_quant_tables.md R104). R27 does not say how a number that
binary32 cannot hold exactly is encoded: to nearest, ties to even, is the model's choice, and so are the signs of zero. Zero
is `+0`, and a negative number too small for binary32, whose magnitude rounds to 0, keeps its sign and is `0x80000000`
(DESIGN CHOICE, log entry 10; unsafe). -/
def encodeBinary32 (x : Alg) : Word :=
  if x.sign < 0 then 0x80000000 ||| BitVec.ofNat 32 (encodeMagnitude x.neg)
  else BitVec.ofNat 32 (encodeMagnitude x)

/-- The real number of a 32-bit encoding in a format. -/
def NumFormat.decode (fmt : NumFormat) (p : Word) : Option Alg :=
  match fmt with
  | .binary32 => decodeBinary32 p
  | .other k => Config.numDecode k p

/-- The real number an entry denotes, or `none` where it is not a finite number (R7). -/
def NumValue.value (fmt : NumFormat) : NumValue → Option Alg
  | .code p => fmt.decode p
  | .real x => some x
  | .notFinite _ => none

/-- The "`NUM` encoding" of an entry (10_state.md R27): the pattern `LD` brought, else the format's pattern of the
computed value. A binary32 pattern that is not a finite number has all exponent bits set and is free otherwise (DESIGN
CHOICE, log entry 10; unsafe). -/
def NumValue.bits (fmt : NumFormat) (v : NumValue) : Word :=
  match fmt, v with
  | _, .code p => p
  | .binary32, .real x => encodeBinary32 x
  | .binary32, .notFinite tag => Config.notFiniteBits tag ||| 0x7F800000
  | .other k, v => Config.numEncode k v

/-- The deviation a draw stands for: the draw itself where it lies within the tolerance, else none
(00_scope.md R7: "a free draw within that bound, under no other law"). With tolerance 0 there is no deviation (DESIGN CHOICE, log entry
18; safe). -/
def deviation (eps : Rat) (draw : Alg) : Alg :=
  if eps.num ≤ 0 then Alg.zero else if Alg.le draw.abs (Alg.ofRat eps) then draw else Alg.zero

/-- The reference value with its deviation, in normal form. -/
def deviated (eps : Rat) (draw reference : Alg) : Alg := Alg.norm (Alg.add reference (deviation eps draw))

end Sys2Proof
end

