-- ==== Sys2Proof/Machine/Dct.lean ====
section
/-! DEFINITION. The DCT forward engine (40_dct.md): the direct double sum, the fast transform's scaling, the stage and the
command `FDCT`. -/

namespace Sys2Proof.Machine

/-- The block's numbers, or `none` where one of them is not a finite number (40_dct.md R90). -/
def blockValues (fmt : NumFormat) (b : Block NumValue) : Option (List Alg) :=
  b.toList.mapM fun e => e.bind (NumValue.value fmt)

/-- A common denominator of the block. -/
def commonDen (xs : List Alg) : Nat := xs.foldl (fun a x => Nat.lcm a x.den) 1

/-- The numbers, each over the given multiple of its denominator. -/
def overDen (d : Nat) (xs : List Alg) : List Alg := xs.map fun x => x.widen (d / x.den)

/-- The block by coefficient: for each `k` with some coefficient of `C_k` not zero, `k` and the 64 numerators. -/
def planes (xs : List Alg) : List (Nat × List Int) :=
  [(0, xs.map Alg.n0), (1, xs.map Alg.n1), (2, xs.map Alg.n2), (3, xs.map Alg.n3), (4, xs.map Alg.n4),
    (5, xs.map Alg.n5), (6, xs.map Alg.n6), (7, xs.map Alg.n7)].filter fun p => p.2.any fun r => r != 0

/-- `acc + 4*r*C_k*C_a*C_b` on numerators, by
`4*C_k*C_a*C_b = C_(k+a+b) + C_(k+a-b) + C_(k-a+b) + C_(k-a-b)`; an index is kept from going below zero by adding a
multiple of the period 32. -/
def addSample (acc : Alg) (r : Int) (k a b : Nat) : Alg :=
  let a' := 32 - a % 32
  let b' := 32 - b % 32
  if k = 0 then Alg.addCos (Alg.addCos acc (2 * r) (a + b)) (2 * r) (a + b')
  else Alg.addCos (Alg.addCos (Alg.addCos (Alg.addCos acc r (k + a + b)) r (k + a + b')) r (k + a' + b)) r (k + a' + b')

/-- The index `a` with `C_a` the factor of the row or column `x` at frequency `u`: `cos((2x+1)*u*pi/16)`, times the
`1/sqrt(2) = C_4` of `N(u,v)` where `u` is the only zero frequency (40_dct.md R91). -/
def basisIndex (u v x : Nat) : Nat := if u = 0 then (if v = 0 then 0 else 4) else (2 * x + 1) * u

/-- Four times the double sum of R91 without its overall factor, for the plane of `C_k`, over the numerators from natural
index `j` on. -/
def basisSum (u v k : Nat) : Nat → List Int → Alg → Alg
  | _, [], acc => acc
  | j, r :: rest, acc =>
    basisSum u v k (j + 1) rest
      (if r = 0 then acc else addSample acc r k (basisIndex u v (j % 8)) (basisIndex v u (j / 8)))

/-- A block ready for the double sum: its common denominator and its planes. -/
structure Prepared where
  den : Nat
  planes : List (Nat × List Int)
  deriving DecidableEq, Repr

def prepare (samples : List Alg) : Prepared :=
  let d := commonDen samples
  { den := d, planes := planes (overDen d samples) }

/-- `DCT2(s)[i]`, the reference value at natural index `i = v*8 + u` (40_dct.md R91): `0.25*N(u,v)` times the double
sum, where `N(0,0) = 0.5` and the `1/sqrt(2)` is in `basisIndex`. -/
def dct2 (b : Prepared) (i : Fin 64) : Alg :=
  let sum := b.planes.foldl (fun acc p => basisSum (i.val % 8) (i.val / 8) p.1 0 p.2 acc) (Alg.zeroOver (b.den - 1))
  Alg.norm (sum.divNat (if i.val = 0 then 32 else 16))

/-- `8*AANS[u]*AANS[v]`, the scaling of the fast transform at natural index `i = v*8 + u` (40_dct.md R94). -/
def fastScale (i : Fin 64) : Alg := Alg.mulInt 8 (Alg.mul (aans (i.val % 8)) (aans (i.val / 8)))

/-- One output of the transform of strategy `strat`, with the deviation of draw `n` (R91, R94, 00_scope.md R7): the fast
output is the direct one scaled, and so is its tolerance. -/
def transformed (p : Params) (strat : Strategy) (samples : Prepared) (n : Nat) (i : Fin 64) : Alg :=
  let direct := deviated p.epsDct (Config.dctDraw n) (dct2 samples i)
  match strat with
  | .direct => direct
  | .fast => Alg.norm (Alg.mul (fastScale i) direct)

/-- The 64 outputs; where a sample is not a finite number no output is, each depending on every sample (DEDUCED, log
entry 20; unsafe). -/
def transformBlock (p : Params) (strat : Strategy) (draws : Nat) (b : Block NumValue) : Block NumValue :=
  match blockValues p.fmt b with
  | some samples => tabulate fun i => some (NumValue.real (transformed p strat (prepare samples) (draws + i.val) i))
  | none => tabulate fun i => some (NumValue.notFinite (draws + i.val))

/-- The stage `FDCT c` (40_dct.md R90). -/
def fdctStage (c : Fin 3) : Stage := fun s =>
  match firstBot s.samp[c] with
  | some i => raiseIn ⟨.uninit, infoBytes 0x10 (byteOf c.val) (byteOf i)⟩ s
  | none =>
    .ok { s with
      coef := s.coef.set c.val (transformBlock s.params s.strat s.draws s.samp[c]) c.isLt
      draws := s.draws + 64 }

/-- `FDCT c` (40_dct.md R90). -/
def execFdct (c : Byte) (s : State) : Out := issue (.fdct c) s fun s => finish (fdctStage (component c) s)

end Sys2Proof.Machine
end

