-- ==== Sys2Proof/Machine/Quantizer.lean ====
section
/-! DEFINITION. The quantiser with zig-zag reordering (42_quantizer_zigzag.md): the two roundings, the range faults, the
stage and the command `QZZ`. -/

namespace Sys2Proof.Machine

/-- The direct path's rounding of a quotient: to nearest, ties away from zero (R112). -/
def roundDirect (q : Alg) : Int := if q.sign < 0 then q.subHalf.ceil else q.addHalf.floor

/-- The fast path's rounding of a quotient: `floor(q + BIAS + 0.5) - BIAS`, `none` below the biased range (R113, R114). -/
def roundFast (q : Alg) : Option Int :=
  let t := (Alg.add q (Alg.ofInt bias)).addHalf
  if t.sign < 0 then none else some (t.floor - bias)

/-- A result that fits `ZZ`, as 16 bits (R114). -/
def fitsHalf (r : Int) : Option Half := if -32768 ≤ r ∧ r ≤ 32767 then some (BitVec.ofInt 16 r) else none

/-- The quotient the rounding sees: the reference quotient with the deviation of draw `n` (R115). -/
def quotient (p : Params) (n : Nat) (q : Alg) : Alg := deviated p.epsQ (Config.quotientDraw n) q

/-- The direct path for one coefficient and its divisor; `none` raises `F_QRANGE` (R112, R114). -/
def quantDirect (p : Params) (n : Nat) (a : NumValue) (d : Byte) : Option Half :=
  match a.value p.fmt with
  | none => none
  | some x => if d = 0 then none else fitsHalf (roundDirect (quotient p n (x.divNat d.toNat)))

/-- The fast path for one coefficient and its fused scale entry; `none` raises `F_QRANGE` (R113, R114). -/
def quantFast (p : Params) (n : Nat) (a f : NumValue) : Option Half :=
  match a.value p.fmt, f.value p.fmt with
  | some x, some y => (roundFast (quotient p n (Alg.mul x y))).bind fitsHalf
  | _, _ => none

/-- The quantised block in natural order, `none` where an element faults. The divisor of natural index `i` is
`QTAB[cls][ZZMAP[i]]` (R111). -/
def quantBlock (s : State) (c : Fin 3) : Block Half :=
  tabulate fun i =>
    match s.strat, s.coef[c][i], s.qtab[cls c][zzMap i], s.fscale[cls c][i] with
    | .direct, some a, some d, _ => quantDirect s.params (s.draws + i.val) a d
    | .fast, some a, _, some f => quantFast s.params (s.draws + i.val) a f
    | _, _, _, _ => none

/-- The block in zig-zag order: position `ZZMAP[i]` gets natural entry `i` (R110, R111). -/
def toZigzag {α : Type} (b : Vector α 64) : Vector α 64 := tabulate fun k => b[zzInv k]

/-- The first never-written entry that the path's table holds: `QTAB` for the direct path, `FSCALE` for the fast one.
`QVALID = 1` excludes it (60_exceptions.md R209); in a state that no run reaches it is `F_UNINIT` (10_state.md R11;
DESIGN CHOICE, log entry 14; safe). -/
def quantTableBot (s : State) (c : Fin 3) : Option Raise :=
  match s.strat with
  | .direct => (firstBot s.qtab[cls c]).map fun k => ⟨.uninit, infoBytes 0x13 (byteOf (cls c).val) (byteOf k)⟩
  | .fast => (firstBot s.fscale[cls c]).map fun i => ⟨.uninit, infoBytes 0x14 (byteOf (cls c).val) (byteOf i)⟩

/-- The stage `QZZ c` (R111). The draws of the 64 quotients are used up whether or not one of them faults. -/
def qzzStage (c : Fin 3) : Stage := fun s =>
  match firstBot s.coef[c], quantTableBot s c with
  | some i, _ => raiseIn ⟨.uninit, infoBytes 0x11 (byteOf c.val) (byteOf i)⟩ s
  | none, some r => raiseIn r s
  | none, none =>
    let q := quantBlock s c
    match firstBot q with
    | some i => raiseIn ⟨.qrange, infoBytes 0x11 (byteOf c.val) (byteOf i)⟩ { s with draws := s.draws + 64 }
    | none => .ok { s with zz := s.zz.set c.val (toZigzag q) c.isLt, draws := s.draws + 64 }

/-- `QZZ c` (R111). -/
def execQzz (c : Byte) (s : State) : Out := issue (.qzz c) s fun s => finish (qzzStage (component c) s)

end Sys2Proof.Machine
end

