-- ==== Sys2Proof/Machine/Composite.lean ====
section
/-! DEFINITION. The composite commands (46_session_commands.md section 3): `BLK` and `MCU`. -/

namespace Sys2Proof.Machine

/-- The three stages of one component in a row (R173); the phase check was made once, before the first
(DEDUCED, log entry 17; safe). -/
def blkStage (c : Fin 3) : Stage := (fdctStage c).andThen ((qzzStage c).andThen (encStage c))

/-- `BLK c` (R173). -/
def execBlk (c : Byte) (s : State) : Out := issue (.blk c) s fun s => finish (blkStage (component c) s)

/-- `BLK 0 ; BLK 1 ; BLK 2` (R174). -/
def mcuStage : Stage := (blkStage 0).andThen ((blkStage 1).andThen (blkStage 2))

/-- `MCU` (R174). -/
def execMcu (s : State) : Out := issue .mcu s fun s => finish (mcuStage s)

end Sys2Proof.Machine
end

