-- ==== Sys2Proof/Machine/DataMove.lean ====
section
/-! DEFINITION. Data movement between host and core (46_session_commands.md section 4): `LD` and `RD`. -/

namespace Sys2Proof.Machine

/-- One entry of one component's block replaced. -/
def setEntry {α : Type} (bufs : Vector (Block α) 3) (c : Fin 3) (i : Fin 64) (x : α) : Vector (Block α) 3 :=
  bufs.set c.val (bufs[c].set i.val (some x) i.isLt) c.isLt

/-- `LD`'s effect (R175). For `S` and `C` the entry keeps the 32-bit `NUM` encoding it was given
(DEDUCED, log entry 12; unsafe). -/
def loadEntry (buf : Buffer) (c : Fin 3) (i : Fin 64) (value : Word) (s : State) : State :=
  match buf with
  | .samp => { s with samp := setEntry s.samp c i (.code value) }
  | .coef => { s with coef := setEntry s.coef c i (.code value) }
  | .zz => { s with zz := setEntry s.zz c i (loadedHalf value) }

/-- `LD buf, c, i, value` (R175). -/
def execLd (buf : Buffer) (c i : Byte) (value : Word) (s : State) : Out :=
  issue (.ld buf c i value) s fun s => answerOk (loadEntry buf (component c) (index64 i) value s)

/-- The answer for an entry that may be `BOT`: its datum, or `F_UNINIT` with `{sel, c, i}` (R176). -/
def readEntry {α : Type} (sel : Selector) (c i : Byte) (entry : Option α) (answer : α → Response) :
    Except Raise Response :=
  match entry with
  | none => .error ⟨.uninit, infoBytes sel.code c i⟩
  | some x => .ok (answer x)

/-- A 16-bit two's-complement value in 32 bits. -/
def sext (x : Half) : Word := x.signExtend 32

/-- The datum of an `EHUF` entry: `SI` in 20:16, `CO` in 15:0 (10_state.md R27). -/
def huffDatum (e : HuffCode) : Word := (0 : BitVec 11) ++ BitVec.ofNat 5 e.si.val ++ e.co

/-- The datum of a `NUM` entry (10_state.md R27). -/
def numDatum (s : State) (v : NumValue) : Response := .num v (v.bits s.params.fmt)

/-- What `RD` returns for each selector (10_state.md R27), or the fault it raises. -/
def readSelector (sel : Selector) (c i : Byte) (d : Word) (s : State) : Except Raise Response :=
  match sel with
  | .status => .ok (.data (statusWord s))
  | .finfo => .ok (.data s.finfo)
  | .dim => .ok (.data (s.h ++ s.w))
  | .mcucnt => .ok (.data s.mcucnt)
  | .acc => .ok (.data s.acc)
  | .cur => .ok (.data (s.cur.setWidth 32))
  | .outlen => .ok (.data (BitVec.ofNat 32 s.out.length))
  | .pred => .ok (.data (sext s.pred[component c]))
  | .outb =>
    match s.out[d.toNat]? with
    | some b => .ok (.data (b.setWidth 32))
    | none => .error ⟨.illcmd, (Instr.rd sel c i d).upper⟩
  | .samp => readEntry sel c i s.samp[component c][index64 i] (numDatum s)
  | .coef => readEntry sel c i s.coef[component c][index64 i] (numDatum s)
  | .zz => readEntry sel c i s.zz[component c][index64 i] fun x => .data (sext x)
  | .qtab => readEntry sel c i s.qtab[classOf c][index64 i] fun x => .data (x.setWidth 32)
  | .fscale => readEntry sel c i s.fscale[classOf c][index64 i] (numDatum s)
  | .ehuf => readEntry sel c i s.ehuf[tableOf c][index256 i] fun e => .data (huffDatum e)
  | .hbits => .ok (.data (s.hspec[tableOf c].bits[Fin.ofNat 16 i.toNat].setWidth 32))
  | .hval => .ok (.data (s.hspec[tableOf c].vals[index256 i].setWidth 32))

/-- `RD`'s effect (R176): the response only, or a fault. -/
def runRead (sel : Selector) (c i : Byte) (d : Word) (s : State) : Out :=
  match readSelector sel c i d s with
  | .ok r => .next (respond r s)
  | .error f => takeFault f s

/-- `RD sel, c, i, d` (R176). -/
def execRd (sel : Selector) (c i : Byte) (d : Word) (s : State) : Out :=
  issue (.rd sel c i d) s (runRead sel c i d)

end Sys2Proof.Machine
end

