-- ==== Sys2Proof/Machine/Frontend.lean ====
section
/-! DEFINITION. The front end (47_frontend.md): the image declaration `IMG`, and `TILE` with its edge replication and
colour transform. -/

namespace Sys2Proof.Machine

/-- `IMG`'s effect (R190): a zero dimension is `F_PRECOND` with `{h, w}`. -/
def declareImage (w h : Half) : Stage := fun s =>
  if w = 0 ∨ h = 0 then raiseIn ⟨.precond, h ++ w⟩ s else .ok { s with w := w, h := h, imgvalid := true }

/-- `IMG w, h` (R190). -/
def execImg (w h : Half) (s : State) : Out := issue (.img w h) s fun s => finish (declareImage w h s)

/-- The number of tiles that cover `n` pixels, `ceil(n/8)` (R191). -/
def tilesAcross (n : Half) : Nat := (n.toNat + 7) / 8

/-- A pixel coordinate: `min(8*m + k, n - 1)`, clamped to the last valid row or column (R193). -/
def clampPixel (m : Half) (k : Nat) (n : Half) : Nat := min (8 * m.toNat + k) (n.toNat - 1)

/-- The address of the `R` byte of tile entry `j*8 + i` (R193, 20_memory.md R40). -/
def pixelAddress (s : State) (mx my : Half) (k : Nat) : Nat :=
  (clampPixel my (k / 8) s.h * s.w.toNat + clampPixel mx (k % 8) s.w) * 3

/-- One pixel, its three bytes `R`, `G`, `B`. -/
structure Pixel where
  r : Byte
  g : Byte
  b : Byte
  deriving DecidableEq, Repr, Inhabited

/-- The pixel at an address, by three reads (R193). -/
def readPixel (s : State) (a : Nat) : Except Fault Pixel :=
  (memRead s a).bind fun r => (memRead s (a + 1)).bind fun g => (memRead s (a + 2)).map fun b => ⟨r, g, b⟩

/-- The pixels of a list of tile entries. -/
def readPixels (s : State) (mx my : Half) : List Nat → Except Fault (List Pixel)
  | [] => .ok []
  | k :: rest =>
    (readPixel s (pixelAddress s mx my k)).bind fun p => (readPixels s mx my rest).map fun ps => p :: ps

/-- `(kr*R + kg*G + kb*B)/10000 + offset`, exactly. -/
def colour (kr kg kb offset : Int) (p : Pixel) : Alg :=
  Alg.norm (Alg.ofFrac (kr * p.r.toNat + kg * p.g.toNat + kb * p.b.toNat + offset * 10000) 10000)

/-- The colour transform (R193): `Y`, `Cb`, `Cr` of a pixel, with no rounding and no clamping, exactly (DEDUCED, log
entry 13; unsafe). -/
def colourOf (c : Fin 3) (p : Pixel) : Alg :=
  if c = 0 then colour 2990 5870 1140 (-128) p
  else if c = 1 then colour (-1687) (-3313) 5000 0 p
  else colour 5000 (-4187) (-813) 0 p

/-- The sample block of component `c` of a tile. -/
def sampleBlock (pixels : List Pixel) (c : Fin 3) : Block NumValue :=
  tabulate fun k => some (NumValue.real (colourOf c (pixels.getD k.val default)))

/-- `TILE`'s effect (R192, R193): `F_PRECOND` without an image, then `F_ILLCMD` outside the grid. -/
def runTile (mx my : Half) (s : State) : Out :=
  if s.imgvalid = false then takeFault ⟨.precond, 0⟩ s
  else if tilesAcross s.w ≤ mx.toNat ∨ tilesAcross s.h ≤ my.toNat then
    takeFault ⟨.illcmd, (Instr.tile mx my).upper⟩ s
  else
    match readPixels s mx my (List.range 64) with
    | .error f => .fault f
    | .ok pixels => answerOk { s with samp := tabulate (sampleBlock pixels) }

/-- `TILE mx, my` (R193). -/
def execTile (mx my : Half) (s : State) : Out := issue (.tile mx my) s (runTile mx my)

end Sys2Proof.Machine
end

