-- ==== Sys2Proof/Machine/Huffman.lean ====
section
/-! DEFINITION. The canonical Huffman table generator (43_huffman_builder.md): the construction `BUILD`, its checks and
the command `HBUILD`. -/

namespace Sys2Proof.Machine

/-- The counts `BITS[1..16]`. -/
def HuffSpec.counts (h : HuffSpec) : List Nat := h.bits.toList.map BitVec.toNat

/-- `n_t`, the number of symbols (R120). -/
def HuffSpec.total (h : HuffSpec) : Nat := h.counts.sum

/-- Step 1 of R122 without its zero sentinel: each length `l`, from `from` on, `BITS[l]` times. -/
def sizeList : Nat → List Nat → List Nat
  | _, [] => []
  | l, n :: rest => List.replicate n l ++ sizeList (l + 1) rest

/-- Step 2 of R122 over the length list: `code` is the next code at length `si`; a longer length shifts it; a code that
does not fit its length is `F_HUFFSPEC` kind 1 (R124 item 1), answered as its length. -/
def assignCodes : Nat → Nat → List Nat → Except Nat (List Nat)
  | _, _, [] => .ok []
  | code, si, l :: rest =>
    let code' := code <<< (l - si)
    if 2 ^ l ≤ code' then .error l
    else (assignCodes (code' + 1) l rest).map fun cs => code' :: cs

/-- One code on its way to its symbol: the symbol value, the length and the code. -/
structure Assigned where
  val : Byte
  size : Nat
  code : Nat
  deriving DecidableEq, Repr

/-- The codes beside their symbols, in specification order. -/
def assignments (vals : List Byte) (sizes codes : List Nat) : List Assigned :=
  (vals.zip (sizes.zip codes)).map fun x => ⟨x.1, x.2.1, x.2.2⟩

/-- The first symbol value that occurs earlier in the list too: `F_HUFFSPEC` kind 2 (R124 item 2). Bit `v` of `seen`
says that the value `v` has occurred. -/
def firstRepeat : Nat → List Byte → Option Byte
  | _, [] => none
  | seen, v :: rest => if seen.testBit v.toNat then some v else firstRepeat (seen ||| 1 <<< v.toNat) rest

/-- Step 3 of R122: `E[s]`, the code placed at symbol `s`, or `(0, 0)` where no symbol maps to it. -/
def entryFor (codes : List Assigned) (s : Byte) : HuffCode :=
  match codes.find? fun a => a.val == s with
  | some a => { si := Fin.ofNat 17 a.size, co := BitVec.ofNat 16 a.code }
  | none => { si := 0, co := 0 }

/-- `BUILD(spec)` for table `t` (R122), with the faults of R124. The values that count are the first `n` of `VAL`. -/
def build (t : Fin 4) (h : HuffSpec) : Except Raise (Vector HuffCode 256) :=
  let sizes := sizeList 1 h.counts
  let vals := h.vals.toList.take sizes.length
  match assignCodes 0 (sizes.headD 0) sizes with
  | .error si => .error ⟨.huffspec, infoBytes (byteOf t.val) 1 (byteOf si)⟩
  | .ok codes =>
    match firstRepeat 0 vals with
    | some v => .error ⟨.huffspec, infoBytes (byteOf t.val) 2 v⟩
    | none => .ok (tabulate fun s => entryFor (assignments vals sizes codes) (BitVec.ofNat 8 s.val))

/-- The overflow check of one table (R123): `F_HUFFOVF` with `t` in 23:16 and `min(n_t, 65535)` in 15:0. -/
def overflow (t : Fin 4) (h : HuffSpec) : Option Raise :=
  if 256 < h.total then
    some ⟨.huffovf, (0 : Byte) ++ byteOf t.val ++ BitVec.ofNat 16 (min h.total 65535)⟩
  else none

/-- The first table whose check fails, lowest `t` first (R123). -/
def firstOverflow (hs : Vector HuffSpec 4) : Option Raise :=
  (List.finRange 4).findSome? fun t => overflow t hs[t]

/-- A table as `EHUF` holds it: every entry written. -/
def written (e : Vector HuffCode 256) : Vector (Option HuffCode) 256 := e.map some

/-- `HBUILD`'s computation (R120): all overflow checks first, then the four tables in order. -/
def buildAll (hs : Vector HuffSpec 4) : Except Raise (Vector (Vector (Option HuffCode) 256) 4) :=
  match firstOverflow hs with
  | some r => .error r
  | none =>
    (build 0 hs[0]).bind fun e0 => (build 1 hs[1]).bind fun e1 => (build 2 hs[2]).bind fun e2 =>
      (build 3 hs[3]).map fun e3 => #v[written e0, written e1, written e2, written e3]

/-- The stage `HBUILD` (R120). -/
def hbuildStage : Stage := fun s =>
  match buildAll s.hspec with
  | .error r => raiseIn r s
  | .ok tabs => .ok { s with ehuf := tabs, hvalid := true }

/-- `HBUILD` (R120). -/
def execHbuild (s : State) : Out := issue .hbuild s fun s => finish (hbuildStage s)

end Sys2Proof.Machine
end

