-- ==== Sys2Proof/Machine/QuantTables.lean ====
section
/-! DEFINITION. The quantisation table provider (41_quant_tables.md): the divisor tables, the fused scale table and the
command `CFG`. -/

namespace Sys2Proof.Machine

/-- `QTAB[cls]`: the preset's natural entry `i` at zig-zag position `ZZMAP[i]` (R105). -/
def qtabOf (level : Half) (cl : Fin 2) : Block Byte := tabulate fun k => some (preset level cl (zzInv k))

/-- `1 / (8 * AANS[x] * AANS[y] * d)` at natural index `i = y*8 + x` (R104), the reference value (DEDUCED, log entry 13; unsafe). -/
def fusedScale (i : Fin 64) (d : Byte) : Alg :=
  Alg.inv (Alg.mulInt (8 * d.toNat) (Alg.mul (aans (i.val % 8)) (aans (i.val / 8))))

/-- `FSCALE[cls]`, natural order, with the divisor `QTAB[cls][ZZMAP[i]]` (R104). -/
def fscaleOf (level : Half) (cl : Fin 2) : Block NumValue :=
  tabulate fun i => some (NumValue.real (fusedScale i (preset level cl i)))

/-- `CFG`'s effect (R100): `FSCALE` is written under the fast strategy only. -/
def configure (level : Half) (strat : Strategy) (s : State) : State :=
  { s with
    level := level
    strat := strat
    qtab := tabulate (qtabOf level)
    fscale := if strat = .fast then tabulate (fscaleOf level) else s.fscale
    qvalid := true }

/-- `CFG level, strat` (R100). -/
def execCfg (level : Half) (strat : Strategy) (s : State) : Out :=
  issue (.cfg level strat) s fun s => answerOk (configure level strat s)

end Sys2Proof.Machine
end

