-- ==== Sys2Proof/Machine/Session.lean ====
section
/-! DEFINITION. Session control (46_session_commands.md section 2): `RESET`, `START`, `END`. -/

namespace Sys2Proof.Machine

/-- `RESET` (R170). -/
def execReset (s : State) : Out := issue .reset s fun s => answerOk (resetCore s)

/-- `START`'s effect (R171). -/
def openImage (s : State) : State :=
  { s with
    pred := Vector.replicate 3 0
    acc := 0
    cur := 0
    out := []
    nextc := 0
    mcucnt := 0
    phase := .image }

/-- `START` (R171). -/
def execStart (s : State) : Out := issue .start s fun s => answerOk (openImage s)

/-- `END`'s effect (R172): the last partial byte is padded with 1 bits (45_bit_packer.md R155) where `pad` is 1. -/
def closeImage (pad : Bool) (s : State) : State :=
  let s' := if pad then s.withPacker (pad1 s.packer) else s
  { s' with phase := .idle }

/-- `END pad` (R172). -/
def execEnd (pad : Bool) (s : State) : Out := issue (.endImage pad) s fun s => answerOk (closeImage pad s)

end Sys2Proof.Machine
end

