-- ==== Sys2Proof/Machine/Dispatch.lean ====
section
/-! DEFINITION. The dispatch: one arm per command, each one direct call of its meaning. -/

namespace Sys2Proof.Machine

def exec (i : Instr) (s : State) : Host.Outcome State Fault Refusal :=
  match i with
  | .reset => Sys2Proof.Machine.execReset s
  | .cfg level strat => Sys2Proof.Machine.execCfg level strat s
  | .hbuild => Sys2Proof.Machine.execHbuild s
  | .img w h => Sys2Proof.Machine.execImg w h s
  | .start => Sys2Proof.Machine.execStart s
  | .endImage pad => Sys2Proof.Machine.execEnd pad s
  | .rd sel c k d => Sys2Proof.Machine.execRd sel c k d s
  | .ld buf c k value => Sys2Proof.Machine.execLd buf c k value s
  | .tile mx my => Sys2Proof.Machine.execTile mx my s
  | .fdct c => Sys2Proof.Machine.execFdct c s
  | .qzz c => Sys2Proof.Machine.execQzz c s
  | .enc c => Sys2Proof.Machine.execEnc c s
  | .putbits n v => Sys2Proof.Machine.execPutbits n v s
  | .blk c => Sys2Proof.Machine.execBlk c s
  | .mcu => Sys2Proof.Machine.execMcu s

end Sys2Proof.Machine
end

