-- ==== Sys2Proof/Machine/Step.lean ====
section
/-! DEFINITION. One step: the host makes its next move, and the core answers it (00_scope.md R2). -/

namespace Sys2Proof.Machine

/-- One step. With no move left the core waits, unchanged (70_reset_and_hazards.md R232). A command word is decoded and
run to completion; a word that does not decode is illegal; the reset input resets the core without a response (log entries 8, 16). -/
def step (s : State) : Host.Outcome State Fault Refusal :=
  match nextMove s with
  | none => .next s
  | some (.command w, s') =>
    match decode w with
    | .ok i => exec i s'
    | .error _ => issueIllegal w s'
  | some (.resetInput, s') => .next (resetCore s')
  | some (.supplyImage cells, s') => supplyImage cells s'

/-- The machine whose host presents the given command word next: the word, its low `nbits` bits those of `w` and the
rest zero, in front of the moves still to come. -/
def State.withFetchWord (s : State) (nbits w : Nat) : State :=
  { s with port := .command (BitVec.ofNat 64 (w % 2 ^ nbits)) :: s.port }

end Sys2Proof.Machine
end

