-- ==== Sys2Proof/Machine/Assembler.lean ====
section
/-! DEFINITION. The host's assembler (30_encoding.md R65), its pseudo-instructions (R66) and the canonical session
(46_session_commands.md R180). The core never sees any of it: everything here ends in command words that the host puts on
the port. Text is a list of characters. -/

namespace Sys2Proof.Machine

/-! ### Pseudo-instructions and sessions, as lists of commands -/

/-- `TABLES level, strat` (R66). -/
def tablesPseudo (level : Half) (strat : Strategy) : List Instr := [.cfg level strat, .hbuild]

/-- `LDBLK buf, c, v0, ..., v63` (R66); `vals` are the fields `D` of the 64 loads. -/
def ldblkPseudo (buf : Buffer) (c : Byte) (vals : Vector Word 64) : List Instr :=
  (List.finRange 64).map fun i => .ld buf c (byteOf i.val) vals[i]

/-- The tile coordinates of an image in raster order, `(mx, my)`, `my` outer (47_frontend.md R191). -/
def rasterTiles (w h : Half) : List (Half × Half) :=
  (List.range (tilesAcross h)).flatMap fun my =>
    (List.range (tilesAcross w)).map fun mx => (BitVec.ofNat 16 mx, BitVec.ofNat 16 my)

/-- The tile loop of R66 and R180: `TILE mx, my ; MCU` for every tile. -/
def tileLoop (w h : Half) : List Instr := (rasterTiles w h).flatMap fun t => [.tile t.1 t.2, .mcu]

/-- `ENCODE w, h` (R66). -/
def encodePseudo (w h : Half) : List Instr := [.img w h, .start] ++ tileLoop w h ++ [.endImage false]

/-- DOC0's "Encode operation" as one session (R180). -/
def canonicalSession (level : Half) (strat : Strategy) (w h : Half) (pad : Bool) : List Instr :=
  [.reset, .cfg level strat, .hbuild, .img w h, .start] ++ tileLoop w h ++ [.endImage pad]

/-- The host's moves for a list of commands. -/
def programOf (is : List Instr) : List HostMove := is.map fun i => .command (encode i)

/-! ### Assembler text -/

/-- A number as R65 writes it: decimal, hexadecimal, or a decimal fraction `n / d`. -/
inductive Literal where
  | decimal (v : Int)
  | hexadecimal (v : Nat)
  | fraction (n : Int) (d : Nat)
  deriving DecidableEq, Repr

/-- The digits, upper and lower case, with their values. -/
def digitValues : List (Char × Nat) :=
  [('0', 0), ('1', 1), ('2', 2), ('3', 3), ('4', 4), ('5', 5), ('6', 6), ('7', 7), ('8', 8), ('9', 9),
   ('A', 10), ('B', 11), ('C', 12), ('D', 13), ('E', 14), ('F', 15),
   ('a', 10), ('b', 11), ('c', 12), ('d', 13), ('e', 14), ('f', 15)]

/-- The value of a digit in a base. -/
def digitValue (base : Nat) (ch : Char) : Option Nat :=
  match digitValues.find? fun p => p.1 == ch with
  | some p => if p.2 < base then some p.2 else none
  | none => none

/-- The natural number a string of digits continues. -/
def readDigits (base : Nat) : Nat → List Char → Option Nat
  | acc, [] => some acc
  | acc, ch :: rest =>
    match digitValue base ch with
    | some d => readDigits base (acc * base + d) rest
    | none => none

/-- A non-empty string of digits. -/
def readNatural (base : Nat) (cs : List Char) : Option Nat := if cs.isEmpty then none else readDigits base 0 cs

/-- A number without its sign, `sgn` being 1 or -1. -/
def readUnsigned (sgn : Int) (cs : List Char) : Option Literal :=
  let whole := cs.takeWhile fun ch => ch != '.'
  match cs.dropWhile fun ch => ch != '.' with
  | [] => (readNatural 10 whole).map fun n => .decimal (sgn * n)
  | _ :: frac =>
    if frac.isEmpty then none
    else (readNatural 10 (whole ++ frac)).map fun n => .fraction (sgn * n) (10 ^ frac.length)

/-- A number (R65). -/
def readLiteral (cs : List Char) : Option Literal :=
  match cs with
  | '0' :: 'x' :: rest => (readNatural 16 rest).map .hexadecimal
  | '-' :: rest => readUnsigned (-1) rest
  | _ => readUnsigned 1 cs

/-- Whether a character separates words. -/
def isBlank (ch : Char) : Bool := ch == ' ' || ch == '\t' || ch == '\r'

/-- The text without blanks at its ends. -/
def trimBlanks (cs : List Char) : List Char := ((cs.dropWhile isBlank).reverse.dropWhile isBlank).reverse

/-- The parts of a text between separators, with the part being read so far (reversed). -/
def splitAux (sep : Char) : List Char → List Char → List (List Char)
  | part, [] => [part.reverse]
  | part, ch :: rest => if ch == sep then part.reverse :: splitAux sep [] rest else splitAux sep (ch :: part) rest

/-- The parts of a text between separators. -/
def splitText (sep : Char) (cs : List Char) : List (List Char) := splitAux sep [] cs

/-- One operand `name=value`. -/
structure NamedOperand where
  name : List Char
  value : List Char
  deriving DecidableEq, Repr

def readOperand (cs : List Char) : Option NamedOperand :=
  match splitText '=' cs with
  | [n, v] => some ⟨trimBlanks n, trimBlanks v⟩
  | _ => none

/-- The operands of a line. -/
def readOperands (cs : List Char) : Option (List NamedOperand) :=
  if (trimBlanks cs).isEmpty then some [] else (splitText ',' cs).mapM readOperand

/-- The value of a named operand, if it was given. -/
def operandText (ops : List NamedOperand) (name : String) : Option (List Char) :=
  (ops.find? fun o => o.name == name.toList).map NamedOperand.value

/-- Only operands the command has, each at most once. -/
def operandsKnown (names : List String) (ops : List NamedOperand) : Bool :=
  (ops.all fun o => names.any fun n => n.toList == o.name) && decide (ops.map NamedOperand.name).Nodup

/-- A number that fits an unsigned field of `n` bits. -/
def literalField (n : Nat) (l : Literal) : Option (BitVec n) :=
  match l with
  | .decimal v => if 0 ≤ v ∧ v < (2 ^ n : Nat) then some (BitVec.ofInt n v) else none
  | .hexadecimal v => if v < 2 ^ n then some (BitVec.ofNat n v) else none
  | .fraction _ _ => none

/-- A numeric operand; an omitted one is zero (R65). -/
def numberOperand (n : Nat) (ops : List NamedOperand) (name : String) : Option (BitVec n) :=
  match operandText ops name with
  | none => some 0
  | some cs => (readLiteral cs).bind (literalField n)

/-- An operand that may also be one of the given names (R65). -/
def codedOperand (n : Nat) (codes : List (String × BitVec n)) (ops : List NamedOperand) (name : String) :
    Option (BitVec n) :=
  match operandText ops name with
  | none => some 0
  | some cs =>
    match codes.find? fun p => p.1.toList == cs with
    | some p => some p.2
    | none => (readLiteral cs).bind (literalField n)

def strategyNames : List (String × BitVec 1) := [("direct", 0), ("fast", 1)]

def bufferNames : List (String × Byte) := [("S", 0), ("C", 1), ("Z", 2)]

/-- The selector names of 10_state.md R27. -/
def selectorNames : List (String × Byte) :=
  [("STATUS", 0x00), ("FINFO", 0x01), ("DIM", 0x02), ("MCUCNT", 0x03), ("ACC", 0x04), ("CUR", 0x05), ("OUTLEN", 0x06),
   ("PRED", 0x07), ("OUTB", 0x08), ("SAMP", 0x10), ("COEF", 0x11), ("ZZ", 0x12), ("QTAB", 0x13), ("FSCALE", 0x14),
   ("EHUF", 0x15), ("HBITS", 0x16), ("HVAL", 0x17)]

/-- The field `D` of a loaded value (R62): a decimal number is encoded for its buffer (`NUM`, or 16-bit two's complement
for `Z`); a hexadecimal number is the field itself. -/
def loadField (fmt : NumFormat) (buf : Byte) (l : Literal) : Option Word :=
  match l with
  | .hexadecimal v => literalField 32 (.hexadecimal v)
  | .decimal v =>
    if buf = 2 then (if -32768 ≤ v ∧ v ≤ 32767 then some ((BitVec.ofInt 16 v).setWidth 32) else none)
    else some ((NumValue.real (Alg.ofInt v)).bits fmt)
  | .fraction n d => if buf = 2 then none else some ((NumValue.real (Alg.norm (Alg.ofFrac n d))).bits fmt)

/-- The operand that names a loaded value. -/
def loadOperand (fmt : NumFormat) (buf : Byte) (ops : List NamedOperand) (name : String) : Option Word :=
  match operandText ops name with
  | none => loadField fmt buf (.decimal 0)
  | some cs => (readLiteral cs).bind (loadField fmt buf)

/-- The names `v0` .. `v63` of `LDBLK`. -/
def blockNames : List String := (List.range 64).map fun i => "v" ++ toString i

/-- The words of a line once its mnemonic and its operands have been read (R61, R65, R66). -/
def assembleCommand (fmt : NumFormat) (mnemonic : String) (ops : List NamedOperand) : Option (List CommandWord) :=
  let known := fun names => operandsKnown names ops
  let byte := numberOperand 8 ops
  let half := numberOperand 16 ops
  let strat := codedOperand 1 strategyNames ops "strat"
  let plain := fun (opc : Byte) => if known [] then some [packWord opc 0 0 0 0] else none
  let onComponent := fun (opc : Byte) =>
    if known ["c"] then (byte "c").map fun c => [packWord opc 0 c 0 0] else none
  let onPair := fun (opc : Byte) (lo hi : String) =>
    if known [lo, hi] then (half lo).bind fun l => (half hi).map fun h => [packWord opc 0 0 0 (h ++ l)] else none
  let words := fun (is : List Instr) => is.map encode
  match mnemonic with
  | "RESET" => plain 0x00
  | "CFG" =>
    if known ["level", "strat"] then
      (half "level").bind fun l => strat.map fun b => [packWord 0x01 (bitField b) 0 0 (l.setWidth 32)]
    else none
  | "HBUILD" => plain 0x02
  | "IMG" => onPair 0x03 "w" "h"
  | "START" => plain 0x04
  | "END" =>
    if known ["pad"] then (numberOperand 1 ops "pad").map fun b => [packWord 0x05 (bitField b) 0 0 0] else none
  | "RD" =>
    if known ["sel", "c", "i", "d"] then
      (codedOperand 8 selectorNames ops "sel").bind fun sel => (byte "c").bind fun c => (byte "i").bind fun i =>
        (numberOperand 32 ops "d").map fun d => [packWord 0x06 sel c i d]
    else none
  | "LD" =>
    if known ["buf", "c", "i", "value"] then
      (codedOperand 8 bufferNames ops "buf").bind fun buf => (byte "c").bind fun c => (byte "i").bind fun i =>
        (loadOperand fmt buf ops "value").map fun d => [packWord 0x07 buf c i d]
    else none
  | "TILE" => onPair 0x08 "mx" "my"
  | "FDCT" => onComponent 0x10
  | "QZZ" => onComponent 0x11
  | "ENC" => onComponent 0x12
  | "PUTBITS" =>
    if known ["n", "v"] then
      (byte "n").bind fun n => (half "v").map fun v => [packWord 0x13 n 0 0 (v.setWidth 32)]
    else none
  | "BLK" => onComponent 0x14
  | "MCU" => plain 0x15
  | "TABLES" =>
    if known ["level", "strat"] then
      (half "level").bind fun l => strat.map fun b => words (tablesPseudo l (Strategy.ofBit (b == 1)))
    else none
  | "LDBLK" =>
    if known ("buf" :: "c" :: blockNames) then
      (codedOperand 8 bufferNames ops "buf").bind fun buf => (byte "c").bind fun c => (Buffer.ofCode buf).bind fun b =>
        (blockNames.mapM (loadOperand fmt buf ops)).map fun vs => words (ldblkPseudo b c (tableOfList 64 0 vs))
    else none
  | "FLUSH1" => if known [] then some [] else none
  | "ENCODE" =>
    if known ["w", "h"] then (half "w").bind fun w => (half "h").map fun h => words (encodePseudo w h) else none
  | _ => none

/-- One line: a comment runs from `;` to its end, and a line with nothing else gives no word (R65). -/
def assembleLine (fmt : NumFormat) (line : List Char) : Option (List CommandWord) :=
  let text := trimBlanks (line.takeWhile fun ch => ch != ';')
  if text.isEmpty then some []
  else
    (readOperands (text.dropWhile fun ch => !isBlank ch)).bind
      (assembleCommand fmt (String.ofList (text.takeWhile fun ch => !isBlank ch)))

/-- The command words of a text, line by line; `none` where a line is no command. -/
def assemble (fmt : NumFormat) (text : List Char) : Option (List CommandWord) :=
  ((splitText '\n' text).mapM (assembleLine fmt)).map List.flatten

end Sys2Proof.Machine
end

