-- ==== Sys2Proof/Safety.lean ====
section
/-! DEFINITION. What counts as a safe state and a safe run, in the terms the claims use: the phase table as conditions
(46_session_commands.md R160), what fault entry leaves (60_exceptions.md R203), the invariants of the state, and the
notions of a run (46_session_commands.md R181). -/

namespace Sys2Proof.Machine

/-- The condition of a command's row in the phase table (46_session_commands.md R160). -/
def AcceptedByTable : Instr → State → Prop
  | .reset, _ => True
  | .rd sel _ _ _, s => s.phase ≠ .faulted ∨ (s.phase = .faulted ∧ (sel = .status ∨ sel = .finfo))
  | .cfg _ _, s => s.phase = .idle ∧ s.qvalid = false
  | .hbuild, s => s.phase = .idle ∧ s.hvalid = false
  | .img _ _, s => s.phase = .idle
  | .ld _ _ _ _, s => s.phase ≠ .faulted
  | .tile _ _, s => s.phase ≠ .faulted
  | .fdct _, s => s.phase ≠ .faulted ∧ s.qvalid = true
  | .qzz _, s => s.phase ≠ .faulted ∧ s.qvalid = true
  | .start, s => s.phase = .idle ∧ s.qvalid = true ∧ s.hvalid = true
  | .enc c, s => s.phase = .image ∧ c.toNat = s.nextc.val
  | .putbits _ _, s => s.phase = .image
  | .blk c, s => s.phase = .image ∧ c.toNat = s.nextc.val
  | .mcu, s => s.phase = .image ∧ s.nextc = 0
  | .endImage _, s => s.phase = .image ∧ s.nextc = 0

/-- The state after fault entry with a code and an information word, nothing else written (60_exceptions.md R203). -/
def faultEntry (s : State) (code : FaultCode) (info : Word) : State :=
  { s with fault := code, finfo := info, phase := .faulted, responses := .fault :: s.responses }

/-- The state after the core has answered `OK` and written nothing. -/
def answered (s : State) : State := { s with responses := .ok :: s.responses }

/-- The phase a command leaves when it is accepted and does not fault: the third column of the phase table
(46_session_commands.md R160). -/
def phaseAfter : Instr → Phase → Phase
  | .reset, _ => .idle
  | .start, _ => .image
  | .endImage _, _ => .idle
  | .rd _ _ _ _, p | .cfg _ _, p | .hbuild, p | .img _ _, p | .ld _ _ _ _, p | .tile _ _, p | .fdct _, p | .qzz _, p
  | .enc _, p | .putbits _ _, p | .blk _, p | .mcu, p => p

/-- Every entry of a block has been written. -/
def allWritten {α : Type} {n : Nat} (b : Vector (Option α) n) : Prop := ∀ i : Fin n, b[i] ≠ none

/-- The values of 10_state.md R30, piece by piece; `HSPEC` is not among them. -/
def CoreReset (t : State) : Prop :=
  t.phase = .idle ∧ t.nextc = 0 ∧ t.mcucnt = 0 ∧ t.qvalid = false ∧ t.hvalid = false ∧ t.imgvalid = false ∧
  t.fault = .none ∧ t.finfo = 0 ∧ t.level = 0 ∧ t.strat = .direct ∧ t.w = 0 ∧ t.h = 0 ∧
  (∀ c : Fin 3, t.pred[c] = 0) ∧ t.acc = 0 ∧ t.cur = 0 ∧ t.out = [] ∧
  (∀ c : Fin 3, ∀ i : Fin 64, t.samp[c][i] = none ∧ t.coef[c][i] = none ∧ t.zz[c][i] = none) ∧
  (∀ cl : Fin 2, ∀ i : Fin 64, t.qtab[cl][i] = none ∧ t.fscale[cl][i] = none) ∧
  (∀ tb : Fin 4, ∀ k : Fin 256, t.ehuf[tb][k] = none)

/-! ### Who writes what (10_state.md R10) -/

/-- The pieces of state, as the rows of R10 group them. -/
inductive Piece where
  | samp | coef | zz | level | strat | dimensions | qtab | fscale | hspec | ehuf | pred | accumulator | out | phase | nextc
  | mcucnt | qvalid | hvalid | imgvalid | faultRegisters
  deriving DecidableEq, Repr

/-- The mnemonic of a command (30_encoding.md R61). -/
def mnemonic : Instr → String
  | .reset => "RESET"
  | .cfg _ _ => "CFG"
  | .hbuild => "HBUILD"
  | .img _ _ => "IMG"
  | .start => "START"
  | .endImage _ => "END"
  | .rd _ _ _ _ => "RD"
  | .ld _ _ _ _ => "LD"
  | .tile _ _ => "TILE"
  | .fdct _ => "FDCT"
  | .qzz _ => "QZZ"
  | .enc _ => "ENC"
  | .putbits _ _ => "PUTBITS"
  | .blk _ => "BLK"
  | .mcu => "MCU"

/-- The column "written by" of R10, with every command that runs a writer as one of its stages: `BLK` and `MCU` run `FDCT`,
`QZZ` and `ENC` (46_session_commands.md R173, R174), and `ENC`, `BLK`, `MCU`, `END` call the packer. Fault entry and reset
stand apart. -/
def Piece.writers : Piece → List String
  | .samp => ["LD", "TILE"]
  | .coef => ["LD", "FDCT", "BLK", "MCU"]
  | .zz => ["LD", "QZZ", "BLK", "MCU"]
  | .level | .strat | .qtab | .fscale | .qvalid => ["CFG"]
  | .dimensions | .imgvalid => ["IMG"]
  | .hspec => []
  | .ehuf | .hvalid => ["HBUILD"]
  | .pred => ["START", "ENC", "BLK", "MCU"]
  | .accumulator | .out => ["START", "PUTBITS", "ENC", "BLK", "MCU", "END"]
  | .phase => ["START", "END"]
  | .nextc | .mcucnt => ["START", "ENC", "BLK", "MCU"]
  | .faultRegisters => []

/-- Two states agree on a piece. -/
def Piece.same (p : Piece) (s t : State) : Prop :=
  match p with
  | .samp => t.samp = s.samp
  | .coef => t.coef = s.coef
  | .zz => t.zz = s.zz
  | .level => t.level = s.level
  | .strat => t.strat = s.strat
  | .dimensions => t.w = s.w ∧ t.h = s.h
  | .qtab => t.qtab = s.qtab
  | .fscale => t.fscale = s.fscale
  | .hspec => t.hspec = s.hspec
  | .ehuf => t.ehuf = s.ehuf
  | .pred => t.pred = s.pred
  | .accumulator => t.acc = s.acc ∧ t.cur = s.cur
  | .out => t.out = s.out
  | .phase => t.phase = s.phase
  | .nextc => t.nextc = s.nextc
  | .mcucnt => t.mcucnt = s.mcucnt
  | .qvalid => t.qvalid = s.qvalid
  | .hvalid => t.hvalid = s.hvalid
  | .imgvalid => t.imgvalid = s.imgvalid
  | .faultRegisters => t.fault = s.fault ∧ t.finfo = s.finfo

/-- A step took a fault. -/
def TookFault (s t : State) : Prop :=
  s.phase ≠ .faulted ∧ t.phase = .faulted ∧ t.responses = .fault :: s.responses

/-! ### Invariants -/

/-- The image space is in canonical form. -/
def MemoryCanonical (s : State) : Prop := s.img.wf = true

/-- `OUT` is stuffed: every `0xFF` is followed by a `0x00` (45_bit_packer.md R152). -/
def wellStuffed : List Byte → Bool
  | [] => true
  | [b] => b != 0xFF
  | b :: x :: rest => if b = 0xFF then x == 0 && wellStuffed rest else wellStuffed (x :: rest)

/-- The packer's invariants (45_bit_packer.md R153 items 1, 2, 4): fewer than 8 bits are pending and no bit below them
is set; and `OUT` is stuffed (R152). -/
def PackerOk (p : Packer) : Prop :=
  p.cur.toNat ≤ 7 ∧ p.acc.toNat % 2 ^ (32 - p.cur.toNat) = 0 ∧ wellStuffed p.out = true

/-- The packer's invariants hold outside `FAULTED` (in `FAULTED` its contents may be unspecified, R203). -/
def PackerInv (s : State) : Prop := s.phase ≠ .faulted → PackerOk s.packer

/-- The divisor tables are whole once `QVALID` is set, with no zero divisor (41_quant_tables.md R100, R103), and the fused
table too under the fast strategy (R104). -/
def QuantInv (s : State) : Prop :=
  s.qvalid = true →
    (∀ cl : Fin 2, ∀ k : Fin 64, ∃ d : Byte, s.qtab[cl][k] = some d ∧ d ≠ 0) ∧
    (s.strat = .fast → ∀ cl : Fin 2, allWritten s.fscale[cl])

/-- The extended Huffman tables are whole once `HVALID` is set, each code below `2^SI` (43_huffman_builder.md R120, R125). -/
def HuffInv (s : State) : Prop :=
  s.hvalid = true → ∀ t : Fin 4, ∀ k : Fin 256, ∃ e : HuffCode, s.ehuf[t][k] = some e ∧ e.co.toNat < 2 ^ e.si.val

/-- The sequencing state: `IMAGE` only with both tables valid, a valid image has no zero dimension, and `FAULTED` is
exactly a fault code (10_state.md R22 to R25). -/
def SequenceInv (s : State) : Prop :=
  (s.phase = .image → s.qvalid = true ∧ s.hvalid = true) ∧
  (s.imgvalid = true → s.w ≠ 0 ∧ s.h ≠ 0) ∧
  (s.phase = .faulted ↔ s.fault ≠ .none)

/-! ### Runs -/

/-- The run has ended: the core has answered the last word of the program (46_session_commands.md R181). -/
def RunEnded (s : State) : Prop := s.port = []

/-- Some response of the run was `FAULT`, even if a later reset cleared `FAULT` (R181). -/
def RunFaulted (s : State) : Prop := Response.fault ∈ s.responses

/-- A final run (R181). -/
def RunFinal (s : State) : Prop := RunEnded s ∧ ¬ RunFaulted s

end Sys2Proof.Machine
end

