-- ==== Sys2Proof/Reference.lean ====
section
/-! DEFINITION. The spec's reference notions, in the terms the claims use and apart from the machine's own functions: real
numbers (00_scope.md R7, 40_dct.md R91, R93), the entropy-coded bit stream and its items (30_encoding.md R70 to R77) and the
canonical code of a specification (43_huffman_builder.md R125). Not part of the machine. -/

namespace Sys2Proof

/-- The real number an `Alg` stands for. -/
noncomputable def Alg.toReal (x : Alg) : ℝ :=
  (x.n0 + x.n1 * Real.cos (1 * Real.pi / 16) + x.n2 * Real.cos (2 * Real.pi / 16) + x.n3 * Real.cos (3 * Real.pi / 16)
    + x.n4 * Real.cos (4 * Real.pi / 16) + x.n5 * Real.cos (5 * Real.pi / 16) + x.n6 * Real.cos (6 * Real.pi / 16)
    + x.n7 * Real.cos (7 * Real.pi / 16)) / x.den

/-- `AANS[k]` (40_dct.md R93). -/
noncomputable def aansReal (k : Nat) : ℝ := if k = 0 then 1 else Real.sqrt 2 * Real.cos (k * Real.pi / 16)

/-- `N(u,v)` (40_dct.md R91). -/
noncomputable def dctNorm (u v : Nat) : ℝ :=
  if u = 0 ∧ v = 0 then 1 / 2 else if u = 0 ∨ v = 0 then 1 / Real.sqrt 2 else 1

/-- `DCT2(s)[v*8+u]` as R91 prints it, `s` in natural order. -/
noncomputable def dctReal (s : Nat → ℝ) (u v : Nat) : ℝ :=
  0.25 * dctNorm u v *
    ∑ y ∈ Finset.range 8, ∑ x ∈ Finset.range 8,
      s (y * 8 + x) * Real.cos ((2 * x + 1) * u * Real.pi / 16) * Real.cos ((2 * y + 1) * v * Real.pi / 16)

/-- The direct path's rounding (42_quantizer_zigzag.md R112). -/
noncomputable def roundAway (q : ℝ) : Int := if 0 ≤ q then ⌊q + 0.5⌋ else ⌈q - 0.5⌉

/-- The fast path's rounding inside the biased range (42_quantizer_zigzag.md R113). -/
noncomputable def roundBiased (q : ℝ) : Int := ⌊q + 16384 + 0.5⌋ - 16384

/-- The rounding of a strategy's path. -/
noncomputable def roundBy (strat : Strategy) (q : ℝ) : Int :=
  match strat with
  | .direct => roundAway q
  | .fast => roundBiased q

/-- The quotient has a quantised value (42_quantizer_zigzag.md R114): it is not below the biased range on the fast path,
and it rounds to a 16-bit integer. -/
def QuotientOk (strat : Strategy) (q : ℝ) : Prop :=
  (strat = .fast → 0 ≤ q + 16384 + 0.5) ∧ -32768 ≤ roundBy strat q ∧ roundBy strat q ≤ 32767

/-- The zig-zag position of row `y`, column `x`, from the walk of 42_quantizer_zigzag.md R110: the cells of the
anti-diagonals before `x + y`, then the cells of this one met before, from the bottom left on an even anti-diagonal and from
the top right on an odd one. -/
def zigzagWalk (x y : Nat) : Nat :=
  let s := x + y
  let before := if s ≤ 8 then s * (s + 1) / 2 else 64 - (15 - s) * (16 - s) / 2
  let low := s - 7
  let high := min s 7
  before + (if s % 2 = 0 then high - y else y - low)

/-! ### The opcode table -/

/-- One row of the opcode table: the words of a command are those that agree with `bits` under `mask`. -/
structure TableRow where
  bits : CommandWord
  mask : CommandWord
  deriving DecidableEq, Repr

/-- The opcode table (30_encoding.md R61 and the operand placement of R62): a bit of the mask is set where R61 and R62 fix
the bit, the opcode's own bits and every bit no operand uses. -/
def opcodeTable : List TableRow :=
  [⟨0x0000000000000000, 0xFFFFFFFFFFFFFFFF⟩, ⟨0x0100000000000000, 0xFFFEFFFFFFFF0000⟩,
   ⟨0x0200000000000000, 0xFFFFFFFFFFFFFFFF⟩, ⟨0x0300000000000000, 0xFFFFFFFF00000000⟩,
   ⟨0x0400000000000000, 0xFFFFFFFFFFFFFFFF⟩, ⟨0x0500000000000000, 0xFFFEFFFFFFFFFFFF⟩,
   ⟨0x0600000000000000, 0xFF00000000000000⟩, ⟨0x0700000000000000, 0xFF00000000000000⟩,
   ⟨0x0800000000000000, 0xFFFFFFFF00000000⟩, ⟨0x1000000000000000, 0xFFFF00FFFFFFFFFF⟩,
   ⟨0x1100000000000000, 0xFFFF00FFFFFFFFFF⟩, ⟨0x1200000000000000, 0xFFFF00FFFFFFFFFF⟩,
   ⟨0x1300000000000000, 0xFF00FFFFFFFF0000⟩, ⟨0x1400000000000000, 0xFFFF00FFFFFFFFFF⟩,
   ⟨0x1500000000000000, 0xFFFFFFFFFFFFFFFF⟩]

/-- The operand ranges of the rows of 10_state.md R27, for a word whose opcode is `RD`. -/
def ReadOperandsOk (a c i d : Nat) : Prop :=
  (a ≤ 0x06 ∧ c = 0 ∧ i = 0 ∧ d = 0) ∨ (a = 0x07 ∧ c < 3 ∧ i = 0 ∧ d = 0) ∨ (a = 0x08 ∧ c = 0 ∧ i = 0) ∨
  ((a = 0x10 ∨ a = 0x11 ∨ a = 0x12) ∧ c < 3 ∧ i < 64 ∧ d = 0) ∨ ((a = 0x13 ∨ a = 0x14) ∧ c < 2 ∧ i < 64 ∧ d = 0) ∨
  ((a = 0x15 ∨ a = 0x17) ∧ c < 4 ∧ d = 0) ∨ (a = 0x16 ∧ c < 4 ∧ i < 16 ∧ d = 0)

/-- The operand ranges of 30_encoding.md R62, by opcode. -/
def RangesOk (opc a c i d : Nat) : Prop :=
  ((opc = 0x10 ∨ opc = 0x11 ∨ opc = 0x12 ∨ opc = 0x14) → c < 3) ∧
  (opc = 0x13 → a ≤ 16) ∧
  (opc = 0x07 → a ≤ 2 ∧ c < 3 ∧ i < 64 ∧ (a = 2 → d < 2 ^ 16)) ∧
  (opc = 0x06 → ReadOperandsOk a c i d)

/-- A word with none of the static causes of `F_ILLCMD` (30_encoding.md R64, 60_exceptions.md R208). -/
def LegalWord (w : CommandWord) : Prop :=
  (∃ row ∈ opcodeTable, w &&& row.mask = row.bits) ∧
  RangesOk (w.toNat / 2 ^ 56) (w.toNat / 2 ^ 48 % 256) (w.toNat / 2 ^ 40 % 256) (w.toNat / 2 ^ 32 % 256)
    (w.toNat % 2 ^ 32)

namespace Machine

/-! ### The contents of the real-valued buffers -/

/-- The entry is written and denotes the real number `r`. -/
def EntryIs (fmt : NumFormat) (e : Option NumValue) (r : ℝ) : Prop :=
  ∃ (v : NumValue) (x : Alg), e = some v ∧ v.value fmt = some x ∧ x.toReal = r

/-- The block is written and its entry at natural index `i` denotes the real number `f i`. -/
def BlockIs (fmt : NumFormat) (b : Block NumValue) (f : Nat → ℝ) : Prop := ∀ i : Fin 64, EntryIs fmt b[i] (f i.val)

/-- The table that a class's quotients use holds the divisors `d` (natural index): `QTAB` on the direct path
(42_quantizer_zigzag.md R112), their fused scale `FSCALE` on the fast one (41_quant_tables.md R104). -/
def DivisorsAre (s : State) (cl : Fin 2) (d : Fin 64 → Byte) : Prop :=
  (∀ i, d i ≠ 0) ∧
  match s.strat with
  | .direct => ∀ i : Fin 64, s.qtab[cl][zzMap i] = some (d i)
  | .fast => ∀ i : Fin 64,
      EntryIs s.params.fmt s.fscale[cl][i] (1 / (8 * aansReal (i.val % 8) * aansReal (i.val / 8) * ((d i).toNat : ℝ)))

/-! ### The bit stream -/

/-- The low `n` bits of `v`, most significant first (20_memory.md R43). -/
def bitsOf (n v : Nat) : List Bool := (List.range n).map fun k => v.testBit (n - 1 - k)

/-- `OUT` with each byte that follows an `0xFF` removed (45_bit_packer.md R153 item 3). -/
def unstuff : List Byte → List Byte
  | [] => []
  | [b] => [b]
  | b :: x :: rest => if b = 0xFF then b :: unstuff rest else b :: unstuff (x :: rest)

/-- The stream emitted so far: the bits of the data bytes of `OUT`, then the pending bits (45_bit_packer.md R153). -/
def streamOf (p : Packer) : List Bool :=
  (unstuff p.out).flatMap (fun b => bitsOf 8 b.toNat) ++ bitsOf p.cur.toNat (p.acc.toNat >>> (32 - p.cur.toNat))

/-- One item of the stream: a symbol of a table with the raw bits that follow its code (30_encoding.md R71, R72); `pos` is
the zig-zag position it codes. -/
structure Item where
  table : Fin 4
  sym : Nat
  cat : Nat
  raw : Nat
  pos : Nat
  deriving DecidableEq, Repr

/-- The category of a value: the number of bits of its magnitude (30_encoding.md R75). -/
def category (v : Int) : Nat := v.natAbs.size

/-- The raw bits of a value: itself, or `v + 2^cat - 1` where it is negative (30_encoding.md R75). -/
def rawBits (v : Int) : Nat := (if v < 0 then v + 2 ^ category v - 1 else v).toNat

/-- The DC item of a difference (30_encoding.md R71). -/
def dcItem (c : Fin 3) (diff : Int) : Item := ⟨dcTable c, category diff, category diff, rawBits diff, 0⟩

/-- The positions 1..63 of the non-zero coefficients, in order. -/
def nonZero (z : List Int) : List Nat := (List.range' 1 63).filter fun k => z.getD k 0 ≠ 0

/-- The items of the coefficient at position `k` when `k0` is the position of the item before it: a ZRL for each full
sixteen zeros between them, then the coefficient (30_encoding.md R72, R74). -/
def coefficientItems (c : Fin 3) (z : List Int) (k0 k : Nat) : List Item :=
  let v := z.getD k 0
  let run := k - k0 - 1
  List.replicate (run / 16) ⟨acTable c, 0xF0, 0, 0, k⟩
    ++ [⟨acTable c, (run % 16) * 16 + category v, category v, rawBits v, k⟩]

/-- The AC items of a block: those of its non-zero coefficients, then EOB unless position 63 is one of them
(30_encoding.md R72, R73). -/
def acItems (c : Fin 3) (z : List Int) : List Item :=
  ((0 :: nonZero z).zip (nonZero z)).flatMap (fun p => coefficientItems c z p.1 p.2)
    ++ (if 63 ∈ nonZero z then [] else [⟨acTable c, 0x00, 0, 0, 63⟩])

/-- The items of the block `ZZ[c]`, whose 64 coefficients are `z`, against a predictor (30_encoding.md R70 to R74). -/
def blockItems (c : Fin 3) (z : List Int) (pred : Int) : List Item :=
  dcItem c (z.getD 0 0 - pred) :: acItems c z

/-- An AC coefficient that cannot be packed (44_entropy_coder.md R136). -/
def Item.tooLarge (it : Item) : Prop := it.table.val % 2 = 1 ∧ 15 < it.cat

/-- The item has a code and can be packed. -/
def Item.codable (tabs : HuffTables) (it : Item) : Prop :=
  ¬ it.tooLarge ∧ ∃ h : it.sym < 256, ∃ e : HuffCode, tabs[it.table][it.sym] = some e ∧ e.si ≠ 0

/-- The bits of an item: its symbol's code, then its raw bits (30_encoding.md R71, R72, R76). -/
def Item.bits (tabs : HuffTables) (it : Item) : List Bool :=
  match tabs[it.table][it.sym % 256]'(Nat.mod_lt _ (by decide)) with
  | some e => bitsOf e.si.val e.co.toNat ++ bitsOf it.cat it.raw
  | none => []

/-- The bits of a block's items in order. -/
def blockBits (tabs : HuffTables) (c : Fin 3) (z : List Int) (pred : Int) : List Bool :=
  (blockItems c z pred).flatMap (Item.bits tabs)

/-- Component `c` of the state is ready to be coded whole: its samples denote `f`, its divisors are `d`, the reference
quotients round to the 16-bit values `z` (zig-zag order), and every item of that block has a code. -/
def BlockReady (s : State) (c : Fin 3) (f : Nat → ℝ) (d : Fin 64 → Byte) (z : Fin 64 → Half) : Prop :=
  BlockIs s.params.fmt s.samp[c] f ∧ DivisorsAre s (cls c) d ∧
  (∀ i : Fin 64, QuotientOk s.strat (dctReal f (i.val % 8) (i.val / 8) / ((d i).toNat : ℝ)) ∧
    (z (zzMap i)).toInt = roundBy s.strat (dctReal f (i.val % 8) (i.val / 8) / ((d i).toNat : ℝ))) ∧
  (∀ it ∈ blockItems c (List.ofFn fun k => (z k).toInt) s.pred[c].toInt, it.codable s.ehuf)

/-! ### The canonical code -/

/-- `BITS[l]`, `l` = 1..16. -/
def HuffSpec.count (h : HuffSpec) (l : Nat) : Nat := h.counts.getD (l - 1) 0

/-- The number of symbols of length below `l`. -/
def HuffSpec.before (h : HuffSpec) (l : Nat) : Nat := ∑ j ∈ Finset.range (l - 1), h.count (j + 1)

/-- The number of codes of length `l` that the symbols of length at most `l` use up. -/
def HuffSpec.used (h : HuffSpec) (l : Nat) : Nat := ∑ j ∈ Finset.range l, h.count (j + 1) * 2 ^ (l - (j + 1))

/-- The `k`-th value in specification order. -/
def HuffSpec.value (h : HuffSpec) (k : Nat) : Byte := h.vals.toList.getD k 0

/-- No more than 256 symbols (43_huffman_builder.md R123). -/
def HuffSpec.Fits (h : HuffSpec) : Prop := h.counts.sum ≤ 256

/-- The counts do not over-subscribe the code space (43_huffman_builder.md R124 item 1). -/
def HuffSpec.Kraft (h : HuffSpec) : Prop := ∀ l, 1 ≤ l → l ≤ 16 → h.used l ≤ 2 ^ l

/-- No value occurs twice among the first `n` (43_huffman_builder.md R124 item 2). -/
def HuffSpec.Distinct (h : HuffSpec) : Prop := ∀ j k, j < k → k < h.counts.sum → h.value j ≠ h.value k

end Machine

end Sys2Proof
end

