-- ==== Sys2Proof/Certificates/Slice0/Obligations.lean ====
section
/-! DEFINITION. The statements for the provers, in the order of OBLIGATIONS.json: encoding, sequencing and faults, reset and
session, tables, front end, data movement, transform, quantiser, entropy coder, packer, composite commands, invariants of
every step, frames. A command's component operand is written `byteOf c.val` with `c : Fin 3`, which is every legal one. -/

open Sys2Proof Sys2Proof.Machine

/-! ### Encoding -/

/-- 30_encoding.md R60, R61, R62: words written out from the encoding tables decode to the commands they stand for. -/
def Obligations.DecodeSampleWords : Prop :=
  decode 0x0000000000000000 = .ok .reset ∧
  decode 0x0101000000000003 = .ok (.cfg 3 .fast) ∧
  decode 0x0300000000100020 = .ok (.img 0x20 0x10) ∧
  decode 0x0501000000000000 = .ok (.endImage true) ∧
  decode 0x061501F000000000 = .ok (.rd .ehuf 1 0xF0 0) ∧
  decode 0x070200010000FFFD = .ok (.ld .zz 0 1 0xFFFD) ∧
  decode 0x1002000000000000 = .error .unusedBits ∧
  decode 0x1000020000000000 = .ok (.fdct 2) ∧
  decode 0x13080000000000FF = .ok (.putbits 8 0xFF)

/-- 30_encoding.md R60 to R62: no bit of a well-formed command is lost between its word and its decoding. -/
def Obligations.DecodeOfEncode : Prop := ∀ i : Instr, i.WellFormed → decode (encode i) = .ok i

/-- 30_encoding.md R60, R61, R62, R64, 10_state.md R27: the decoder accepts exactly the words that match a row of the
opcode table with operands in their ranges, and a word that decodes is the one word of the command it decodes to, whose
operands are legal. -/
def Obligations.DecodingIsExact : Prop :=
  (∀ w : CommandWord, (∃ i, decode w = .ok i) ↔ LegalWord w) ∧
  (∀ (w : CommandWord) (i : Instr), decode w = .ok i → encode i = w ∧ i.WellFormed)

/-- 60_exceptions.md R208: the static causes of `F_ILLCMD`, found in the word before the phase table is asked, then the
two causes that depend on state, each with `FINFO` the upper 32 bits of the word and nothing else written. -/
def Obligations.IllegalCommandsFault : Prop :=
  (∀ (s : State) (w : CommandWord) (rest : List HostMove), s.port = .command w :: rest → s.phase ≠ .faulted →
    ¬ LegalWord w → step s = .next (faultEntry { s with port := rest } .illcmd (w.extractLsb' 32 32))) ∧
  (∀ (i : Instr) (s : State), s.phase ≠ .faulted → ¬ i.WellFormed →
    exec i s = .next (faultEntry s .illcmd ((encode i).extractLsb' 32 32))) ∧
  (∀ (s : State) (d : Word), s.phase ≠ .faulted → s.out.length ≤ d.toNat →
    exec (.rd .outb 0 0 d) s = .next (faultEntry s .illcmd 0x06080000)) ∧
  (∀ (s : State) (mx my : Half), s.phase ≠ .faulted → s.imgvalid = true →
    (s.w.toNat ≤ 8 * mx.toNat ∨ s.h.toNat ≤ 8 * my.toNat) →
    exec (.tile mx my) s = .next (faultEntry s .illcmd 0x08000000))

/-! ### Steps, sequencing and faults -/

/-- 00_scope.md R2: the word the host presents is decoded and its command executed, with that word taken off the port. -/
def Obligations.StepRunsDecodedCommand : Prop :=
  ∀ (s : State) (w : CommandWord) (rest : List HostMove) (i : Instr), s.port = .command w :: rest →
    decode w = .ok i → step s = exec i { s with port := rest }

/-- 70_reset_and_hazards.md R232: with no word presented the core waits unchanged. 46_session_commands.md R182,
20_memory.md R40, R51: handing over an image replaces the bytes of the image space, later cells over earlier ones. That
an address with no byte reads 0 is the model's choice (log entry 7), and so are the stop on a change of the image during
`IMAGE`, which R182 says never happens (log entry 9), and that the reset input is taken off the port without a response
and spares the record and the launch parameters (log entry 16). -/
def Obligations.HostMoves : Prop :=
  (∀ s : State, s.port = [] → step s = .next s) ∧
  (∀ (s : State) (rest : List HostMove), s.port = .resetInput :: rest →
    ∃ t, step s = .next t ∧ t.port = rest ∧ t.responses = s.responses ∧ t.params = s.params) ∧
  (∀ (s : State) (cells : List Host.Cell) (rest : List HostMove), s.port = .supplyImage cells :: rest →
    (s.phase = .image → step s = .fault .imageMoved) ∧
    (s.phase ≠ .image → ∃ img : Memory, step s = .next { s with port := rest, img := img } ∧
      img.wf = true ∧
      (∀ (before after : List Host.Cell) (a : Nat) (x : Byte), cells = before ++ (a, x) :: after →
        (∀ c ∈ after, c.1 ≠ a) → Memory.read img a = x) ∧
      (∀ a : Nat, (∀ c ∈ cells, c.1 ≠ a) → Memory.read img a = 0)))

/-- 46_session_commands.md R160, 60_exceptions.md R210: the phase table. Outside `FAULTED` a command it refuses raises
`F_SEQ` with the upper 32 bits of its word and does nothing else; in `FAULTED` whatever is not accepted, illegal words
included, is answered `FAULT` and changes nothing; an accepted command that does not fault leaves the phase of the third
column; and `TILE` without an image is `F_PRECOND`. -/
def Obligations.PhaseTable : Prop :=
  ∀ (i : Instr) (s : State),
    (s.phase ≠ .faulted → i.WellFormed → ¬ AcceptedByTable i s →
      exec i s = .next (faultEntry s .seq ((encode i).extractLsb' 32 32))) ∧
    (s.phase = .faulted → ¬ (i.WellFormed ∧ AcceptedByTable i s) →
      exec i s = .next { s with responses := .fault :: s.responses }) ∧
    (∀ (w : CommandWord) (rest : List HostMove), s.phase = .faulted → s.port = .command w :: rest → ¬ LegalWord w →
      step s = .next { s with port := rest, responses := .fault :: s.responses }) ∧
    (∀ t : State, i.WellFormed → AcceptedByTable i s → exec i s = .next t → t.responses.head? ≠ some .fault →
      t.phase = phaseAfter i s.phase) ∧
    (∀ mx my : Half, s.phase ≠ .faulted → s.imgvalid = false →
      exec (.tile mx my) s = .next (faultEntry s .precond 0))

/-- 46_session_commands.md R161: the transitions of the phase machine, and no others, which the spec derives from R160. -/
def Obligations.PhaseTransitions : Prop :=
  (∀ (i : Instr) (s t : State), exec i s = .next t →
    t.phase = s.phase ∨
    (s.phase = .idle ∧ i = .start ∧ t.phase = .image) ∨
    (s.phase = .image ∧ (∃ pad, i = .endImage pad) ∧ t.phase = .idle) ∨
    TookFault s t ∨
    (i = .reset ∧ t.phase = .idle)) ∧
  (∀ (i : Instr) (s t : State), exec i s = .next t → s.phase ≠ .faulted →
    (t.responses.head? = some .fault ↔ t.phase = .faulted)) ∧
  (∀ s : State, ∃ t, exec .reset s = .next t ∧ t.phase = .idle) ∧
  (∀ s : State, s.phase = .idle → s.qvalid = true → s.hvalid = true →
    ∃ t, exec .start s = .next t ∧ t.phase = .image ∧ t.qtab = s.qtab ∧ t.fscale = s.fscale ∧ t.ehuf = s.ehuf) ∧
  (∀ (s : State) (pad : Bool), s.phase = .image → s.nextc = 0 →
    ∃ t, exec (.endImage pad) s = .next t ∧ t.phase = .idle ∧ t.qvalid = s.qvalid ∧ t.hvalid = s.hvalid ∧
      t.qtab = s.qtab ∧ t.fscale = s.fscale ∧ t.ehuf = s.ehuf)

/-- 60_exceptions.md R205: `FAULTED` accepts `RESET`, `RD STATUS` and `RD FINFO` and nothing else; any other word, legal
or not, is answered `FAULT` and writes no state; the reset input leaves it too. -/
def Obligations.FaultedAcceptsOnlyThreeWords : Prop :=
  ∀ (s : State) (rest : List HostMove), s.phase = .faulted →
    (∀ w : CommandWord, s.port = .command w :: rest →
      (w = 0x0000000000000000 → ∃ t, step s = .next t ∧ CoreReset t ∧ t.responses = .ok :: s.responses) ∧
      (w = 0x0600000000000000 →
        step s = .next { s with port := rest, responses := .data (statusWord s) :: s.responses }) ∧
      (w = 0x0601000000000000 → step s = .next { s with port := rest, responses := .data s.finfo :: s.responses }) ∧
      (w ≠ 0x0000000000000000 → w ≠ 0x0600000000000000 → w ≠ 0x0601000000000000 →
        step s = .next { s with port := rest, responses := .fault :: s.responses })) ∧
    (s.port = .resetInput :: rest → ∃ t, step s = .next t ∧ CoreReset t)

/-- 60_exceptions.md R203 items 1 to 3, R206: what a fault leaves. The configuration, the dimensions and the valid flags
are as before; a command other than `ENC`, `BLK` and `MCU` has written nothing but the fault registers and the phase;
`ENC` may besides have changed `OUT`, `ACC`, `CUR` and `PRED`, about whose values nothing is said. -/
def Obligations.FaultLeavesTheRest : Prop :=
  ∀ (i : Instr) (s t : State), s.phase ≠ .faulted → exec i s = .next t → t.phase = .faulted →
    t.responses = .fault :: s.responses ∧ t.fault ≠ .none ∧
    t.level = s.level ∧ t.strat = s.strat ∧ t.qvalid = s.qvalid ∧ t.hvalid = s.hvalid ∧ t.imgvalid = s.imgvalid ∧
    t.w = s.w ∧ t.h = s.h ∧
    (mnemonic i ∉ ["ENC", "BLK", "MCU"] →
      t = { faultEntry s t.fault t.finfo with draws := t.draws }) ∧
    (mnemonic i = "ENC" →
      t = { faultEntry s t.fault t.finfo with
        out := t.out, acc := t.acc, cur := t.cur, pred := t.pred, draws := t.draws })

/-- 30_encoding.md R63, 46_session_commands.md R162, 47_frontend.md R195: every command completes with exactly one
response and never reads outside the image space; only `RD` answers with a datum, and `FAULT` goes with phase `FAULTED`.
-/
def Obligations.EveryCommandAnswersOnce : Prop :=
  ∀ (i : Instr) (s : State), ∃ (t : State) (r : Response), exec i s = .next t ∧ t.responses = r :: s.responses ∧
    (r = .fault → t.phase = .faulted) ∧
    (mnemonic i ≠ "RD" → r = .ok ∨ r = .fault) ∧
    (mnemonic i = "RD" → r ≠ .ok)

/-- 46_session_commands.md R181, 60_exceptions.md R205: the run's record keeps every response, so a faulted run stays one,
whatever the host does next, a reset included. -/
def Obligations.RecordKeepsEveryFault : Prop :=
  ∀ s t : State, step s = .next t →
    (∃ more : List Response, more.length ≤ 1 ∧ t.responses = more ++ s.responses) ∧ (RunFaulted s → RunFaulted t)

/-! ### Reset and session -/

/-- 10_state.md R30, 43_huffman_builder.md R121: the state after reset, `HSPEC` with its counts and the values they
count. The values of the model's own fields (log entries 1, 2, 3, 7, 8) and of the unused value slots (log entry 6) are
no part of it. -/
def Obligations.ResetState : Prop :=
  CoreReset State.reset ∧ statusWord State.reset = 0 ∧
  ∀ t : Fin 4, State.reset.hspec[t].bits = standardHspec[t].bits ∧
    ∀ k : Nat, k < standardHspec[t].counts.sum → State.reset.hspec[t].value k = standardHspec[t].value k

/-- 70_reset_and_hazards.md R230, 46_session_commands.md R170: `RESET` and the reset input have the same effect, from any
state: the values of R30, `HSPEC` and the image untouched, and `RD STATUS` would return 0. -/
def Obligations.ResetCommandAndInput : Prop :=
  ∀ s : State,
    (∃ t, exec .reset s = .next t ∧ CoreReset t ∧ statusWord t = 0 ∧ t.hspec = s.hspec ∧ t.img = s.img ∧
      t.responses = .ok :: s.responses) ∧
    (∀ rest : List HostMove, s.port = .resetInput :: rest →
      ∃ t, step s = .next t ∧ CoreReset t ∧ statusWord t = 0 ∧ t.hspec = s.hspec ∧ t.img = s.img)

/-- 46_session_commands.md R171: `START`, and its refusal outside `IDLE` or before both tables are built. -/
def Obligations.StartOpensImage : Prop :=
  ∀ s : State,
    (s.phase = .idle → s.qvalid = true → s.hvalid = true →
      exec .start s = .next (answered { s with
        pred := #v[0, 0, 0], acc := 0, cur := 0, out := [], nextc := 0, mcucnt := 0, phase := .image })) ∧
    (s.phase ≠ .faulted → (s.phase ≠ .idle ∨ s.qvalid = false ∨ s.hvalid = false) →
      exec .start s = .next (faultEntry s .seq 0x04000000))

/-- 46_session_commands.md R172, 45_bit_packer.md R154, R155: `END pad=0` leaves the pending bits where they are; `END
pad=1` completes the last partial byte with 1 bits through the same stuffing, after which nothing is pending. -/
def Obligations.EndClosesImage : Prop :=
  ∀ s : State, s.phase = .image → s.nextc = 0 →
    exec (.endImage false) s = .next (answered { s with phase := .idle }) ∧
    (PackerOk s.packer → ∃ p : Packer,
      exec (.endImage true) s = .next (answered { s with acc := p.acc, cur := p.cur, out := p.out, phase := .idle }) ∧
      p.cur = 0 ∧ p.acc = 0 ∧ PackerOk p ∧ (s.cur = 0 → p.out = s.out) ∧ (∃ more, p.out = s.out ++ more) ∧
      streamOf p = streamOf s.packer ++ List.replicate ((8 - s.cur.toNat) % 8) true)

/-! ### The quantisation tables -/

/-- 41_quant_tables.md R101, R103: the presets by level, an unrecognised level falling back to unity, and no entry of any
preset zero, the open table of level 2 included. -/
def Obligations.PresetSelection : Prop :=
  preset 1 = unityN ∧ preset 2 = lightN ∧ preset 3 = stdN ∧
  (∀ level : Half, level ≠ 1 → level ≠ 2 → level ≠ 3 → preset level = unityN) ∧
  (∀ (level : Half) (cl : Fin 2) (i : Fin 64), 1 ≤ (preset level cl i).toNat ∧ (preset level cl i).toNat ≤ 255)

/-- 41_quant_tables.md R100, R104, R105: `CFG` records the level as written and the strategy, stores the preset's
natural entry `i` at zig-zag position `ZZMAP[i]`, and under the fast strategy alone the fused scale table of R104. That
its entries are exactly the reference values is the model's reading of "the error is part of `EPS_Q`" (log entry 13). -/
def Obligations.CfgLoadsTables : Prop :=
  ∀ (s : State) (level : Half) (strat : Strategy), s.phase = .idle → s.qvalid = false →
    ∃ (qtab : Vector (Block Byte) 2) (fscale : Vector (Block NumValue) 2),
      exec (.cfg level strat) s = .next (answered { s with
        level := level, strat := strat, qtab := qtab, fscale := fscale, qvalid := true }) ∧
      (∀ (cl : Fin 2) (i : Fin 64), qtab[cl][zzMap i] = some (preset level cl i)) ∧
      (strat = .direct → fscale = s.fscale) ∧
      (strat = .fast → ∀ (cl : Fin 2) (x y : Fin 8), ∃ v : Alg,
        fscale[cl][y.val * 8 + x.val]'(by omega) = some (.real v) ∧
        v.toReal = 1 / (8 * aansReal x.val * aansReal y.val *
          ((preset level cl ⟨y.val * 8 + x.val, by omega⟩).toNat : ℝ)))

/-- 41_quant_tables.md R106, 70_reset_and_hazards.md R247: the configuration and the tables are frozen until reset. -/
def Obligations.TablesFrozen : Prop :=
  ∀ (i : Instr) (s t : State), exec i s = .next t → i ≠ .reset →
    (s.qvalid = true → t.level = s.level ∧ t.strat = s.strat ∧ t.qtab = s.qtab ∧ t.fscale = s.fscale ∧
      t.qvalid = true) ∧
    (s.hvalid = true → t.ehuf = s.ehuf ∧ t.hvalid = true)

/-! ### The Huffman table generator -/

/-- 43_huffman_builder.md R120, R122, R125 items 1 and 2 (which the spec derives): for every well-formed contents of
`HSPEC`, `HBUILD` gives symbol number `m` of length `l` the length `l` and the `m`-th code from the first one free at
that length, and every other symbol the entry `(0, 0)`. -/
def Obligations.HbuildBuildsCanonicalCodes : Prop :=
  ∀ s : State, s.phase = .idle → s.hvalid = false →
    (∀ t : Fin 4, s.hspec[t].Fits ∧ s.hspec[t].Kraft ∧ s.hspec[t].Distinct) →
    ∃ ehuf : Vector (Vector (Option HuffCode) 256) 4,
      exec .hbuild s = .next (answered { s with ehuf := ehuf, hvalid := true }) ∧
      ∀ t : Fin 4,
        (∀ l m : Nat, 1 ≤ l → l ≤ 16 → m < s.hspec[t].count l →
          ∃ e : HuffCode, ehuf[t][(s.hspec[t].value (s.hspec[t].before l + m)).toNat] = some e ∧
            e.si.val = l ∧ e.co.toNat = 2 * s.hspec[t].used (l - 1) + m) ∧
        (∀ v : Byte, (∀ k : Nat, k < s.hspec[t].counts.sum → s.hspec[t].value k ≠ v) →
          ehuf[t][v.toNat] = some { si := 0, co := 0 })

/-- 43_huffman_builder.md R121, R120, R125 item 5: the standard specifications have 12, 162, 12 and 162 symbols, meet
every condition of R123 and R124, and their symbols are the categories 0..11, or `EOB`, `ZRL` and every run 0..15 with a
category 1..10; and from reset `HBUILD` gives the spot-check codes: luma DC category 0 `00`, luma AC `EOB` `1010` and
`ZRL` `11111111001`, chroma AC `EOB` `00`, no code for luma AC `0x0B`. -/
def Obligations.StandardTables : Prop :=
  (∀ t : Fin 4, standardHspec[t].Fits ∧ standardHspec[t].Kraft ∧ standardHspec[t].Distinct ∧
    standardHspec[t].counts.sum = if t.val % 2 = 0 then 12 else 162) ∧
  (∀ (t : Fin 4) (v : Byte), v ∈ standardHspec[t].vals.toList.take standardHspec[t].counts.sum ↔
    if t.val % 2 = 0 then v.toNat ≤ 11 else v = 0x00 ∨ v = 0xF0 ∨ (1 ≤ v.toNat % 16 ∧ v.toNat % 16 ≤ 10)) ∧
  (∃ t : State, exec .hbuild State.reset = .next t ∧ t.hvalid = true ∧
    t.ehuf[(0 : Fin 4)][(0 : Fin 256)] = some { si := 2, co := 0 } ∧
    t.ehuf[(1 : Fin 4)][(0 : Fin 256)] = some { si := 4, co := 10 } ∧
    t.ehuf[(1 : Fin 4)][(0xF0 : Fin 256)] = some { si := 11, co := 2041 } ∧
    t.ehuf[(3 : Fin 4)][(0 : Fin 256)] = some { si := 2, co := 0 } ∧
    t.ehuf[(1 : Fin 4)][(0x0B : Fin 256)] = some { si := 0, co := 0 })

/-- 43_huffman_builder.md R123, 60_exceptions.md R212: more than 256 symbols in some table is `F_HUFFOVF` for the lowest
such table, before anything is written. -/
def Obligations.HbuildOverflowFaults : Prop :=
  ∀ (s : State) (t : Fin 4), s.phase = .idle → s.hvalid = false → 256 < s.hspec[t].counts.sum →
    (∀ t' : Fin 4, t'.val < t.val → s.hspec[t'].Fits) →
    exec .hbuild s =
      .next (faultEntry s .huffovf (BitVec.ofNat 32 (t.val * 65536 + min s.hspec[t].counts.sum 65535)))

/-- 43_huffman_builder.md R124, 60_exceptions.md R204 item 5: when no table overflows, the lowest table that is not a
prefix code decides: kind 1 at the first length whose codes run out, else kind 2 at the first value that occurs before.
-/
def Obligations.HbuildUnsoundSpecFaults : Prop :=
  ∀ (s : State) (t : Fin 4), s.phase = .idle → s.hvalid = false → (∀ t' : Fin 4, s.hspec[t'].Fits) →
    (∀ t' : Fin 4, t'.val < t.val → s.hspec[t'].Kraft ∧ s.hspec[t'].Distinct) →
    (∀ l : Nat, 1 ≤ l → l ≤ 16 → 2 ^ l < s.hspec[t].used l →
      (∀ l' : Nat, 1 ≤ l' → l' < l → s.hspec[t].used l' ≤ 2 ^ l') →
      exec .hbuild s = .next (faultEntry s .huffspec (BitVec.ofNat 32 (t.val * 65536 + 256 + l)))) ∧
    (∀ k : Nat, s.hspec[t].Kraft → k < s.hspec[t].counts.sum → (∃ j, j < k ∧ s.hspec[t].value j = s.hspec[t].value k) →
      (∀ j' k' : Nat, j' < k' → k' < k → s.hspec[t].value j' ≠ s.hspec[t].value k') →
      exec .hbuild s =
        .next (faultEntry s .huffspec (BitVec.ofNat 32 (t.val * 65536 + 512 + (s.hspec[t].value k).toNat))))

/-- 43_huffman_builder.md R125 items 3 and 4, which the spec derives from R122 and R124: whatever `HSPEC` holds, if
`HBUILD` completes then no code of a table is a prefix of another, and every code is below two to its length. -/
def Obligations.HuffmanCodesPrefixFree : Prop :=
  ∀ s u : State, s.phase = .idle → s.hvalid = false → exec .hbuild s = .next u → u.hvalid = true →
    ∀ (t : Fin 4) (k k' : Fin 256) (e e' : HuffCode), u.ehuf[t][k] = some e → u.ehuf[t][k'] = some e' →
      e.co.toNat < 2 ^ e.si.val ∧
      (k ≠ k' → 1 ≤ e.si.val → e.si.val ≤ e'.si.val → e'.co.toNat / 2 ^ (e'.si.val - e.si.val) ≠ e.co.toNat)

/-! ### The front end -/

/-- 47_frontend.md R190, 60_exceptions.md R211: `IMG`, its precondition, and its refusal outside `IDLE`. -/
def Obligations.ImgDeclaresImage : Prop :=
  ∀ (s : State) (w h : Half),
    (s.phase = .idle → w ≠ 0 → h ≠ 0 →
      exec (.img w h) s = .next (answered { s with w := w, h := h, imgvalid := true })) ∧
    (s.phase = .idle → w = 0 ∨ h = 0 → exec (.img w h) s = .next (faultEntry s .precond (h ++ w))) ∧
    (s.phase = .image → exec (.img w h) s = .next (faultEntry s .seq 0x03000000))

/-- 47_frontend.md R192, R193: `TILE`, with its two faults in their order and its edge replication; that the
samples are exactly the reference values is the model's reading of "is counted inside `EPS_DCT`" (log entry 13). -/
def Obligations.TileFillsSamples : Prop :=
  ∀ (s : State) (mx my : Half), s.phase ≠ .faulted →
    (s.imgvalid = false → exec (.tile mx my) s = .next (faultEntry s .precond 0)) ∧
    (s.imgvalid = true → (s.w.toNat ≤ 8 * mx.toNat ∨ s.h.toNat ≤ 8 * my.toNat) →
      exec (.tile mx my) s = .next (faultEntry s .illcmd 0x08000000)) ∧
    (s.imgvalid = true → 8 * mx.toNat < s.w.toNat → 8 * my.toNat < s.h.toNat →
      ∃ samp : Vector (Block NumValue) 3,
        exec (.tile mx my) s = .next (answered { s with samp := samp }) ∧
        ∀ j i : Fin 8,
          let px := min (8 * mx.toNat + i.val) (s.w.toNat - 1)
          let py := min (8 * my.toNat + j.val) (s.h.toNat - 1)
          let a := (py * s.w.toNat + px) * 3
          let r : ℝ := (Memory.read s.img a).toNat
          let g : ℝ := (Memory.read s.img (a + 1)).toNat
          let b : ℝ := (Memory.read s.img (a + 2)).toNat
          ∃ y cb cr : Alg,
            samp[(0 : Fin 3)][j.val * 8 + i.val]'(by omega) = some (.real y) ∧
            samp[(1 : Fin 3)][j.val * 8 + i.val]'(by omega) = some (.real cb) ∧
            samp[(2 : Fin 3)][j.val * 8 + i.val]'(by omega) = some (.real cr) ∧
            y.toReal = 0.299 * r + 0.587 * g + 0.114 * b - 128 ∧
            cb.toReal = -0.1687 * r - 0.3313 * g + 0.5 * b ∧
            cr.toReal = 0.5 * r - 0.4187 * g - 0.0813 * b)

/-- 47_frontend.md R195, 20_memory.md R41: every address a tile of the grid forms lies in the image space, with the two
bytes that follow it; the spec derives it from R193. -/
def Obligations.TileStaysInsideImage : Prop :=
  ∀ (s : State) (mx my : Half) (k : Fin 64), 8 * mx.toNat < s.w.toNat → 8 * my.toNat < s.h.toNat →
    clampPixel mx (k.val % 8) s.w ≤ s.w.toNat - 1 ∧ clampPixel my (k.val / 8) s.h ≤ s.h.toNat - 1 ∧
    pixelAddress s mx my k.val + 2 ≤ s.w.toNat * s.h.toNat * 3 - 1 ∧
    (∃ p, readPixel s (pixelAddress s mx my k.val) = .ok p)

/-- 47_frontend.md R194, which the spec derives from R193: the ranges of the colour transform, the points that attain
them, and grey pixels. -/
def Obligations.ColourRanges : Prop :=
  (∀ p : Pixel, -128 ≤ (colourOf 0 p).toReal ∧ (colourOf 0 p).toReal ≤ 127 ∧
    -127.5 ≤ (colourOf 1 p).toReal ∧ (colourOf 1 p).toReal ≤ 127.5 ∧
    -127.5 ≤ (colourOf 2 p).toReal ∧ (colourOf 2 p).toReal ≤ 127.5) ∧
  (colourOf 0 ⟨0, 0, 0⟩).toReal = -128 ∧ (colourOf 0 ⟨255, 255, 255⟩).toReal = 127 ∧
  (colourOf 1 ⟨255, 255, 0⟩).toReal = -127.5 ∧ (colourOf 1 ⟨0, 0, 255⟩).toReal = 127.5 ∧
  (colourOf 2 ⟨0, 255, 255⟩).toReal = -127.5 ∧ (colourOf 2 ⟨255, 0, 0⟩).toReal = 127.5 ∧
  (∀ g : Byte, (colourOf 0 ⟨g, g, g⟩).toReal = (g.toNat : ℝ) - 128 ∧ (colourOf 1 ⟨g, g, g⟩).toReal = 0 ∧
    (colourOf 2 ⟨g, g, g⟩).toReal = 0)

/-! ### Data movement -/

/-- 46_session_commands.md R175, 30_encoding.md R62: `LD` writes exactly one entry. For `S` and `C` the entry denotes the
number whose `NUM` encoding the operand is, finite or not; that the entry keeps this very encoding is the model's reading
(log entry 12). -/
def Obligations.LdWritesOneEntry : Prop :=
  ∀ (s : State) (c : Fin 3) (i : Fin 64) (value : Word), s.phase ≠ .faulted →
    (∃ v : NumValue, exec (.ld .samp (byteOf c.val) (byteOf i.val) value) s =
        .next (answered { s with samp := s.samp.set c.val (s.samp[c].set i.val (some v)) }) ∧
      v.value s.params.fmt = s.params.fmt.decode value ∧ v.bits s.params.fmt = value) ∧
    (∃ v : NumValue, exec (.ld .coef (byteOf c.val) (byteOf i.val) value) s =
        .next (answered { s with coef := s.coef.set c.val (s.coef[c].set i.val (some v)) }) ∧
      v.value s.params.fmt = s.params.fmt.decode value ∧ v.bits s.params.fmt = value) ∧
    (value.toNat < 2 ^ 16 →
      exec (.ld .zz (byteOf c.val) (byteOf i.val) value) s =
        .next (answered { s with zz := s.zz.set c.val (s.zz[c].set i.val (some (value.setWidth 16))) }))

/-- 10_state.md R27, R22, R23, R25, 60_exceptions.md R200: the layout of `STATUS`, which is readable in every phase. -/
def Obligations.StatusLayout : Prop :=
  ∀ s : State, ∃ d : Word, exec (.rd .status 0 0 0) s = .next { s with responses := .data d :: s.responses } ∧
    d.extractLsb' 16 16 = s.level ∧
    (d.extractLsb' 8 8).toNat = (match s.fault with
      | .none => 0 | .precond => 1 | .huffovf => 2 | .huffspec => 3 | .zerolen => 4 | .seq => 6 | .illcmd => 7
      | .uninit => 8 | .qrange => 9 | .cat => 10) ∧
    (d.getLsbD 7 = true ↔ s.strat = .fast) ∧ d.getLsbD 6 = s.imgvalid ∧ d.getLsbD 5 = s.hvalid ∧
    d.getLsbD 4 = s.qvalid ∧ (d.extractLsb' 2 2).toNat = s.nextc.val ∧
    (d.extractLsb' 0 2).toNat = (match s.phase with | .idle => 0 | .image => 1 | .faulted => 2)

/-- 10_state.md R27, 46_session_commands.md R176: the scalar selectors; `RD` writes nothing. -/
def Obligations.RdScalars : Prop :=
  ∀ s : State, ∃ finfo dim mcucnt acc cur outlen : Word,
    exec (.rd .finfo 0 0 0) s = .next { s with responses := .data finfo :: s.responses } ∧ finfo = s.finfo ∧
    (s.phase ≠ .faulted →
      exec (.rd .dim 0 0 0) s = .next { s with responses := .data dim :: s.responses } ∧
      exec (.rd .mcucnt 0 0 0) s = .next { s with responses := .data mcucnt :: s.responses } ∧
      exec (.rd .acc 0 0 0) s = .next { s with responses := .data acc :: s.responses } ∧
      exec (.rd .cur 0 0 0) s = .next { s with responses := .data cur :: s.responses } ∧
      exec (.rd .outlen 0 0 0) s = .next { s with responses := .data outlen :: s.responses } ∧
      dim.toNat = s.h.toNat * 65536 + s.w.toNat ∧ mcucnt = s.mcucnt ∧ acc = s.acc ∧ cur.toNat = s.cur.toNat ∧
      outlen.toNat = s.out.length % 2 ^ 32 ∧
      (∀ c : Fin 3, ∃ pred : Word,
        exec (.rd .pred (byteOf c.val) 0 0) s = .next { s with responses := .data pred :: s.responses } ∧
        pred.toInt = s.pred[c].toInt) ∧
      (∀ (d : Word) (b : Byte), s.out[d.toNat]? = some b → ∃ datum : Word,
        exec (.rd .outb 0 0 d) s = .next { s with responses := .data datum :: s.responses } ∧
        datum.toNat = b.toNat))

/-- 10_state.md R27, 46_session_commands.md R176: the selectors of the buffers and the tables, for entries that have been
written. The datum of a `NUM` entry is its encoding in the format of the port, beside the entry itself. -/
def Obligations.RdEntries : Prop :=
  ∀ s : State, s.phase ≠ .faulted →
    (∀ (c : Fin 3) (i : Fin 64) (v : NumValue), s.samp[c][i] = some v →
      exec (.rd .samp (byteOf c.val) (byteOf i.val) 0) s =
        .next { s with responses := .num v (v.bits s.params.fmt) :: s.responses }) ∧
    (∀ (c : Fin 3) (i : Fin 64) (v : NumValue), s.coef[c][i] = some v →
      exec (.rd .coef (byteOf c.val) (byteOf i.val) 0) s =
        .next { s with responses := .num v (v.bits s.params.fmt) :: s.responses }) ∧
    (∀ (c : Fin 3) (i : Fin 64) (v : Half), s.zz[c][i] = some v → ∃ d : Word,
      exec (.rd .zz (byteOf c.val) (byteOf i.val) 0) s = .next { s with responses := .data d :: s.responses } ∧
      d.toInt = v.toInt) ∧
    (∀ (cl : Fin 2) (i : Fin 64) (v : Byte), s.qtab[cl][i] = some v → ∃ d : Word,
      exec (.rd .qtab (byteOf cl.val) (byteOf i.val) 0) s = .next { s with responses := .data d :: s.responses } ∧
      d.toNat = v.toNat) ∧
    (∀ (cl : Fin 2) (i : Fin 64) (v : NumValue), s.fscale[cl][i] = some v →
      exec (.rd .fscale (byteOf cl.val) (byteOf i.val) 0) s =
        .next { s with responses := .num v (v.bits s.params.fmt) :: s.responses }) ∧
    (∀ (t : Fin 4) (k : Fin 256) (e : HuffCode), s.ehuf[t][k] = some e → ∃ d : Word,
      exec (.rd .ehuf (byteOf t.val) (byteOf k.val) 0) s = .next { s with responses := .data d :: s.responses } ∧
      d.toNat = e.si.val * 65536 + e.co.toNat) ∧
    (∀ (t : Fin 4) (l : Fin 16), ∃ d : Word,
      exec (.rd .hbits (byteOf t.val) (byteOf l.val) 0) s = .next { s with responses := .data d :: s.responses } ∧
      d.toNat = s.hspec[t].count (l.val + 1)) ∧
    (∀ (t : Fin 4) (k : Fin 256), ∃ d : Word,
      exec (.rd .hval (byteOf t.val) (byteOf k.val) 0) s = .next { s with responses := .data d :: s.responses } ∧
      d.toNat = (s.hspec[t].value k.val).toNat)

/-- 60_exceptions.md R209, 10_state.md R11: a rule that reads a never-written entry raises `F_UNINIT` with the array's
code and the indexes, the lowest index first, and writes nothing else. -/
def Obligations.UninitialisedReadsFault : Prop :=
  ∀ s : State, s.phase ≠ .faulted →
    (∀ (c : Fin 3) (i : Fin 64), s.samp[c][i] = none →
      exec (.rd .samp (byteOf c.val) (byteOf i.val) 0) s =
        .next (faultEntry s .uninit (BitVec.ofNat 32 (0x100000 + c.val * 256 + i.val))) ∧
      (s.qvalid = true → (∀ j : Fin 64, j.val < i.val → s.samp[c][j] ≠ none) →
        exec (.fdct (byteOf c.val)) s =
          .next (faultEntry s .uninit (BitVec.ofNat 32 (0x100000 + c.val * 256 + i.val))))) ∧
    (∀ (c : Fin 3) (i : Fin 64), s.coef[c][i] = none →
      exec (.rd .coef (byteOf c.val) (byteOf i.val) 0) s =
        .next (faultEntry s .uninit (BitVec.ofNat 32 (0x110000 + c.val * 256 + i.val))) ∧
      (s.qvalid = true → (∀ j : Fin 64, j.val < i.val → s.coef[c][j] ≠ none) →
        exec (.qzz (byteOf c.val)) s =
          .next (faultEntry s .uninit (BitVec.ofNat 32 (0x110000 + c.val * 256 + i.val))))) ∧
    (∀ (c : Fin 3) (k : Fin 64), s.zz[c][k] = none →
      exec (.rd .zz (byteOf c.val) (byteOf k.val) 0) s =
        .next (faultEntry s .uninit (BitVec.ofNat 32 (0x120000 + c.val * 256 + k.val))) ∧
      (s.phase = .image → s.nextc = c → (∀ j : Fin 64, j.val < k.val → s.zz[c][j] ≠ none) →
        exec (.enc (byteOf c.val)) s =
          .next (faultEntry s .uninit (BitVec.ofNat 32 (0x120000 + c.val * 256 + k.val))))) ∧
    (∀ (cl : Fin 2) (i : Fin 64), s.qtab[cl][i] = none →
      exec (.rd .qtab (byteOf cl.val) (byteOf i.val) 0) s =
        .next (faultEntry s .uninit (BitVec.ofNat 32 (0x130000 + cl.val * 256 + i.val)))) ∧
    (∀ (cl : Fin 2) (i : Fin 64), s.fscale[cl][i] = none →
      exec (.rd .fscale (byteOf cl.val) (byteOf i.val) 0) s =
        .next (faultEntry s .uninit (BitVec.ofNat 32 (0x140000 + cl.val * 256 + i.val)))) ∧
    (∀ (t : Fin 4) (k : Fin 256), s.ehuf[t][k] = none →
      exec (.rd .ehuf (byteOf t.val) (byteOf k.val) 0) s =
        .next (faultEntry s .uninit (BitVec.ofNat 32 (0x150000 + t.val * 256 + k.val))))

/-- 92_eei_decisions.md D6, 10_state.md R27: the binary32 port reads a finite pattern as its IEEE 754 value and gives an
exactly representable number its own pattern back (zero as `+0`, log entry 10). -/
def Obligations.Binary32Port : Prop :=
  (∀ p : Word, decodeBinary32 p = none ↔ (p.extractLsb' 23 8).toNat = 255) ∧
  (∀ (p : Word) (x : Alg), decodeBinary32 p = some x →
    x.toReal = (if p.getLsbD 31 then -1 else 1) *
      (if (p.extractLsb' 23 8).toNat = 0 then ((p.extractLsb' 0 23).toNat : ℝ) * 2 ^ (-149 : ℤ)
       else (2 ^ 23 + ((p.extractLsb' 0 23).toNat : ℝ)) * 2 ^ (((p.extractLsb' 23 8).toNat : ℤ) - 150))) ∧
  (∀ (p : Word) (x : Alg), decodeBinary32 p = some x → p ≠ 0x80000000 → encodeBinary32 x = p)

/-! ### The transform -/

/-- 40_dct.md R90, R91: `FDCT` under the direct strategy. Each output lies within `EPS_DCT` of its reference value, and
nothing but `COEF[c]` changes. -/
def Obligations.FdctDirect : Prop :=
  ∀ (s : State) (c : Fin 3) (f : Nat → ℝ), s.phase ≠ .faulted → s.qvalid = true → s.strat = .direct →
    0 ≤ s.params.epsDct → BlockIs s.params.fmt s.samp[c] f →
    ∃ (b : Block NumValue) (draws : Nat),
      exec (.fdct (byteOf c.val)) s = .next (answered { s with coef := s.coef.set c.val b, draws := draws }) ∧
      ∀ u v : Fin 8, ∃ x : Alg, b[v.val * 8 + u.val]'(by omega) = some (.real x) ∧
        |x.toReal - dctReal f u.val v.val| ≤ (s.params.epsDct : ℝ)

/-- 40_dct.md R90, R94, R93: `FDCT` under the fast strategy. -/
def Obligations.FdctFast : Prop :=
  ∀ (s : State) (c : Fin 3) (f : Nat → ℝ), s.phase ≠ .faulted → s.qvalid = true → s.strat = .fast →
    0 ≤ s.params.epsDct → BlockIs s.params.fmt s.samp[c] f →
    ∃ (b : Block NumValue) (draws : Nat),
      exec (.fdct (byteOf c.val)) s = .next (answered { s with coef := s.coef.set c.val b, draws := draws }) ∧
      ∀ u v : Fin 8, ∃ x : Alg, b[v.val * 8 + u.val]'(by omega) = some (.real x) ∧
        |x.toReal - 8 * aansReal u.val * aansReal v.val * dctReal f u.val v.val| ≤
          8 * aansReal u.val * aansReal v.val * (s.params.epsDct : ℝ)

/-- 40_dct.md R90, 60_exceptions.md R202: a sample that is not a finite number is no fault in `FDCT`; it makes every
coefficient not a finite number, each of them depending on every sample (the model's reading, log entry 20). -/
def Obligations.FdctOfNonFiniteSample : Prop :=
  ∀ (s : State) (c : Fin 3) (i : Fin 64) (v : NumValue), s.phase ≠ .faulted → s.qvalid = true → allWritten s.samp[c] →
    s.samp[c][i] = some v → v.value s.params.fmt = none →
    ∃ (b : Block NumValue) (draws : Nat),
      exec (.fdct (byteOf c.val)) s = .next (answered { s with coef := s.coef.set c.val b, draws := draws }) ∧
      ∀ k : Fin 64, ∃ x : NumValue, b[k] = some x ∧ x.value s.params.fmt = none

/-- 40_dct.md R96 items 2 and 5, which the spec derives, R90, in the exact model: a block of equal samples gives `8a`
(direct) or `64a` (fast) at index 0 and 0 elsewhere; samples of magnitude at most 128 give direct coefficients of
magnitude at most 1024. -/
def Obligations.FdctExactProperties : Prop :=
  ∀ (s : State) (c : Fin 3) (f : Nat → ℝ), s.phase ≠ .faulted → s.qvalid = true → s.params.epsDct = 0 →
    BlockIs s.params.fmt s.samp[c] f →
    ∃ (b : Block NumValue) (draws : Nat),
      exec (.fdct (byteOf c.val)) s = .next (answered { s with coef := s.coef.set c.val b, draws := draws }) ∧
      (∀ a : ℝ, (∀ i, i < 64 → f i = a) → ∀ k : Fin 64, ∃ x : Alg, b[k] = some (.real x) ∧
        x.toReal = if k.val = 0 then (if s.strat = .direct then 8 * a else 64 * a) else 0) ∧
      (s.strat = .direct → (∀ i, i < 64 → |f i| ≤ 128) → ∀ k : Fin 64, ∃ x : Alg, b[k] = some (.real x) ∧
        |x.toReal| ≤ 1024)

/-- 40_dct.md R96 item 4 (which the spec derives), R94, 41_quant_tables.md R104: the scaling of the fast transform and
the fused scale table cancel: their product is the reciprocal of the divisor. -/
def Obligations.FastScalingCancels : Prop :=
  ∀ (i : Fin 64) (d : Byte), d ≠ 0 →
    (fastScale i).toReal = 8 * aansReal (i.val % 8) * aansReal (i.val / 8) ∧
    (fastScale i).toReal * (fusedScale i d).toReal = 1 / (d.toNat : ℝ)

/-! ### The quantiser -/

/-- 42_quantizer_zigzag.md R110: `ZZMAP` is the walk of the anti-diagonals, and `zzInv` is its inverse on both sides. -/
def Obligations.ZigzagIsTheWalk : Prop :=
  (∀ x y : Fin 8, (zzMap ⟨y.val * 8 + x.val, by omega⟩).val = zigzagWalk x.val y.val) ∧
  (∀ k : Fin 64, zzMap (zzInv k) = k ∧ zzInv (zzMap k) = k)

/-- 42_quantizer_zigzag.md R112, R113, R116: the two roundings as R112 and R113 print them, on every exact quotient; they
agree but at the negative ties (the spec's own inference), where the fast one is one higher. -/
def Obligations.RoundingRules : Prop :=
  ∀ q : Alg,
    roundDirect q = roundAway q.toReal ∧
    (0 ≤ q.toReal + 16384 + 0.5 → roundFast q = some (roundBiased q.toReal)) ∧
    (q.toReal + 16384 + 0.5 < 0 → roundFast q = none) ∧
    (0 ≤ q.toReal + 16384 + 0.5 → (∀ n : ℕ, q.toReal ≠ -(n + 0.5)) → roundFast q = some (roundDirect q)) ∧
    (∀ n : ℕ, n ≤ 16384 → q.toReal = -(n + 0.5) → roundDirect q = -(n + 1) ∧ roundFast q = some (-(n : Int)))

/-- 42_quantizer_zigzag.md R111, R112, R115: `QZZ` on the direct path. Entry `ZZMAP[i]` is the rounding of the quotient
with some deviation of at most `EPS_Q`; nothing but `ZZ[c]` changes. -/
def Obligations.QzzDirect : Prop :=
  ∀ (s : State) (c : Fin 3) (f : Nat → ℝ) (d : Fin 64 → Byte), s.phase ≠ .faulted → s.qvalid = true →
    s.strat = .direct → 0 ≤ s.params.epsQ → BlockIs s.params.fmt s.coef[c] f → DivisorsAre s (cls c) d →
    (∀ (i : Fin 64) (e : ℝ), |e| ≤ (s.params.epsQ : ℝ) → QuotientOk .direct (f i.val / ((d i).toNat : ℝ) + e)) →
    ∃ (b : Block Half) (draws : Nat),
      exec (.qzz (byteOf c.val)) s = .next (answered { s with zz := s.zz.set c.val b, draws := draws }) ∧
      ∀ i : Fin 64, ∃ (z : Half) (e : ℝ), |e| ≤ (s.params.epsQ : ℝ) ∧ b[zzMap i] = some z ∧
        z.toInt = roundAway (f i.val / ((d i).toNat : ℝ) + e)

/-- 42_quantizer_zigzag.md R111, R113, R115: `QZZ` on the fast path, for any contents of the fused scale table. -/
def Obligations.QzzFast : Prop :=
  ∀ (s : State) (c : Fin 3) (f g : Nat → ℝ), s.phase ≠ .faulted → s.qvalid = true →
    s.strat = .fast → 0 ≤ s.params.epsQ → BlockIs s.params.fmt s.coef[c] f → BlockIs s.params.fmt s.fscale[cls c] g →
    (∀ (i : Fin 64) (e : ℝ), |e| ≤ (s.params.epsQ : ℝ) → QuotientOk .fast (f i.val * g i.val + e)) →
    ∃ (b : Block Half) (draws : Nat),
      exec (.qzz (byteOf c.val)) s = .next (answered { s with zz := s.zz.set c.val b, draws := draws }) ∧
      ∀ i : Fin 64, ∃ (z : Half) (e : ℝ), |e| ≤ (s.params.epsQ : ℝ) ∧ b[zzMap i] = some z ∧
        z.toInt = roundBiased (f i.val * g i.val + e)

/-- 42_quantizer_zigzag.md R114, 60_exceptions.md R215, R204 item 5: the lowest natural index that has no quantised value,
whatever the deviation within `EPS_Q`, raises `F_QRANGE`, and `ZZ` is not written. `q i` is the reference quotient, `none`
where the coefficient or the scale entry is not a finite number. -/
def Obligations.QzzRangeFaults : Prop :=
  ∀ (s : State) (c : Fin 3) (i : Fin 64) (q : Fin 64 → Option ℝ), s.phase ≠ .faulted → s.qvalid = true →
    0 ≤ s.params.epsQ → allWritten s.coef[c] →
    (∀ j : Fin 64, ∃ v : NumValue, s.coef[c][j] = some v ∧
      (s.strat = .direct → ∃ d : Byte, d ≠ 0 ∧ s.qtab[cls c][zzMap j] = some d ∧
        q j = (v.value s.params.fmt).map fun x => x.toReal / (d.toNat : ℝ)) ∧
      (s.strat = .fast → ∃ g : NumValue, s.fscale[cls c][j] = some g ∧
        q j = (v.value s.params.fmt).bind fun x => (g.value s.params.fmt).map fun y => x.toReal * y.toReal)) →
    (∀ j : Fin 64, j.val < i.val → ∃ r, q j = some r ∧
      ∀ e : ℝ, |e| ≤ (s.params.epsQ : ℝ) → QuotientOk s.strat (r + e)) →
    (∀ r, q i = some r → ∀ e : ℝ, |e| ≤ (s.params.epsQ : ℝ) → ¬ QuotientOk s.strat (r + e)) →
    ∃ draws : Nat, exec (.qzz (byteOf c.val)) s =
      .next { faultEntry s .qrange (BitVec.ofNat 32 (0x110000 + c.val * 256 + i.val)) with draws := draws }

/-! ### The entropy coder -/

/-- 44_entropy_coder.md R131, R132, 30_encoding.md R75: magnitude and category. -/
def Obligations.MagnitudeAndCategory : Prop :=
  (∀ v : Int, v ≠ 0 → ∃ cat : Nat, (magcat v).2 = cat ∧ 1 ≤ cat ∧ 2 ^ (cat - 1) ≤ v.natAbs ∧ v.natAbs < 2 ^ cat ∧
    (0 < v → ((magcat v).1 : Int) = v) ∧ (v < 0 → ((magcat v).1 : Int) = v + 2 ^ cat - 1)) ∧
  magcat 0 = (0, 0) ∧
  (∀ v : Int, -65535 ≤ v → v ≤ 65535 → (magcat v).2 ≤ 16 ∧ (magcat v).1 < 2 ^ 16) ∧
  (∀ v : Int, -32768 ≤ v → v ≤ 32767 → ((magcat v).2 = 16 ↔ v = -32768))

/-- 44_entropy_coder.md R130, R134, R135, 30_encoding.md R70 to R76: `ENC` when every item of its block has a code. It
appends exactly the items' bits to the stream, sets the component's predictor, moves `NEXTC` on and counts the MCU after
component 2; nothing else changes, and what was in `OUT` stays. -/
def Obligations.EncAppendsBlock : Prop :=
  ∀ (s : State) (c : Fin 3) (z : Fin 64 → Half), s.phase = .image → s.nextc = c → PackerOk s.packer →
    (∀ k : Fin 64, s.zz[c][k] = some (z k)) →
    (∀ it ∈ blockItems c (List.ofFn fun k => (z k).toInt) s.pred[c].toInt, it.codable s.ehuf) →
    ∃ p : Packer,
      exec (.enc (byteOf c.val)) s = .next (answered { s with
        pred := s.pred.set c.val (z 0)
        acc := p.acc
        cur := p.cur
        out := p.out
        nextc := Fin.ofNat 3 (c.val + 1)
        mcucnt := if c = 2 then s.mcucnt + 1 else s.mcucnt }) ∧
      PackerOk p ∧ (∃ more, p.out = s.out ++ more) ∧
      streamOf p =
        streamOf s.packer ++ blockBits s.ehuf c (List.ofFn fun k => (z k).toInt) s.pred[c].toInt

/-- 44_entropy_coder.md R133, R136, 60_exceptions.md R204 item 5, R214, R216: the first item in stream order that cannot
be coded decides: `F_CAT` before its symbol is looked up, else `F_ZEROLEN`. `OUT`, `ACC`, `CUR` and `PRED` are then
anything (log entry 15). -/
def Obligations.EncFirstUncodableItemFaults : Prop :=
  ∀ (s : State) (c : Fin 3) (z : Fin 64 → Half) (before after : List Item) (it : Item),
    s.phase = .image → s.nextc = c → (∀ k : Fin 64, s.zz[c][k] = some (z k)) →
    blockItems c (List.ofFn fun k => (z k).toInt) s.pred[c].toInt = before ++ it :: after →
    (∀ it' ∈ before, it'.codable s.ehuf) →
    (it.tooLarge → ∃ (out : List Byte) (acc : Word) (cur : BitVec 6) (pred : Vector Half 3) (draws : Nat),
      exec (.enc (byteOf c.val)) s =
        .next { faultEntry s .cat (BitVec.ofNat 32 (c.val * 256 + it.pos)) with
          out := out, acc := acc, cur := cur, pred := pred, draws := draws }) ∧
    (¬ it.tooLarge → ∀ k : Fin 256, k.val = it.sym → (∃ co, s.ehuf[it.table][k] = some ⟨0, co⟩) →
      ∃ (out : List Byte) (acc : Word) (cur : BitVec 6) (pred : Vector Half 3) (draws : Nat),
        exec (.enc (byteOf c.val)) s =
          .next { faultEntry s .zerolen (BitVec.ofNat 32 (it.table.val * 256 + it.sym)) with
            out := out, acc := acc, cur := cur, pred := pred, draws := draws })

/-! ### The packer -/

/-- 45_bit_packer.md R150, R151, R152: the registers after `PUTBITS n, v`, from any state with at most 7 bits pending: the
group goes below the pending bits, and each completed byte goes to `OUT` with a `00` after an `FF`. -/
def Obligations.PutbitsRegisters : Prop :=
  ∀ (s : State) (n : Byte) (v : Half), s.phase = .image → n.toNat ≤ 16 → s.cur.toNat ≤ 7 →
    (n = 0 → exec (.putbits n v) s = .next (answered s)) ∧
    (n ≠ 0 →
      let x := s.acc.toNat ||| (v.toNat % 2 ^ n.toNat * 2 ^ (32 - s.cur.toNat - n.toNat))
      let bytes := (s.cur.toNat + n.toNat) / 8
      exec (.putbits n v) s = .next (answered { s with
        acc := BitVec.ofNat 32 (x * 256 ^ bytes)
        cur := BitVec.ofNat 6 ((s.cur.toNat + n.toNat) % 8)
        out := s.out ++ (List.range bytes).flatMap fun j =>
          if x / 256 ^ (3 - j) % 256 = 255 then [0xFF, 0x00] else [BitVec.ofNat 8 (x / 256 ^ (3 - j))] }))

/-- 45_bit_packer.md R153, 20_memory.md R43, R45: `PUTBITS` appends its `n` bits, most significant first, to the stream
emitted so far, only ever adds to `OUT`, and keeps the packer's invariants. -/
def Obligations.PutbitsAppendsToStream : Prop :=
  ∀ (s : State) (n : Byte) (v : Half), s.phase = .image → n.toNat ≤ 16 → PackerOk s.packer →
    ∃ p : Packer,
      exec (.putbits n v) s = .next (answered { s with acc := p.acc, cur := p.cur, out := p.out }) ∧
      PackerOk p ∧ (∃ more, p.out = s.out ++ more ∧ more.length ≤ 4) ∧
      streamOf p = streamOf s.packer ++ bitsOf n.toNat v.toNat

/-! ### Composite commands -/

/-- 46_session_commands.md R173: `BLK c` is `FDCT c`, `QZZ c`, `ENC c` in a row, the first fault stopping it with the
earlier stages in effect; with `QVALID` set, which the phase `IMAGE` of every run gives, for the phase table is asked
once (log entry 17). -/
def Obligations.BlkIsThreeCommands : Prop :=
  ∀ (s s1 : State) (c : Fin 3), s.phase = .image → s.nextc = c → s.qvalid = true →
    exec (.fdct (byteOf c.val)) s = .next s1 →
    (s1.phase = .faulted → exec (.blk (byteOf c.val)) s = .next s1) ∧
    (s1.phase ≠ .faulted → ∀ s2, exec (.qzz (byteOf c.val)) s1 = .next s2 →
      (s2.phase = .faulted →
        exec (.blk (byteOf c.val)) s = .next { s2 with responses := .fault :: s.responses }) ∧
      (s2.phase ≠ .faulted → ∀ s3, exec (.enc (byteOf c.val)) s2 = .next s3 →
        exec (.blk (byteOf c.val)) s = .next { s3 with
          responses := (if s3.phase = .faulted then .fault else .ok) :: s.responses }))

/-- 46_session_commands.md R174: `MCU` is `BLK 0`, `BLK 1`, `BLK 2` in a row. -/
def Obligations.McuIsThreeBlocks : Prop :=
  ∀ s s1 : State, s.phase = .image → s.nextc = 0 → exec (.blk 0) s = .next s1 →
    (s1.phase = .faulted → exec .mcu s = .next s1) ∧
    (s1.phase ≠ .faulted → ∀ s2, exec (.blk 1) s1 = .next s2 →
      (s2.phase = .faulted → exec .mcu s = .next { s2 with responses := .fault :: s.responses }) ∧
      (s2.phase ≠ .faulted → ∀ s3, exec (.blk 2) s2 = .next s3 →
        exec .mcu s = .next { s3 with responses := (if s3.phase = .faulted then .fault else .ok) :: s.responses } ∧
        (s3.phase ≠ .faulted → s3.nextc = 0 ∧ s3.mcucnt = s.mcucnt + 1)))

/-- 46_session_commands.md R174: in the exact model an MCU without a fault may as well run its nine stages unit by unit,
in the order F0 F1 F2 Q0 Q1 Q2 E0 E1 E2. This is one of the orders that the rule's last sentence, which the spec
derives, says give the same final state; the statement claims no other. -/
def Obligations.McuRunsUnitByUnit : Prop :=
  ∀ s t : State, s.params.epsDct = 0 → s.params.epsQ = 0 → mcuStage s = .ok t →
    ((fdctStage 0).andThen ((fdctStage 1).andThen ((fdctStage 2).andThen
      ((qzzStage 0).andThen ((qzzStage 1).andThen ((qzzStage 2).andThen
        ((encStage 0).andThen ((encStage 1).andThen (encStage 2)))))))) s) = .ok t

/-- 46_session_commands.md R173, 40_dct.md R91, 42_quantizer_zigzag.md R112, R113, 44_entropy_coder.md R130: the whole
pipeline for one block in the exact model, from the real-valued samples to the bits: `BLK c` codes the rounded quotients
of the reference transform. -/
def Obligations.BlkEncodesBlock : Prop :=
  ∀ (s : State) (c : Fin 3) (f : Nat → ℝ) (d : Fin 64 → Byte) (z : Fin 64 → Half),
    s.phase = .image → s.nextc = c → s.params.epsDct = 0 → s.params.epsQ = 0 → PackerOk s.packer →
    BlockReady s c f d z →
    ∃ (b : Block NumValue) (q : Block Half) (p : Packer) (draws : Nat),
      exec (.blk (byteOf c.val)) s = .next (answered { s with
        coef := s.coef.set c.val b
        zz := s.zz.set c.val q
        pred := s.pred.set c.val (z 0)
        acc := p.acc
        cur := p.cur
        out := p.out
        nextc := Fin.ofNat 3 (c.val + 1)
        mcucnt := if c = 2 then s.mcucnt + 1 else s.mcucnt
        draws := draws }) ∧
      (∀ k : Fin 64, q[k] = some (z k)) ∧ PackerOk p ∧ (∃ more, p.out = s.out ++ more) ∧
      streamOf p =
        streamOf s.packer ++ blockBits s.ehuf c (List.ofFn fun k => (z k).toInt) s.pred[c].toInt

/-- 46_session_commands.md R174, 44_entropy_coder.md R137: one whole MCU in the exact model: its three blocks' bits in the
order Y, Cb, Cr. -/
def Obligations.McuEncodesThreeBlocks : Prop :=
  ∀ (s : State) (f : Fin 3 → Nat → ℝ) (d : Fin 3 → Fin 64 → Byte) (z : Fin 3 → Fin 64 → Half),
    s.phase = .image → s.nextc = 0 → s.params.epsDct = 0 → s.params.epsQ = 0 → PackerOk s.packer →
    (∀ c : Fin 3, BlockReady s c (f c) (d c) (z c)) →
    ∃ (coef : Vector (Block NumValue) 3) (zz : Vector (Block Half) 3) (p : Packer) (draws : Nat),
      exec .mcu s = .next (answered { s with
        coef := coef
        zz := zz
        pred := #v[z 0 0, z 1 0, z 2 0]
        acc := p.acc
        cur := p.cur
        out := p.out
        nextc := 0
        mcucnt := s.mcucnt + 1
        draws := draws }) ∧
      (∀ (c : Fin 3) (k : Fin 64), zz[c][k] = some (z c k)) ∧ PackerOk p ∧ (∃ more, p.out = s.out ++ more) ∧
      streamOf p = streamOf s.packer ++
        blockBits s.ehuf 0 (List.ofFn fun k => (z 0 k).toInt) s.pred[(0 : Fin 3)].toInt ++
        blockBits s.ehuf 1 (List.ofFn fun k => (z 1 k).toInt) s.pred[(1 : Fin 3)].toInt ++
        blockBits s.ehuf 2 (List.ofFn fun k => (z 2 k).toInt) s.pred[(2 : Fin 3)].toInt

/-! ### Invariants of every step -/

/-- The invariants hold after reset: 10_state.md R30, 45_bit_packer.md R153. The clause on memory rests on no rule: the
canonical form and the empty image at reset are the model's choice (log entry 7). -/
def Obligations.InvariantsAtReset : Prop :=
  MemoryCanonical State.reset ∧ PackerInv State.reset ∧ QuantInv State.reset ∧ HuffInv State.reset ∧
  SequenceInv State.reset

/-- 45_bit_packer.md R153 (which the spec derives), R152, 10_state.md R21: every step keeps the packer's invariants,
whatever command runs. -/
def Obligations.StepKeepsPackerInv : Prop := ∀ s t : State, PackerInv s → step s = .next t → PackerInv t

/-- Every step keeps, each from itself alone: the canonical form of the image memory (the model's own form of 20_memory.md
R40, log entry 7); the divisor tables whole and without a zero once `QVALID` is set (41_quant_tables.md R100, R103); the
extended Huffman tables whole, each code below two to its length, once `HVALID` is set (43_huffman_builder.md R120, R125
item 4); and the sequencing state consistent: `IMAGE` only with both tables built, a declared image without a zero
dimension, `FAULTED` exactly with a fault code (10_state.md R22 to R25). -/
def Obligations.StepKeepsInvariants : Prop :=
  ∀ s t : State, step s = .next t →
    (MemoryCanonical s → MemoryCanonical t) ∧ (QuantInv s → QuantInv t) ∧ (HuffInv s → HuffInv t) ∧
    (SequenceInv s → SequenceInv t)

/-! ### Frames -/

/-- 10_state.md R10: a command writes only the pieces whose column "written by" names it or a stage of it. Fault entry alone
writes `FAULT` and `FINFO`, and the phase besides `START` and `END`; reset writes all. `HSPEC` (10_state.md R18) and the
image, every byte of it (20_memory.md R41, 70_reset_and_hazards.md R230), are written by no command. That the host's
remaining moves and the launch parameters are fields of State, and that no command, `RESET` included, writes them, is the
model's choice and reading (log entries 1, 2, 8, 16). -/
def Obligations.CommandsWriteOnlyTheirPieces : Prop :=
  ∀ (i : Instr) (s t : State), exec i s = .next t →
    (∀ p : Piece, i ≠ .reset → mnemonic i ∉ p.writers → p ≠ .phase → p ≠ .faultRegisters → p.same s t) ∧
    (∀ p : Piece, i ≠ .reset → mnemonic i ∉ p.writers → p = .phase ∨ p = .faultRegisters →
      p.same s t ∨ TookFault s t) ∧
    t.hspec = s.hspec ∧ (∀ a : Nat, Memory.read t.img a = Memory.read s.img a) ∧ t.img = s.img ∧ t.port = s.port ∧
    t.params = s.params

/-- 20_memory.md R45, 10_state.md R20, 70_reset_and_hazards.md R246: outside a fault, bytes already in `OUT` never change
and are never removed but by `START` and reset, and only these and the coding of a component's own block change its
predictor. -/
def Obligations.OutputGrowsAndPredictorsPersist : Prop :=
  ∀ (i : Instr) (s t : State), exec i s = .next t → i ≠ .reset → i ≠ .start → t.phase ≠ .faulted →
    (∃ more : List Byte, t.out = s.out ++ more) ∧
    (∀ c : Fin 3, i ≠ .enc (byteOf c.val) → i ≠ .blk (byteOf c.val) → i ≠ .mcu → t.pred[c] = s.pred[c])

/-! ### Sessions -/

/-- 46_session_commands.md R180, 30_encoding.md R66, 47_frontend.md R191: the canonical session's commands are all
legal, its tiles are the tiles of the grid in raster order, one `MCU` after each. -/
def Obligations.CanonicalSessionTiles : Prop :=
  ∀ (level : Half) (strat : Strategy) (w h : Half) (pad : Bool), w ≠ 0 → h ≠ 0 →
    (∀ i ∈ canonicalSession level strat w h pad, i.WellFormed) ∧
    (rasterTiles w h).length = ((w.toNat + 7) / 8) * ((h.toNat + 7) / 8) ∧
    (∀ n : Nat, n < (rasterTiles w h).length → ∃ mx my : Half, (rasterTiles w h)[n]? = some (mx, my) ∧
      8 * mx.toNat < w.toNat ∧ 8 * my.toNat < h.toNat ∧ n = my.toNat * ((w.toNat + 7) / 8) + mx.toNat) ∧
    canonicalSession level strat w h pad =
      [.reset, .cfg level strat, .hbuild, .img w h, .start] ++
        ((rasterTiles w h).flatMap fun t => [.tile t.1 t.2, .mcu]) ++ [.endImage pad]
end

