-- ==== Sys2Proof/Laws/Ops.lean ====
section
/-! SUPPORT. What the shared operations can do, said once each: tables, never-written entries, the order of checks, stages
and their answers. -/

namespace Sys2Proof

/-! ### Tables -/

@[simp] theorem tabulate_getElem {α : Type} {n : Nat} (f : Fin n → α) (i : Nat) (h : i < n) :
    (tabulate f)[i] = f ⟨i, h⟩ := by
  simp [tabulate]

@[simp] theorem tabulate_getElem_fin {α : Type} {n : Nat} (f : Fin n → α) (i : Fin n) : (tabulate f)[i] = f i :=
  tabulate_getElem f i.val i.isLt

theorem tabulate_toList {α : Type} {n : Nat} (f : Fin n → α) : (tabulate f).toList = List.ofFn f := by
  simp [tabulate, Vector.toList]

theorem tableOfList_getElem {α : Type} (n : Nat) (x : α) (l : List α) (i : Nat) (h : i < n) :
    (tableOfList n x l)[i] = l.getD i x := by
  simp only [tableOfList, Vector.getElem_mk, List.getElem_toArray, List.getElem_take, List.getD_eq_getElem?_getD]
  by_cases hl : i < l.length
  · simp [List.getElem_append_left hl, List.getElem?_eq_getElem hl]
  · simp [List.getElem_append_right (Nat.le_of_not_lt hl), List.getElem?_eq_none (Nat.le_of_not_lt hl)]

namespace Machine

/-! ### Never-written entries -/

theorem firstBot_eq_none {α : Type} {n : Nat} (b : Vector (Option α) n) : firstBot b = none ↔ allWritten b := by
  simp only [firstBot, List.findIdx?_eq_none_iff, allWritten, Vector.mem_toList_iff, Vector.mem_iff_getElem]
  constructor
  · intro h i hi
    have := h _ ⟨i.val, i.isLt, rfl⟩
    rw [show b[i.val] = none from hi] at this
    cases this
  · rintro h x ⟨i, hi, rfl⟩
    cases hx : b[i] with
    | none => exact absurd hx (h ⟨i, hi⟩)
    | some _ => rfl

/-- The first never-written entry: it is never-written, and every lower one has been written. -/
theorem firstBot_eq_some {α : Type} {n : Nat} (b : Vector (Option α) n) (i : Nat) :
    firstBot b = some i ↔ ∃ h : i < n, b[i] = none ∧ ∀ j : Nat, ∀ hj : j < i, b[j] ≠ none := by
  simp only [firstBot, List.findIdx?_eq_some_iff_getElem]
  constructor
  · rintro ⟨h, hi, hj⟩
    rw [Vector.length_toList] at h
    refine ⟨h, by simpa using hi, fun j hji => ?_⟩
    simpa [Option.isSome_iff_ne_none] using hj j hji
  · rintro ⟨h, hi, hj⟩
    refine ⟨by rw [Vector.length_toList]; exact h, by simpa using hi, fun j hji => ?_⟩
    simpa [Option.isSome_iff_ne_none] using hj j hji

/-! ### The order of checks -/

theorem accepts_iff (i : Instr) (s : State) : accepts i s = true ↔ AcceptedByTable i s := by
  cases i <;> simp [accepts, AcceptedByTable, isNext, and_assoc]
  case rd sel c k d => cases s.phase <;> simp

theorem accepts_eq_false (i : Instr) (s : State) : accepts i s = false ↔ ¬ AcceptedByTable i s := by
  rw [← accepts_iff, Bool.not_eq_true]

/-- A command with legal operands that the phase table accepts runs. -/
theorem issue_accepted {i : Instr} {s : State} (run : State → Out) (hw : i.WellFormed) (ha : AcceptedByTable i s) :
    issue i s run = run s := by
  have h1 : operandsLegal i = true := hw
  have h2 := (accepts_iff i s).2 ha
  simp [issue, h1, h2]

/-- Outside `FAULTED` a command the phase table refuses raises `F_SEQ`. -/
theorem issue_refused {i : Instr} {s : State} (run : State → Out) (hw : i.WellFormed) (hp : s.phase ≠ .faulted)
    (ha : ¬ AcceptedByTable i s) : issue i s run = takeFault ⟨.seq, i.upper⟩ s := by
  have h1 : operandsLegal i = true := hw
  have h2 := (accepts_eq_false i s).2 ha
  simp [issue, h1, h2, hp]

/-- Outside `FAULTED` an illegal operand raises `F_ILLCMD`. -/
theorem issue_illegal {i : Instr} {s : State} (run : State → Out) (hw : ¬ i.WellFormed) (hp : s.phase ≠ .faulted) :
    issue i s run = takeFault ⟨.illcmd, i.upper⟩ s := by
  have h1 : operandsLegal i = false := by simpa [operandsLegal, Instr.WellFormed] using hw
  simp [issue, h1, hp]

/-- In `FAULTED` whatever is not accepted is answered `FAULT` and writes nothing. -/
theorem issue_faulted {i : Instr} {s : State} (run : State → Out) (hp : s.phase = .faulted)
    (ha : ¬ (i.WellFormed ∧ AcceptedByTable i s)) : issue i s run = refuseInFaulted s := by
  have : (operandsLegal i && accepts i s) = false := by
    rw [Bool.and_eq_false_iff, accepts_eq_false, ← Bool.not_eq_true]
    simpa [operandsLegal, Instr.WellFormed, or_iff_not_imp_left] using ha
  simp [issue, hp, this]

/-- Everything a command can be answered with before it runs, and when it runs. -/
theorem issue_cases (i : Instr) (s : State) (run : State → Out) :
    (s.phase = .faulted ∧ ¬ (i.WellFormed ∧ AcceptedByTable i s) ∧ issue i s run = refuseInFaulted s) ∨
    (s.phase ≠ .faulted ∧ ¬ i.WellFormed ∧ issue i s run = takeFault ⟨.illcmd, i.upper⟩ s) ∨
    (s.phase ≠ .faulted ∧ i.WellFormed ∧ ¬ AcceptedByTable i s ∧ issue i s run = takeFault ⟨.seq, i.upper⟩ s) ∨
    (i.WellFormed ∧ AcceptedByTable i s ∧ issue i s run = run s) := by
  by_cases hw : i.WellFormed <;> by_cases ha : AcceptedByTable i s <;> by_cases hp : s.phase = .faulted
  · exact .inr (.inr (.inr ⟨hw, ha, issue_accepted run hw ha⟩))
  · exact .inr (.inr (.inr ⟨hw, ha, issue_accepted run hw ha⟩))
  · exact .inl ⟨hp, fun h => ha h.2, issue_faulted run hp fun h => ha h.2⟩
  · exact .inr (.inr (.inl ⟨hp, hw, ha, issue_refused run hw hp ha⟩))
  · exact .inl ⟨hp, fun h => hw h.1, issue_faulted run hp fun h => hw h.1⟩
  · exact .inr (.inl ⟨hp, hw, issue_illegal run hw hp⟩)
  · exact .inl ⟨hp, fun h => hw h.1, issue_faulted run hp fun h => hw h.1⟩
  · exact .inr (.inl ⟨hp, hw, issue_illegal run hw hp⟩)

/-! ### Answers -/

@[simp] theorem answerOk_next (s t : State) : answerOk s = .next t ↔ respond .ok s = t := by simp [answerOk]

@[simp] theorem takeFault_next (r : Raise) (s t : State) :
    takeFault r s = .next t ↔ respond .fault (enterFault r s) = t := by simp [takeFault]

@[simp] theorem refuseInFaulted_next (s t : State) : refuseInFaulted s = .next t ↔ respond .fault s = t := by
  simp [refuseInFaulted]

@[simp] theorem finish_ok (s : State) : finish (.ok s) = answerOk s := rfl

@[simp] theorem finish_error (s : State) : finish (.error s) = .next (respond .fault s) := rfl

/-- A fault entry is the state the claims name. -/
theorem respond_enterFault (r : Raise) (s : State) :
    respond .fault (enterFault r s) = faultEntry s r.code r.info := rfl

theorem takeFault_eq (r : Raise) (s : State) : takeFault r s = .next (faultEntry s r.code r.info) := rfl

/-! ### Stages -/

theorem andThen_eq_ok (f g : Stage) (s t : State) :
    f.andThen g s = .ok t ↔ ∃ u, f s = .ok u ∧ g u = .ok t := by
  simp only [Stage.andThen]
  cases f s <;> simp

theorem andThen_eq_error (f g : Stage) (s t : State) :
    f.andThen g s = .error t ↔ f s = .error t ∨ ∃ u, f s = .ok u ∧ g u = .error t := by
  simp only [Stage.andThen]
  cases f s <;> simp

@[simp] theorem raiseIn_eq (r : Raise) (s : State) : raiseIn r s = .error (enterFault r s) := rfl

/-- Everything the transform stage can do. -/
theorem fdctStage_cases (c : Fin 3) (s : State) :
    (∃ i, firstBot s.samp[c] = some i ∧
      fdctStage c s = .error (enterFault ⟨.uninit, infoBytes 0x10 (byteOf c.val) (byteOf i)⟩ s)) ∨
    (firstBot s.samp[c] = none ∧
      fdctStage c s = .ok { s with
        coef := s.coef.set c.val (transformBlock s.params s.strat s.draws s.samp[c]) c.isLt
        draws := s.draws + 64 }) := by
  unfold fdctStage
  cases h : firstBot s.samp[c] with
  | none => exact .inr ⟨rfl, rfl⟩
  | some i => exact .inl ⟨i, rfl, rfl⟩

/-- Everything the quantiser stage can do. -/
theorem qzzStage_cases (c : Fin 3) (s : State) :
    (∃ i, firstBot s.coef[c] = some i ∧
      qzzStage c s = .error (enterFault ⟨.uninit, infoBytes 0x11 (byteOf c.val) (byteOf i)⟩ s)) ∨
    (∃ r, firstBot s.coef[c] = none ∧ quantTableBot s c = some r ∧ qzzStage c s = .error (enterFault r s)) ∨
    (∃ i, firstBot s.coef[c] = none ∧ quantTableBot s c = none ∧ firstBot (quantBlock s c) = some i ∧
      qzzStage c s = .error (enterFault ⟨.qrange, infoBytes 0x11 (byteOf c.val) (byteOf i)⟩
        { s with draws := s.draws + 64 })) ∨
    (firstBot s.coef[c] = none ∧ quantTableBot s c = none ∧ firstBot (quantBlock s c) = none ∧
      qzzStage c s = .ok { s with
        zz := s.zz.set c.val (toZigzag (quantBlock s c)) c.isLt
        draws := s.draws + 64 }) := by
  unfold qzzStage
  cases h1 : firstBot s.coef[c] with
  | some i => exact .inl ⟨i, rfl, rfl⟩
  | none =>
    cases h2 : quantTableBot s c with
    | some r => exact .inr (.inl ⟨r, rfl, rfl, rfl⟩)
    | none =>
      cases h3 : firstBot (quantBlock s c) with
      | some i => exact .inr (.inr (.inl ⟨i, rfl, rfl, rfl, by simp [h3]⟩))
      | none => exact .inr (.inr (.inr ⟨rfl, rfl, rfl, by simp [h3]⟩))

/-- Everything the entropy coder's stage can do. -/
theorem encStage_cases (c : Fin 3) (s : State) :
    (∃ k, firstBot s.zz[c] = some k ∧
      encStage c s = .error (enterFault ⟨.uninit, infoBytes 0x12 (byteOf c.val) (byteOf k)⟩ s)) ∨
    (∃ r, firstBot s.zz[c] = none ∧ encodeBlock s c = .error r ∧
      encStage c s = .error (enterFault r (afterEncFault r s))) ∨
    (∃ p, firstBot s.zz[c] = none ∧ encodeBlock s c = .ok p ∧ encStage c s = .ok (encoded c p s)) := by
  unfold encStage
  cases h1 : firstBot s.zz[c] with
  | some k => exact .inl ⟨k, rfl, rfl⟩
  | none =>
    cases h2 : encodeBlock s c with
    | error r => exact .inr (.inl ⟨r, rfl, rfl, rfl⟩)
    | ok p => exact .inr (.inr ⟨p, rfl, rfl, rfl⟩)

/-- Everything the table builder's stage can do. -/
theorem hbuildStage_cases (s : State) :
    (∃ r, buildAll s.hspec = .error r ∧ hbuildStage s = .error (enterFault r s)) ∨
    (∃ tabs, buildAll s.hspec = .ok tabs ∧ hbuildStage s = .ok { s with ehuf := tabs, hvalid := true }) := by
  unfold hbuildStage
  cases h : buildAll s.hspec with
  | error r => exact .inl ⟨r, rfl, rfl⟩
  | ok tabs => exact .inr ⟨tabs, rfl, rfl⟩

/-- Everything the image declaration can do. -/
theorem declareImage_cases (w h : Half) (s : State) :
    ((w = 0 ∨ h = 0) ∧ declareImage w h s = .error (enterFault ⟨.precond, h ++ w⟩ s)) ∨
    (w ≠ 0 ∧ h ≠ 0 ∧ declareImage w h s = .ok { s with w := w, h := h, imgvalid := true }) := by
  unfold declareImage
  by_cases hz : w = 0 ∨ h = 0
  · exact .inl ⟨hz, if_pos hz⟩
  · exact .inr ⟨fun h0 => hz (.inl h0), fun h0 => hz (.inr h0), if_neg hz⟩

/-! ### The packer -/

/-- `drain` in terms of the bytes it takes from the top. -/
theorem drain_succ (n : Nat) (acc : Word) (out : List Byte) :
    drain (n + 1) acc out = drain n (acc <<< 8) (out ++ stuffed (acc.extractLsb' 24 8)) := rfl

/-- An appended group never changes what is already in `OUT`. -/
theorem drain_append (n : Nat) (acc : Word) (out : List Byte) : ∃ more, (drain n acc out).2 = out ++ more := by
  induction n generalizing acc out with
  | zero => exact ⟨[], by simp [drain]⟩
  | succ n ih =>
    obtain ⟨more, h⟩ := ih (acc <<< 8) (out ++ stuffed (acc.extractLsb' 24 8))
    exact ⟨stuffed (acc.extractLsb' 24 8) ++ more, by rw [drain_succ, h, List.append_assoc]⟩

theorem putBits_out (n v : Nat) (p : Packer) : ∃ more, (putBits n v p).out = p.out ++ more := by
  unfold putBits
  split
  · exact ⟨[], by simp⟩
  · exact drain_append _ _ _

theorem putBits_zero (v : Nat) (p : Packer) : putBits 0 v p = p := rfl

end Machine

end Sys2Proof
end

