-- ==== Sys2Proof/Laws/Dispatch.lean ====
section
/-! SUPPORT. What `exec` and `step` can do, said once: the checks in front of every command, then the command's own run. -/

namespace Sys2Proof.Machine

/-- A command's own run, what it does once its operands were found legal and the phase table accepted it. -/
def runOf : Instr → State → Out
  | .reset => fun s => answerOk (resetCore s)
  | .cfg level strat => fun s => answerOk (configure level strat s)
  | .hbuild => fun s => finish (hbuildStage s)
  | .img w h => fun s => finish (declareImage w h s)
  | .start => fun s => answerOk (openImage s)
  | .endImage pad => fun s => answerOk (closeImage pad s)
  | .rd sel c k d => runRead sel c k d
  | .ld buf c k value => fun s => answerOk (loadEntry buf (component c) (index64 k) value s)
  | .tile mx my => runTile mx my
  | .fdct c => fun s => finish (fdctStage (component c) s)
  | .qzz c => fun s => finish (qzzStage (component c) s)
  | .enc c => fun s => finish (encStage (component c) s)
  | .putbits n v => fun s => answerOk (s.withPacker (putBits n.toNat v.toNat s.packer))
  | .blk c => fun s => finish (blkStage (component c) s)
  | .mcu => fun s => finish (mcuStage s)

/-- Every command goes through the same checks. -/
theorem exec_eq_issue (i : Instr) (s : State) : exec i s = issue i s (runOf i) := by cases i <;> rfl

/-- A legal command that the phase table accepts does its own run. -/
theorem exec_accepted {i : Instr} {s : State} (hw : i.WellFormed) (ha : AcceptedByTable i s) :
    exec i s = runOf i s := by
  rw [exec_eq_issue, issue_accepted _ hw ha]

/-- Everything `exec` can do. -/
theorem exec_cases (i : Instr) (s : State) :
    (s.phase = .faulted ∧ ¬ (i.WellFormed ∧ AcceptedByTable i s) ∧
      exec i s = .next { s with responses := .fault :: s.responses }) ∨
    (s.phase ≠ .faulted ∧ ¬ i.WellFormed ∧ exec i s = .next (faultEntry s .illcmd i.upper)) ∨
    (s.phase ≠ .faulted ∧ i.WellFormed ∧ ¬ AcceptedByTable i s ∧ exec i s = .next (faultEntry s .seq i.upper)) ∨
    (i.WellFormed ∧ AcceptedByTable i s ∧ exec i s = runOf i s) := by
  rw [exec_eq_issue]
  exact issue_cases i s (runOf i)

/-! ### Operands -/

@[simp] theorem component_byteOf (c : Fin 3) : component (byteOf c.val) = c := by
  revert c; decide

@[simp] theorem index64_byteOf (i : Fin 64) : index64 (byteOf i.val) = i := by
  revert i; decide

@[simp] theorem index256_byteOf (i : Fin 256) : index256 (byteOf i.val) = i := by
  apply Fin.ext
  have := i.isLt
  simp only [index256, byteOf, BitVec.toNat_ofNat, Fin.val_ofNat]
  omega

@[simp] theorem classOf_byteOf (c : Fin 2) : classOf (byteOf c.val) = c := by
  revert c; decide

@[simp] theorem tableOf_byteOf (t : Fin 4) : tableOf (byteOf t.val) = t := by
  revert t; decide

theorem componentOk_byteOf (c : Fin 3) : componentOk (byteOf c.val) = true := by
  revert c; decide

theorem indexOk_byteOf (i : Fin 64) : indexOk (byteOf i.val) = true := by
  revert i; decide

/-! ### Steps -/

theorem step_waiting {s : State} (h : s.port = []) : step s = .next s := by simp [step, nextMove, h]

/-- A word that does not decode. -/
theorem step_illegal {s : State} {w : CommandWord} {rest : List HostMove} {e : DecodeError}
    (h : s.port = .command w :: rest) (hd : decode w = .error e) :
    step s = issueIllegal w { s with port := rest } := by
  simp only [step, nextMove, h, hd]

theorem step_resetInput {s : State} {rest : List HostMove} (h : s.port = .resetInput :: rest) :
    step s = .next (resetCore { s with port := rest }) := by
  simp only [step, nextMove, h]

theorem step_supplyImage {s : State} {cells : List Host.Cell} {rest : List HostMove}
    (h : s.port = .supplyImage cells :: rest) : step s = supplyImage cells { s with port := rest } := by
  simp only [step, nextMove, h]

end Sys2Proof.Machine
end

