-- ==== Sys2Proof/Laws/Memory.lean ====
section
/-! SUPPORT. The laws of the image memory: the canonical form is kept, a read after a write to the same address gives the
byte written, a write leaves every other address alone, and equal readings are equal data. -/

namespace Sys2Proof.Machine

@[simp] theorem Memory.read_nil (a : Nat) : Memory.read [] a = unlistedByte := rfl

@[simp] theorem Memory.wf_nil : Memory.wf [] = true := rfl

theorem Memory.wf_cons (b : Nat) (y : Byte) (m : Memory) :
    Memory.wf ((b, y) :: m) = true ↔ y ≠ unlistedByte ∧ Memory.above b m = true ∧ Memory.wf m = true := by
  simp [Memory.wf, and_assoc]

theorem Memory.above_mono {lo hi : Nat} (h : lo ≤ hi) {m : Memory} (ha : Memory.above hi m = true) :
    Memory.above lo m = true := by
  cases m with
  | nil => rfl
  | cons c m =>
    simp only [Memory.above, decide_eq_true_eq] at ha ⊢
    omega

/-- Below its first address a canonical memory reads as unlisted. -/
theorem Memory.read_above {lo : Nat} {m : Memory} (hw : m.wf = true) (ha : Memory.above lo m = true) {a : Nat}
    (h : a ≤ lo) : Memory.read m a = unlistedByte := by
  induction m generalizing lo with
  | nil => rfl
  | cons c m ih =>
    obtain ⟨b, y⟩ := c
    rw [Memory.wf_cons] at hw
    simp only [Memory.above, decide_eq_true_eq] at ha
    rw [Memory.read, if_neg (by omega)]
    exact ih hw.2.2 (Memory.above_mono (Nat.le_of_lt ha) hw.2.1) h

theorem Memory.above_cell {lo a : Nat} {x : Byte} {m : Memory} (h : lo < a) (ha : Memory.above lo m = true) :
    Memory.above lo (Memory.cell a x m) = true := by
  unfold Memory.cell
  split
  · exact ha
  · simpa [Memory.above] using h

theorem Memory.above_write {lo a : Nat} {x : Byte} {m : Memory} (h : lo < a) (ha : Memory.above lo m = true)
    (hw : m.wf = true) : Memory.above lo (Memory.write m a x) = true := by
  cases m with
  | nil => exact Memory.above_cell h ha
  | cons c m =>
    obtain ⟨b, y⟩ := c
    rw [Memory.wf_cons] at hw
    have hb : lo < b := by simpa [Memory.above] using ha
    rw [Memory.write]
    split
    · exact Memory.above_cell h ha
    · split
      · exact Memory.above_cell h (Memory.above_mono (Nat.le_of_lt hb) hw.2.1)
      · simpa [Memory.above] using hb

theorem Memory.wf_cell {a : Nat} {x : Byte} {m : Memory} (ha : Memory.above a m = true) (hw : m.wf = true) :
    (Memory.cell a x m).wf = true := by
  unfold Memory.cell
  split
  · exact hw
  · rename_i h
    exact (Memory.wf_cons a x m).2 ⟨h, ha, hw⟩

/-- A write keeps the canonical form. -/
theorem Memory.wf_write {m : Memory} (hw : m.wf = true) (a : Nat) (x : Byte) : (Memory.write m a x).wf = true := by
  induction m with
  | nil => exact Memory.wf_cell rfl rfl
  | cons c m ih =>
    obtain ⟨b, y⟩ := c
    have hw' := (Memory.wf_cons b y m).1 hw
    rw [Memory.write]
    split
    · exact Memory.wf_cell (by simpa [Memory.above]) hw
    · split
      · rename_i h; subst h
        exact Memory.wf_cell hw'.2.1 hw'.2.2
      · exact (Memory.wf_cons _ _ _).2 ⟨hw'.1, Memory.above_write (by omega) hw'.2.1 hw'.2.2, ih hw'.2.2⟩

theorem Memory.read_cell_same {a : Nat} {x : Byte} {m : Memory} (h : Memory.read m a = unlistedByte) :
    Memory.read (Memory.cell a x m) a = x := by
  unfold Memory.cell
  split
  · rename_i hx; rw [h, hx]
  · simp [Memory.read]

theorem Memory.read_cell_ne {a a' : Nat} {x : Byte} {m : Memory} (h : a' ≠ a) :
    Memory.read (Memory.cell a x m) a' = Memory.read m a' := by
  unfold Memory.cell
  split
  · rfl
  · rw [Memory.read, if_neg h]

/-- A read after a write to the same address gives the byte written. -/
theorem Memory.read_write_same {m : Memory} (hw : m.wf = true) (a : Nat) (x : Byte) :
    Memory.read (Memory.write m a x) a = x := by
  induction m with
  | nil => exact Memory.read_cell_same rfl
  | cons c m ih =>
    obtain ⟨b, y⟩ := c
    have hw' := (Memory.wf_cons b y m).1 hw
    rw [Memory.write]
    split
    · rename_i h
      exact Memory.read_cell_same (Memory.read_above hw (by simpa [Memory.above] using h) (Nat.le_refl a))
    · split
      · rename_i h; subst h
        exact Memory.read_cell_same (Memory.read_above hw'.2.2 hw'.2.1 (Nat.le_refl a))
      · rename_i h
        rw [Memory.read, if_neg h]
        exact ih hw'.2.2

/-- A write leaves every other address alone. -/
theorem Memory.read_write_ne (m : Memory) {a a' : Nat} (x : Byte) (h : a' ≠ a) :
    Memory.read (Memory.write m a x) a' = Memory.read m a' := by
  induction m with
  | nil => exact Memory.read_cell_ne h
  | cons c m ih =>
    obtain ⟨b, y⟩ := c
    rw [Memory.write]
    split
    · exact Memory.read_cell_ne h
    · split
      · rename_i hab; subst hab
        rw [Memory.read_cell_ne h, Memory.read, if_neg h]
      · rw [Memory.read, Memory.read, ih]

/-- A list of cells, whatever its order, gives a canonical memory. -/
theorem Memory.wf_ofCells (cells : List Host.Cell) : (Memory.ofCells cells).wf = true := by
  suffices h : ∀ m : Memory, m.wf = true →
      (cells.foldl (fun m c => Memory.write m c.1 c.2) m).wf = true from h [] rfl
  induction cells with
  | nil => exact fun m h => h
  | cons c rest ih => exact fun m h => ih _ (Memory.wf_write h c.1 c.2)

/-- Two canonical memories that read alike everywhere are the same list. -/
theorem Memory.ext_read {m m' : Memory} (hw : m.wf = true) (hw' : m'.wf = true)
    (h : ∀ a, Memory.read m a = Memory.read m' a) : m = m' := by
  induction m generalizing m' with
  | nil =>
    cases m' with
    | nil => rfl
    | cons c m' =>
      have := h c.1
      rw [Memory.read_nil, Memory.read, if_pos rfl] at this
      exact absurd this.symm ((Memory.wf_cons _ _ _).1 hw').1
  | cons c m ih =>
    obtain ⟨b, y⟩ := c
    have hc := (Memory.wf_cons b y m).1 hw
    cases m' with
    | nil =>
      have := h b
      rw [Memory.read_nil, Memory.read, if_pos rfl] at this
      exact absurd this hc.1
    | cons c' m' =>
      obtain ⟨b', y'⟩ := c'
      have hc' := (Memory.wf_cons b' y' m').1 hw'
      have hb := h b
      have hb' := h b'
      rw [Memory.read, if_pos rfl] at hb
      rw [Memory.read.eq_2 b' b' y' m', if_pos rfl] at hb'
      have hbb : b = b' := by
        rcases Nat.lt_trichotomy b b' with hlt | heq | hgt
        · rw [Memory.read, if_neg (by omega),
            Memory.read_above hc'.2.2 hc'.2.1 (Nat.le_of_lt hlt)] at hb
          exact absurd hb hc.1
        · exact heq
        · rw [Memory.read, if_neg (by omega),
            Memory.read_above hc.2.2 hc.2.1 (Nat.le_of_lt hgt)] at hb'
          exact absurd hb'.symm hc'.1
      subst hbb
      rw [Memory.read, if_pos rfl] at hb
      subst hb
      have : m = m' := by
        refine ih hc.2.2 hc'.2.2 fun a => ?_
        by_cases ha : a = b
        · subst ha
          rw [Memory.read_above hc.2.2 hc.2.1 (Nat.le_refl a), Memory.read_above hc'.2.2 hc'.2.1 (Nat.le_refl a)]
        · have := h a
          rwa [Memory.read, if_neg ha, Memory.read, if_neg ha] at this
      rw [this]

/-- The memory after reset is canonical. -/
theorem reset_img_wf : Memory.wf State.reset.img = true := rfl

/-- A byte inside the image space is read; outside it nothing is. -/
theorem memRead_inside {s : State} {a : Nat} (h : a < imageSize s) : memRead s a = .ok (Memory.read s.img a) := by
  simp [memRead, h]

theorem memRead_outside {s : State} {a : Nat} (h : ¬ a < imageSize s) : memRead s a = .error (.outsideImage a) := by
  simp [memRead, h]

end Sys2Proof.Machine
end

