-- ==== Sys2Proof/Laws/PerInstr.lean ====
section
/-! SUPPORT. Families of statements about the commands as syntax, one lemma per constructor of `Instr`. -/

namespace Sys2Proof.Laws

/-- The `OPC` column of 30_encoding.md R61. -/
def opcode : Instr → Byte
  | .reset => 0x00
  | .cfg _ _ => 0x01
  | .hbuild => 0x02
  | .img _ _ => 0x03
  | .start => 0x04
  | .endImage _ => 0x05
  | .rd _ _ _ _ => 0x06
  | .ld _ _ _ _ => 0x07
  | .tile _ _ => 0x08
  | .fdct _ => 0x10
  | .qzz _ => 0x11
  | .enc _ => 0x12
  | .putbits _ _ => 0x13
  | .blk _ => 0x14
  | .mcu => 0x15

theorem fieldOPC_packWord (opc a c i : Byte) (d : Word) : fieldOPC (packWord opc a c i d) = opc := by
  apply BitVec.eq_of_getLsbD_eq
  intro k hk
  simp only [fieldOPC, packWord, BitVec.getLsbD_extractLsb', BitVec.getLsbD_append]
  have h1 : ¬ 56 + k < 32 := by omega
  have h2 : ¬ 56 + k - 32 < 8 := by omega
  have h3 : ¬ 56 + k - 32 - 8 < 8 := by omega
  have h4 : ¬ 56 + k - 32 - 8 - 8 < 8 := by omega
  have h5 : 56 + k - 32 - 8 - 8 - 8 = k := by omega
  simp [hk, h1, h2, h3, h4, h5]

/-- The word of a command carries the command's opcode (30_encoding.md R61). -/
def EncodesOpcode.Statement (i : Instr) : Prop := fieldOPC (encode i) = opcode i

theorem EncodesOpcode.reset : EncodesOpcode.Statement .reset := fieldOPC_packWord ..
theorem EncodesOpcode.cfg (level : Half) (strat : Strategy) : EncodesOpcode.Statement (.cfg level strat) :=
  fieldOPC_packWord ..
theorem EncodesOpcode.hbuild : EncodesOpcode.Statement .hbuild := fieldOPC_packWord ..
theorem EncodesOpcode.img (w h : Half) : EncodesOpcode.Statement (.img w h) := fieldOPC_packWord ..
theorem EncodesOpcode.start : EncodesOpcode.Statement .start := fieldOPC_packWord ..
theorem EncodesOpcode.endImage (pad : Bool) : EncodesOpcode.Statement (.endImage pad) := fieldOPC_packWord ..
theorem EncodesOpcode.rd (sel : Selector) (c i : Byte) (d : Word) : EncodesOpcode.Statement (.rd sel c i d) :=
  fieldOPC_packWord ..
theorem EncodesOpcode.ld (buf : Buffer) (c i : Byte) (value : Word) : EncodesOpcode.Statement (.ld buf c i value) :=
  fieldOPC_packWord ..
theorem EncodesOpcode.tile (mx my : Half) : EncodesOpcode.Statement (.tile mx my) := fieldOPC_packWord ..
theorem EncodesOpcode.fdct (c : Byte) : EncodesOpcode.Statement (.fdct c) := fieldOPC_packWord ..
theorem EncodesOpcode.qzz (c : Byte) : EncodesOpcode.Statement (.qzz c) := fieldOPC_packWord ..
theorem EncodesOpcode.enc (c : Byte) : EncodesOpcode.Statement (.enc c) := fieldOPC_packWord ..
theorem EncodesOpcode.putbits (n : Byte) (v : Half) : EncodesOpcode.Statement (.putbits n v) := fieldOPC_packWord ..
theorem EncodesOpcode.blk (c : Byte) : EncodesOpcode.Statement (.blk c) := fieldOPC_packWord ..
theorem EncodesOpcode.mcu : EncodesOpcode.Statement .mcu := fieldOPC_packWord ..

end Sys2Proof.Laws
end

