-- ==== Sys2Proof/Laws/State.lean ====
section
/-! SUPPORT. The state updates, field by field: for each named update and each field, what the field is afterwards. Every
lemma is true by unfolding the update. -/

namespace Sys2Proof.Machine

/-! ### `respond` -/

@[simp] theorem respond_samp (r : Response) (s : State) : (respond r s).samp = s.samp := rfl
@[simp] theorem respond_coef (r : Response) (s : State) : (respond r s).coef = s.coef := rfl
@[simp] theorem respond_zz (r : Response) (s : State) : (respond r s).zz = s.zz := rfl
@[simp] theorem respond_level (r : Response) (s : State) : (respond r s).level = s.level := rfl
@[simp] theorem respond_strat (r : Response) (s : State) : (respond r s).strat = s.strat := rfl
@[simp] theorem respond_w (r : Response) (s : State) : (respond r s).w = s.w := rfl
@[simp] theorem respond_h (r : Response) (s : State) : (respond r s).h = s.h := rfl
@[simp] theorem respond_qtab (r : Response) (s : State) : (respond r s).qtab = s.qtab := rfl
@[simp] theorem respond_fscale (r : Response) (s : State) : (respond r s).fscale = s.fscale := rfl
@[simp] theorem respond_hspec (r : Response) (s : State) : (respond r s).hspec = s.hspec := rfl
@[simp] theorem respond_ehuf (r : Response) (s : State) : (respond r s).ehuf = s.ehuf := rfl
@[simp] theorem respond_pred (r : Response) (s : State) : (respond r s).pred = s.pred := rfl
@[simp] theorem respond_acc (r : Response) (s : State) : (respond r s).acc = s.acc := rfl
@[simp] theorem respond_cur (r : Response) (s : State) : (respond r s).cur = s.cur := rfl
@[simp] theorem respond_out (r : Response) (s : State) : (respond r s).out = s.out := rfl
@[simp] theorem respond_phase (r : Response) (s : State) : (respond r s).phase = s.phase := rfl
@[simp] theorem respond_nextc (r : Response) (s : State) : (respond r s).nextc = s.nextc := rfl
@[simp] theorem respond_mcucnt (r : Response) (s : State) : (respond r s).mcucnt = s.mcucnt := rfl
@[simp] theorem respond_qvalid (r : Response) (s : State) : (respond r s).qvalid = s.qvalid := rfl
@[simp] theorem respond_hvalid (r : Response) (s : State) : (respond r s).hvalid = s.hvalid := rfl
@[simp] theorem respond_imgvalid (r : Response) (s : State) : (respond r s).imgvalid = s.imgvalid := rfl
@[simp] theorem respond_fault (r : Response) (s : State) : (respond r s).fault = s.fault := rfl
@[simp] theorem respond_finfo (r : Response) (s : State) : (respond r s).finfo = s.finfo := rfl
@[simp] theorem respond_img (r : Response) (s : State) : (respond r s).img = s.img := rfl
@[simp] theorem respond_port (r : Response) (s : State) : (respond r s).port = s.port := rfl
@[simp] theorem respond_responses (r : Response) (s : State) : (respond r s).responses = r :: s.responses := rfl
@[simp] theorem respond_params (r : Response) (s : State) : (respond r s).params = s.params := rfl
@[simp] theorem respond_draws (r : Response) (s : State) : (respond r s).draws = s.draws := rfl

/-! ### `enterFault` -/

@[simp] theorem enterFault_samp (r : Raise) (s : State) : (enterFault r s).samp = s.samp := rfl
@[simp] theorem enterFault_coef (r : Raise) (s : State) : (enterFault r s).coef = s.coef := rfl
@[simp] theorem enterFault_zz (r : Raise) (s : State) : (enterFault r s).zz = s.zz := rfl
@[simp] theorem enterFault_level (r : Raise) (s : State) : (enterFault r s).level = s.level := rfl
@[simp] theorem enterFault_strat (r : Raise) (s : State) : (enterFault r s).strat = s.strat := rfl
@[simp] theorem enterFault_w (r : Raise) (s : State) : (enterFault r s).w = s.w := rfl
@[simp] theorem enterFault_h (r : Raise) (s : State) : (enterFault r s).h = s.h := rfl
@[simp] theorem enterFault_qtab (r : Raise) (s : State) : (enterFault r s).qtab = s.qtab := rfl
@[simp] theorem enterFault_fscale (r : Raise) (s : State) : (enterFault r s).fscale = s.fscale := rfl
@[simp] theorem enterFault_hspec (r : Raise) (s : State) : (enterFault r s).hspec = s.hspec := rfl
@[simp] theorem enterFault_ehuf (r : Raise) (s : State) : (enterFault r s).ehuf = s.ehuf := rfl
@[simp] theorem enterFault_pred (r : Raise) (s : State) : (enterFault r s).pred = s.pred := rfl
@[simp] theorem enterFault_acc (r : Raise) (s : State) : (enterFault r s).acc = s.acc := rfl
@[simp] theorem enterFault_cur (r : Raise) (s : State) : (enterFault r s).cur = s.cur := rfl
@[simp] theorem enterFault_out (r : Raise) (s : State) : (enterFault r s).out = s.out := rfl
@[simp] theorem enterFault_phase (r : Raise) (s : State) : (enterFault r s).phase = .faulted := rfl
@[simp] theorem enterFault_nextc (r : Raise) (s : State) : (enterFault r s).nextc = s.nextc := rfl
@[simp] theorem enterFault_mcucnt (r : Raise) (s : State) : (enterFault r s).mcucnt = s.mcucnt := rfl
@[simp] theorem enterFault_qvalid (r : Raise) (s : State) : (enterFault r s).qvalid = s.qvalid := rfl
@[simp] theorem enterFault_hvalid (r : Raise) (s : State) : (enterFault r s).hvalid = s.hvalid := rfl
@[simp] theorem enterFault_imgvalid (r : Raise) (s : State) : (enterFault r s).imgvalid = s.imgvalid := rfl
@[simp] theorem enterFault_fault (r : Raise) (s : State) : (enterFault r s).fault = r.code := rfl
@[simp] theorem enterFault_finfo (r : Raise) (s : State) : (enterFault r s).finfo = r.info := rfl
@[simp] theorem enterFault_img (r : Raise) (s : State) : (enterFault r s).img = s.img := rfl
@[simp] theorem enterFault_port (r : Raise) (s : State) : (enterFault r s).port = s.port := rfl
@[simp] theorem enterFault_responses (r : Raise) (s : State) : (enterFault r s).responses = s.responses := rfl
@[simp] theorem enterFault_params (r : Raise) (s : State) : (enterFault r s).params = s.params := rfl
@[simp] theorem enterFault_draws (r : Raise) (s : State) : (enterFault r s).draws = s.draws := rfl

/-! ### `loseStream` -/

@[simp] theorem loseStream_samp (s : State) : (loseStream s).samp = s.samp := rfl
@[simp] theorem loseStream_coef (s : State) : (loseStream s).coef = s.coef := rfl
@[simp] theorem loseStream_zz (s : State) : (loseStream s).zz = s.zz := rfl
@[simp] theorem loseStream_level (s : State) : (loseStream s).level = s.level := rfl
@[simp] theorem loseStream_strat (s : State) : (loseStream s).strat = s.strat := rfl
@[simp] theorem loseStream_w (s : State) : (loseStream s).w = s.w := rfl
@[simp] theorem loseStream_h (s : State) : (loseStream s).h = s.h := rfl
@[simp] theorem loseStream_qtab (s : State) : (loseStream s).qtab = s.qtab := rfl
@[simp] theorem loseStream_fscale (s : State) : (loseStream s).fscale = s.fscale := rfl
@[simp] theorem loseStream_hspec (s : State) : (loseStream s).hspec = s.hspec := rfl
@[simp] theorem loseStream_ehuf (s : State) : (loseStream s).ehuf = s.ehuf := rfl
@[simp] theorem loseStream_pred (s : State) : (loseStream s).pred = Config.lostPred s.draws := rfl
@[simp] theorem loseStream_acc (s : State) : (loseStream s).acc = Config.lostAcc s.draws := rfl
@[simp] theorem loseStream_cur (s : State) : (loseStream s).cur = Config.lostCur s.draws := rfl
@[simp] theorem loseStream_out (s : State) : (loseStream s).out = Config.lostOut s.draws := rfl
@[simp] theorem loseStream_phase (s : State) : (loseStream s).phase = s.phase := rfl
@[simp] theorem loseStream_nextc (s : State) : (loseStream s).nextc = s.nextc := rfl
@[simp] theorem loseStream_mcucnt (s : State) : (loseStream s).mcucnt = s.mcucnt := rfl
@[simp] theorem loseStream_qvalid (s : State) : (loseStream s).qvalid = s.qvalid := rfl
@[simp] theorem loseStream_hvalid (s : State) : (loseStream s).hvalid = s.hvalid := rfl
@[simp] theorem loseStream_imgvalid (s : State) : (loseStream s).imgvalid = s.imgvalid := rfl
@[simp] theorem loseStream_fault (s : State) : (loseStream s).fault = s.fault := rfl
@[simp] theorem loseStream_finfo (s : State) : (loseStream s).finfo = s.finfo := rfl
@[simp] theorem loseStream_img (s : State) : (loseStream s).img = s.img := rfl
@[simp] theorem loseStream_port (s : State) : (loseStream s).port = s.port := rfl
@[simp] theorem loseStream_responses (s : State) : (loseStream s).responses = s.responses := rfl
@[simp] theorem loseStream_params (s : State) : (loseStream s).params = s.params := rfl
@[simp] theorem loseStream_draws (s : State) : (loseStream s).draws = s.draws + 1 := rfl

/-! ### `withPacker` -/

@[simp] theorem withPacker_samp (s : State) (p : Packer) : (s.withPacker p).samp = s.samp := rfl
@[simp] theorem withPacker_coef (s : State) (p : Packer) : (s.withPacker p).coef = s.coef := rfl
@[simp] theorem withPacker_zz (s : State) (p : Packer) : (s.withPacker p).zz = s.zz := rfl
@[simp] theorem withPacker_level (s : State) (p : Packer) : (s.withPacker p).level = s.level := rfl
@[simp] theorem withPacker_strat (s : State) (p : Packer) : (s.withPacker p).strat = s.strat := rfl
@[simp] theorem withPacker_w (s : State) (p : Packer) : (s.withPacker p).w = s.w := rfl
@[simp] theorem withPacker_h (s : State) (p : Packer) : (s.withPacker p).h = s.h := rfl
@[simp] theorem withPacker_qtab (s : State) (p : Packer) : (s.withPacker p).qtab = s.qtab := rfl
@[simp] theorem withPacker_fscale (s : State) (p : Packer) : (s.withPacker p).fscale = s.fscale := rfl
@[simp] theorem withPacker_hspec (s : State) (p : Packer) : (s.withPacker p).hspec = s.hspec := rfl
@[simp] theorem withPacker_ehuf (s : State) (p : Packer) : (s.withPacker p).ehuf = s.ehuf := rfl
@[simp] theorem withPacker_pred (s : State) (p : Packer) : (s.withPacker p).pred = s.pred := rfl
@[simp] theorem withPacker_acc (s : State) (p : Packer) : (s.withPacker p).acc = p.acc := rfl
@[simp] theorem withPacker_cur (s : State) (p : Packer) : (s.withPacker p).cur = p.cur := rfl
@[simp] theorem withPacker_out (s : State) (p : Packer) : (s.withPacker p).out = p.out := rfl
@[simp] theorem withPacker_phase (s : State) (p : Packer) : (s.withPacker p).phase = s.phase := rfl
@[simp] theorem withPacker_nextc (s : State) (p : Packer) : (s.withPacker p).nextc = s.nextc := rfl
@[simp] theorem withPacker_mcucnt (s : State) (p : Packer) : (s.withPacker p).mcucnt = s.mcucnt := rfl
@[simp] theorem withPacker_qvalid (s : State) (p : Packer) : (s.withPacker p).qvalid = s.qvalid := rfl
@[simp] theorem withPacker_hvalid (s : State) (p : Packer) : (s.withPacker p).hvalid = s.hvalid := rfl
@[simp] theorem withPacker_imgvalid (s : State) (p : Packer) : (s.withPacker p).imgvalid = s.imgvalid := rfl
@[simp] theorem withPacker_fault (s : State) (p : Packer) : (s.withPacker p).fault = s.fault := rfl
@[simp] theorem withPacker_finfo (s : State) (p : Packer) : (s.withPacker p).finfo = s.finfo := rfl
@[simp] theorem withPacker_img (s : State) (p : Packer) : (s.withPacker p).img = s.img := rfl
@[simp] theorem withPacker_port (s : State) (p : Packer) : (s.withPacker p).port = s.port := rfl
@[simp] theorem withPacker_responses (s : State) (p : Packer) : (s.withPacker p).responses = s.responses := rfl
@[simp] theorem withPacker_params (s : State) (p : Packer) : (s.withPacker p).params = s.params := rfl
@[simp] theorem withPacker_draws (s : State) (p : Packer) : (s.withPacker p).draws = s.draws := rfl

/-! ### `resetCore` -/

@[simp] theorem resetCore_samp (s : State) : (resetCore s).samp = State.reset.samp := rfl
@[simp] theorem resetCore_coef (s : State) : (resetCore s).coef = State.reset.coef := rfl
@[simp] theorem resetCore_zz (s : State) : (resetCore s).zz = State.reset.zz := rfl
@[simp] theorem resetCore_level (s : State) : (resetCore s).level = State.reset.level := rfl
@[simp] theorem resetCore_strat (s : State) : (resetCore s).strat = State.reset.strat := rfl
@[simp] theorem resetCore_w (s : State) : (resetCore s).w = State.reset.w := rfl
@[simp] theorem resetCore_h (s : State) : (resetCore s).h = State.reset.h := rfl
@[simp] theorem resetCore_qtab (s : State) : (resetCore s).qtab = State.reset.qtab := rfl
@[simp] theorem resetCore_fscale (s : State) : (resetCore s).fscale = State.reset.fscale := rfl
@[simp] theorem resetCore_hspec (s : State) : (resetCore s).hspec = s.hspec := rfl
@[simp] theorem resetCore_ehuf (s : State) : (resetCore s).ehuf = State.reset.ehuf := rfl
@[simp] theorem resetCore_pred (s : State) : (resetCore s).pred = State.reset.pred := rfl
@[simp] theorem resetCore_acc (s : State) : (resetCore s).acc = State.reset.acc := rfl
@[simp] theorem resetCore_cur (s : State) : (resetCore s).cur = State.reset.cur := rfl
@[simp] theorem resetCore_out (s : State) : (resetCore s).out = State.reset.out := rfl
@[simp] theorem resetCore_phase (s : State) : (resetCore s).phase = State.reset.phase := rfl
@[simp] theorem resetCore_nextc (s : State) : (resetCore s).nextc = State.reset.nextc := rfl
@[simp] theorem resetCore_mcucnt (s : State) : (resetCore s).mcucnt = State.reset.mcucnt := rfl
@[simp] theorem resetCore_qvalid (s : State) : (resetCore s).qvalid = State.reset.qvalid := rfl
@[simp] theorem resetCore_hvalid (s : State) : (resetCore s).hvalid = State.reset.hvalid := rfl
@[simp] theorem resetCore_imgvalid (s : State) : (resetCore s).imgvalid = State.reset.imgvalid := rfl
@[simp] theorem resetCore_fault (s : State) : (resetCore s).fault = State.reset.fault := rfl
@[simp] theorem resetCore_finfo (s : State) : (resetCore s).finfo = State.reset.finfo := rfl
@[simp] theorem resetCore_img (s : State) : (resetCore s).img = s.img := rfl
@[simp] theorem resetCore_port (s : State) : (resetCore s).port = s.port := rfl
@[simp] theorem resetCore_responses (s : State) : (resetCore s).responses = s.responses := rfl
@[simp] theorem resetCore_params (s : State) : (resetCore s).params = s.params := rfl
@[simp] theorem resetCore_draws (s : State) : (resetCore s).draws = s.draws := rfl

/-! ### `openImage` -/

@[simp] theorem openImage_samp (s : State) : (openImage s).samp = s.samp := rfl
@[simp] theorem openImage_coef (s : State) : (openImage s).coef = s.coef := rfl
@[simp] theorem openImage_zz (s : State) : (openImage s).zz = s.zz := rfl
@[simp] theorem openImage_level (s : State) : (openImage s).level = s.level := rfl
@[simp] theorem openImage_strat (s : State) : (openImage s).strat = s.strat := rfl
@[simp] theorem openImage_w (s : State) : (openImage s).w = s.w := rfl
@[simp] theorem openImage_h (s : State) : (openImage s).h = s.h := rfl
@[simp] theorem openImage_qtab (s : State) : (openImage s).qtab = s.qtab := rfl
@[simp] theorem openImage_fscale (s : State) : (openImage s).fscale = s.fscale := rfl
@[simp] theorem openImage_hspec (s : State) : (openImage s).hspec = s.hspec := rfl
@[simp] theorem openImage_ehuf (s : State) : (openImage s).ehuf = s.ehuf := rfl
@[simp] theorem openImage_pred (s : State) : (openImage s).pred = Vector.replicate 3 0 := rfl
@[simp] theorem openImage_acc (s : State) : (openImage s).acc = 0 := rfl
@[simp] theorem openImage_cur (s : State) : (openImage s).cur = 0 := rfl
@[simp] theorem openImage_out (s : State) : (openImage s).out = [] := rfl
@[simp] theorem openImage_phase (s : State) : (openImage s).phase = .image := rfl
@[simp] theorem openImage_nextc (s : State) : (openImage s).nextc = 0 := rfl
@[simp] theorem openImage_mcucnt (s : State) : (openImage s).mcucnt = 0 := rfl
@[simp] theorem openImage_qvalid (s : State) : (openImage s).qvalid = s.qvalid := rfl
@[simp] theorem openImage_hvalid (s : State) : (openImage s).hvalid = s.hvalid := rfl
@[simp] theorem openImage_imgvalid (s : State) : (openImage s).imgvalid = s.imgvalid := rfl
@[simp] theorem openImage_fault (s : State) : (openImage s).fault = s.fault := rfl
@[simp] theorem openImage_finfo (s : State) : (openImage s).finfo = s.finfo := rfl
@[simp] theorem openImage_img (s : State) : (openImage s).img = s.img := rfl
@[simp] theorem openImage_port (s : State) : (openImage s).port = s.port := rfl
@[simp] theorem openImage_responses (s : State) : (openImage s).responses = s.responses := rfl
@[simp] theorem openImage_params (s : State) : (openImage s).params = s.params := rfl
@[simp] theorem openImage_draws (s : State) : (openImage s).draws = s.draws := rfl

/-! ### `configure` -/

@[simp] theorem configure_samp (level : Half) (strat : Strategy) (s : State) : (configure level strat s).samp = s.samp := rfl
@[simp] theorem configure_coef (level : Half) (strat : Strategy) (s : State) : (configure level strat s).coef = s.coef := rfl
@[simp] theorem configure_zz (level : Half) (strat : Strategy) (s : State) : (configure level strat s).zz = s.zz := rfl
@[simp] theorem configure_level (level : Half) (strat : Strategy) (s : State) : (configure level strat s).level = level := rfl
@[simp] theorem configure_strat (level : Half) (strat : Strategy) (s : State) : (configure level strat s).strat = strat := rfl
@[simp] theorem configure_w (level : Half) (strat : Strategy) (s : State) : (configure level strat s).w = s.w := rfl
@[simp] theorem configure_h (level : Half) (strat : Strategy) (s : State) : (configure level strat s).h = s.h := rfl
@[simp] theorem configure_qtab (level : Half) (strat : Strategy) (s : State) : (configure level strat s).qtab = tabulate (qtabOf level) := rfl
@[simp] theorem configure_fscale (level : Half) (strat : Strategy) (s : State) : (configure level strat s).fscale = if strat = .fast then tabulate (fscaleOf level) else s.fscale := rfl
@[simp] theorem configure_hspec (level : Half) (strat : Strategy) (s : State) : (configure level strat s).hspec = s.hspec := rfl
@[simp] theorem configure_ehuf (level : Half) (strat : Strategy) (s : State) : (configure level strat s).ehuf = s.ehuf := rfl
@[simp] theorem configure_pred (level : Half) (strat : Strategy) (s : State) : (configure level strat s).pred = s.pred := rfl
@[simp] theorem configure_acc (level : Half) (strat : Strategy) (s : State) : (configure level strat s).acc = s.acc := rfl
@[simp] theorem configure_cur (level : Half) (strat : Strategy) (s : State) : (configure level strat s).cur = s.cur := rfl
@[simp] theorem configure_out (level : Half) (strat : Strategy) (s : State) : (configure level strat s).out = s.out := rfl
@[simp] theorem configure_phase (level : Half) (strat : Strategy) (s : State) : (configure level strat s).phase = s.phase := rfl
@[simp] theorem configure_nextc (level : Half) (strat : Strategy) (s : State) : (configure level strat s).nextc = s.nextc := rfl
@[simp] theorem configure_mcucnt (level : Half) (strat : Strategy) (s : State) : (configure level strat s).mcucnt = s.mcucnt := rfl
@[simp] theorem configure_qvalid (level : Half) (strat : Strategy) (s : State) : (configure level strat s).qvalid = true := rfl
@[simp] theorem configure_hvalid (level : Half) (strat : Strategy) (s : State) : (configure level strat s).hvalid = s.hvalid := rfl
@[simp] theorem configure_imgvalid (level : Half) (strat : Strategy) (s : State) : (configure level strat s).imgvalid = s.imgvalid := rfl
@[simp] theorem configure_fault (level : Half) (strat : Strategy) (s : State) : (configure level strat s).fault = s.fault := rfl
@[simp] theorem configure_finfo (level : Half) (strat : Strategy) (s : State) : (configure level strat s).finfo = s.finfo := rfl
@[simp] theorem configure_img (level : Half) (strat : Strategy) (s : State) : (configure level strat s).img = s.img := rfl
@[simp] theorem configure_port (level : Half) (strat : Strategy) (s : State) : (configure level strat s).port = s.port := rfl
@[simp] theorem configure_responses (level : Half) (strat : Strategy) (s : State) : (configure level strat s).responses = s.responses := rfl
@[simp] theorem configure_params (level : Half) (strat : Strategy) (s : State) : (configure level strat s).params = s.params := rfl
@[simp] theorem configure_draws (level : Half) (strat : Strategy) (s : State) : (configure level strat s).draws = s.draws := rfl

/-! ### `encoded` -/

@[simp] theorem encoded_samp (c : Fin 3) (p : Packer) (s : State) : (encoded c p s).samp = s.samp := rfl
@[simp] theorem encoded_coef (c : Fin 3) (p : Packer) (s : State) : (encoded c p s).coef = s.coef := rfl
@[simp] theorem encoded_zz (c : Fin 3) (p : Packer) (s : State) : (encoded c p s).zz = s.zz := rfl
@[simp] theorem encoded_level (c : Fin 3) (p : Packer) (s : State) : (encoded c p s).level = s.level := rfl
@[simp] theorem encoded_strat (c : Fin 3) (p : Packer) (s : State) : (encoded c p s).strat = s.strat := rfl
@[simp] theorem encoded_w (c : Fin 3) (p : Packer) (s : State) : (encoded c p s).w = s.w := rfl
@[simp] theorem encoded_h (c : Fin 3) (p : Packer) (s : State) : (encoded c p s).h = s.h := rfl
@[simp] theorem encoded_qtab (c : Fin 3) (p : Packer) (s : State) : (encoded c p s).qtab = s.qtab := rfl
@[simp] theorem encoded_fscale (c : Fin 3) (p : Packer) (s : State) : (encoded c p s).fscale = s.fscale := rfl
@[simp] theorem encoded_hspec (c : Fin 3) (p : Packer) (s : State) : (encoded c p s).hspec = s.hspec := rfl
@[simp] theorem encoded_ehuf (c : Fin 3) (p : Packer) (s : State) : (encoded c p s).ehuf = s.ehuf := rfl
@[simp] theorem encoded_pred (c : Fin 3) (p : Packer) (s : State) : (encoded c p s).pred = s.pred.set c.val (s.zz[c][0].getD 0) c.isLt := rfl
@[simp] theorem encoded_acc (c : Fin 3) (p : Packer) (s : State) : (encoded c p s).acc = p.acc := rfl
@[simp] theorem encoded_cur (c : Fin 3) (p : Packer) (s : State) : (encoded c p s).cur = p.cur := rfl
@[simp] theorem encoded_out (c : Fin 3) (p : Packer) (s : State) : (encoded c p s).out = p.out := rfl
@[simp] theorem encoded_phase (c : Fin 3) (p : Packer) (s : State) : (encoded c p s).phase = s.phase := rfl
@[simp] theorem encoded_nextc (c : Fin 3) (p : Packer) (s : State) : (encoded c p s).nextc = s.nextc + 1 := rfl
@[simp] theorem encoded_mcucnt (c : Fin 3) (p : Packer) (s : State) : (encoded c p s).mcucnt = if c = 2 then s.mcucnt + 1 else s.mcucnt := rfl
@[simp] theorem encoded_qvalid (c : Fin 3) (p : Packer) (s : State) : (encoded c p s).qvalid = s.qvalid := rfl
@[simp] theorem encoded_hvalid (c : Fin 3) (p : Packer) (s : State) : (encoded c p s).hvalid = s.hvalid := rfl
@[simp] theorem encoded_imgvalid (c : Fin 3) (p : Packer) (s : State) : (encoded c p s).imgvalid = s.imgvalid := rfl
@[simp] theorem encoded_fault (c : Fin 3) (p : Packer) (s : State) : (encoded c p s).fault = s.fault := rfl
@[simp] theorem encoded_finfo (c : Fin 3) (p : Packer) (s : State) : (encoded c p s).finfo = s.finfo := rfl
@[simp] theorem encoded_img (c : Fin 3) (p : Packer) (s : State) : (encoded c p s).img = s.img := rfl
@[simp] theorem encoded_port (c : Fin 3) (p : Packer) (s : State) : (encoded c p s).port = s.port := rfl
@[simp] theorem encoded_responses (c : Fin 3) (p : Packer) (s : State) : (encoded c p s).responses = s.responses := rfl
@[simp] theorem encoded_params (c : Fin 3) (p : Packer) (s : State) : (encoded c p s).params = s.params := rfl
@[simp] theorem encoded_draws (c : Fin 3) (p : Packer) (s : State) : (encoded c p s).draws = s.draws := rfl

/-! ### The packer's view of the state -/

@[simp] theorem packer_acc (s : State) : s.packer.acc = s.acc := rfl
@[simp] theorem packer_cur (s : State) : s.packer.cur = s.cur := rfl
@[simp] theorem packer_out (s : State) : s.packer.out = s.out := rfl
@[simp] theorem packer_respond (r : Response) (s : State) : (respond r s).packer = s.packer := rfl
@[simp] theorem packer_enterFault (r : Raise) (s : State) : (enterFault r s).packer = s.packer := rfl
@[simp] theorem packer_withPacker (s : State) (p : Packer) : (s.withPacker p).packer = p := rfl
@[simp] theorem packer_encoded (c : Fin 3) (p : Packer) (s : State) : (encoded c p s).packer = p := rfl

end Sys2Proof.Machine
end

