-- ==== Sys2Proof/Tests/Slice0.lean ====
section
/-! SUPPORT. The model's own tests: ill-formed terms, words written out from the encoding tables, one or two vectors of
95_test_vectors.md for each command, and a witness for the hypotheses of each obligation. Every expected value is the
spec's. -/

namespace Sys2Proof.Tests

open Sys2Proof.Machine

-- One evaluation at a time: many at once would ask for more memory than the check gives.
set_option Elab.async false

/-! ### Small states -/

/-- The state a step answers with (reset where it does not). -/
def after : Out → State
  | .next t => t
  | _ => State.reset

/-- One command word from a state. -/
def runWord (w : Nat) (s : State) : State := after (step (s.withFetchWord 64 w))

/-- The datum of the last response. -/
def lastDatum (s : State) : Option Word :=
  match s.responses with
  | .data d :: _ => some d
  | .num _ d :: _ => some d
  | _ => none

/-- A block of `n` entries, `x` but where the list of (index, entry) names another. -/
def blockOf {α : Type} (n : Nat) (x : α) (l : List (Nat × α)) : Vector (Option α) n :=
  tabulate fun k => some ((l.lookup k.val).getD x)

/-- A table that gives the listed symbols (symbol, length, code) their codes and the others none. -/
def codesOf (l : List (Nat × HuffCode)) : Vector (Option HuffCode) 256 := blockOf 256 { si := 0, co := 0 } l

/-- A few codes of the standard tables, from 95_test_vectors.md section 4. -/
def fewCodes : HuffTables :=
  #v[codesOf [(0, ⟨2, 0b00⟩), (3, ⟨3, 0b100⟩)],
     codesOf [(0, ⟨4, 0b1010⟩), (0x01, ⟨2, 0b00⟩), (0xE1, ⟨16, 0b1111111111101011⟩), (0xF0, ⟨11, 0b11111111001⟩)],
     codesOf [(0, ⟨2, 0b00⟩), (3, ⟨3, 0b110⟩)],
     codesOf [(0, ⟨2, 0b00⟩)]]

/-- After `CFG level=3, strat=direct` (`QTAB` filled with 16), and with the few codes. -/
def idleReady : State :=
  { State.reset with
    level := 3
    qtab := Vector.replicate 2 (Vector.replicate 64 (some 16))
    ehuf := fewCodes
    qvalid := true
    hvalid := true }

/-- The same in phase `IMAGE`. -/
def fresh : State := { idleReady with phase := .image }

/-- The same under the fast strategy, every fused scale entry `1/128`. -/
def fastReady : State :=
  { idleReady with
    strat := .fast
    fscale := Vector.replicate 2 (Vector.replicate 64 (some (.real (Alg.ofFrac 1 128)))) }

/-- The state with a block of quantised coefficients in `ZZ[c]`. -/
def withZz (c : Fin 3) (l : List (Nat × Half)) (s : State) : State :=
  { s with zz := s.zz.set c.val (blockOf 64 0 l) c.isLt }

/-- The state with a block of coefficients in `COEF[c]`. -/
def withCoef (c : Fin 3) (l : List (Nat × NumValue)) (s : State) : State :=
  { s with coef := s.coef.set c.val (blockOf 64 (.real Alg.zero) l) c.isLt }

/-- The state with a block of equal samples in `SAMP[c]`. -/
def withSamples (c : Fin 3) (x : NumValue) (s : State) : State :=
  { s with samp := s.samp.set c.val (Vector.replicate 64 (some x)) c.isLt }

/-- An image of one size, all of it black but for the given bytes. -/
def withImage (w h : Half) (cells : List Host.Cell) (s : State) : State :=
  { s with w := w, h := h, imgvalid := true, img := Memory.ofCells cells }

/-! ### Ill-formed terms (30_encoding.md R62, R64 item 3, 10_state.md R27) -/

theorem test_wf_component : ¬ (Instr.fdct 3).WellFormed ∧ ¬ (Instr.qzz 3).WellFormed ∧ ¬ (Instr.enc 255).WellFormed ∧
    ¬ (Instr.blk 3).WellFormed ∧ (Instr.fdct 2).WellFormed := by decide

theorem test_wf_load : ¬ (Instr.ld .samp 3 0 0).WellFormed ∧ ¬ (Instr.ld .coef 0 64 0).WellFormed ∧
    ¬ (Instr.ld .zz 0 0 0x00010000).WellFormed ∧ (Instr.ld .samp 2 63 0xFFFFFFFF).WellFormed := by decide

theorem test_wf_putbits : ¬ (Instr.putbits 17 0).WellFormed ∧ (Instr.putbits 16 0xFFFF).WellFormed := by decide

theorem test_wf_read : ¬ (Instr.rd .status 1 0 0).WellFormed ∧ ¬ (Instr.rd .cur 0 1 0).WellFormed ∧
    ¬ (Instr.rd .pred 3 0 0).WellFormed ∧ ¬ (Instr.rd .outb 0 1 0).WellFormed ∧ ¬ (Instr.rd .samp 0 64 0).WellFormed ∧
    ¬ (Instr.rd .qtab 2 0 0).WellFormed ∧ ¬ (Instr.rd .ehuf 4 0 0).WellFormed ∧ ¬ (Instr.rd .hbits 0 16 0).WellFormed ∧
    ¬ (Instr.rd .hval 0 0 1).WellFormed ∧ (Instr.rd .ehuf 3 255 0).WellFormed := by decide

/-! ### Words written out from 30_encoding.md R60 to R62 -/

theorem test_decode_reset : decode 0x0000000000000000 = .ok .reset := by decide
theorem test_decode_cfg : decode 0x0101000000000003 = .ok (.cfg 3 .fast) := by decide
theorem test_decode_hbuild : decode 0x0200000000000000 = .ok .hbuild := by decide
theorem test_decode_img : decode 0x0300000000050009 = .ok (.img 9 5) := by decide
theorem test_decode_start : decode 0x0400000000000000 = .ok .start := by decide
theorem test_decode_end : decode 0x0501000000000000 = .ok (.endImage true) := by decide
theorem test_decode_rd : decode 0x061501F000000000 = .ok (.rd .ehuf 1 0xF0 0) := by decide
theorem test_decode_ld : decode 0x070200010000FFFD = .ok (.ld .zz 0 1 0xFFFD) := by decide
theorem test_decode_tile : decode 0x0800000000010002 = .ok (.tile 2 1) := by decide
theorem test_decode_fdct : decode 0x1000020000000000 = .ok (.fdct 2) := by decide
theorem test_decode_qzz : decode 0x1100010000000000 = .ok (.qzz 1) := by decide
theorem test_decode_enc : decode 0x1200000000000000 = .ok (.enc 0) := by decide
theorem test_decode_putbits : decode 0x13080000000000FF = .ok (.putbits 8 0xFF) := by decide
theorem test_decode_blk : decode 0x1400010000000000 = .ok (.blk 1) := by decide
theorem test_decode_mcu : decode 0x1500000000000000 = .ok .mcu := by decide

/-- Every reason of R64. -/
theorem test_decode_refuses :
    decode 0x0900000000000000 = .error .unassignedOpcode ∧ decode 0x1600000000000000 = .error .unassignedOpcode ∧
    decode 0x0000000000000001 = .error .unusedBits ∧ decode 0x0102000000000003 = .error .unusedBits ∧
    decode 0x0703000000000000 = .error .bufferCode ∧ decode 0x0609000000000000 = .error .reservedSelector ∧
    decode 0x1311000000000000 = .error .operandRange ∧ decode 0x1200030000000000 = .error .operandRange := by decide

theorem test_table_word : decodeTableWord 64 0x1500000000000000 = some .mcu ∧ decodeTableWord 64 0x0900000000000000 = none ∧
    decodeTableWord 64 0x0501000000000000 = some (.endImage true) := by decide

/-! ### One or two vectors of 95_test_vectors.md for each command -/

/-- V-F-17: `RESET` out of `FAULTED`. -/
theorem test_reset : (runWord 0 { fresh with phase := .faulted, fault := .zerolen, finfo := 0x10B }).phase = .idle ∧
    (runWord 0 { fresh with phase := .faulted, fault := .zerolen }).qvalid = false := by decide +kernel

/-- V-CFG-1. -/
theorem test_cfg_direct : statusWord (runWord 0x0100000000000003 State.reset) = 0x00030010 ∧
    (List.range 8).map (fun k => (runWord 0x0100000000000003 State.reset).qtab[(0 : Fin 2)].toList[k]?) =
      [16, 11, 12, 14, 12, 10, 16, 14].map (fun d => some (some d)) ∧
    (runWord 0x0100000000000003 State.reset).fscale[(0 : Fin 2)][(0 : Fin 64)] = none := by decide +kernel

/-- V-CFG-2: the binary32 patterns of `FSCALE[0][0]` and `FSCALE[0][1]`. -/
theorem test_cfg_fast :
    lastDatum (runWord 0x0614000000000000 (runWord 0x0101000000000003 State.reset)) = some 0x3C000000 ∧
    lastDatum (runWord 0x0614000100000000 (runWord 0x0101000000000003 State.reset)) = some 0x3C063AC8 := by
  decide +kernel

/-- V-HB-3 in every table: the length skips 4, the code is shifted twice. -/
theorem test_hbuild_skip :
    let s := runWord 0x0200000000000000
      { State.reset with hspec := Vector.replicate 4 (HuffSpec.ofLists [0, 0, 1, 0, 2] [9, 8, 7]) }
    s.hvalid = true ∧ s.ehuf[(2 : Fin 4)][(9 : Fin 256)] = some ⟨3, 0b000⟩ ∧
      s.ehuf[(2 : Fin 4)][(8 : Fin 256)] = some ⟨5, 0b00100⟩ ∧ s.ehuf[(2 : Fin 4)][(7 : Fin 256)] = some ⟨5, 0b00101⟩ ∧
      s.ehuf[(2 : Fin 4)][(6 : Fin 256)] = some ⟨0, 0⟩ := by decide +kernel

/-- V-HB-5 at table 2, and V-HB-8. -/
theorem test_hbuild_faults :
    let easy := HuffSpec.ofLists [2] [0, 1]
    let s := { State.reset with hspec := #v[easy, easy, HuffSpec.ofLists (List.replicate 15 0 ++ [257]) [], easy] }
    let u := { State.reset with hspec := #v[HuffSpec.ofLists [1, 1, 2] [5, 0, 5, 1], easy, easy, easy] }
    (runWord 0x0200000000000000 s).finfo = 0x00020101 ∧ (runWord 0x0200000000000000 s).fault = .huffovf ∧
      (runWord 0x0200000000000000 u).finfo = 0x00000205 ∧ (runWord 0x0200000000000000 u).fault = .huffspec := by
  decide +kernel

/-- V-TILE-1 and V-F-13. -/
theorem test_img : lastDatum (runWord 0x0602000000000000 (runWord 0x0300000000090009 State.reset)) = some 0x00090009 ∧
    statusWord (runWord 0x0300000000050000 State.reset) = 0x00000102 ∧
    (runWord 0x0300000000050000 State.reset).finfo = 0x00050000 := by decide +kernel

/-- V-S-2 and V-F-4. -/
theorem test_start : statusWord (runWord 0x0400000000000000 idleReady) = 0x00030031 ∧
    statusWord (runWord 0x0400000000000000 { idleReady with hvalid := false }) = 0x00030612 := by decide +kernel

/-- 95_test_vectors.md 2.6, `PAD1` from the end states of V-PB-2 and V-PB-3. -/
theorem test_end_pads :
    (runWord 0x0501000000000000 { fresh with acc := 0x80000000, cur := 1 }).out = [0xFF, 0x00] ∧
    (runWord 0x0501000000000000 { fresh with acc := 0xA0000000, cur := 3 }).out = [0xBF] := by decide +kernel

/-- V-F-12. -/
theorem test_end_incomplete : statusWord (runWord 0x0500000000000000 { fresh with nextc := 1 }) = 0x00030636 := by
  decide +kernel

/-- V-HB-1: `RD EHUF`, and V-S-12: a reserved selector. -/
theorem test_rd : lastDatum (runWord 0x061501F000000000 fresh) = some 0x000B07F9 ∧
    (runWord 0x0609000000000000 fresh).finfo = 0x06090000 := by decide +kernel

/-- V-S-6 and V-S-7. -/
theorem test_ld : lastDatum (runWord 0x0612000100000000 (runWord 0x070200010000FFFD State.reset)) = some 0xFFFFFFFD ∧
    (runWord 0x0612000200000000 (runWord 0x070200010000FFFD State.reset)).finfo = 0x00120002 := by decide +kernel

/-- V-S-8: a binary32 sample is the number it encodes. -/
theorem test_ld_number :
    (runWord 0x07000000C1E00000 State.reset).samp[(0 : Fin 3)][(0 : Fin 64)].bind
      (fun v => v.value .binary32) = some (Alg.ofInt (-28)) := by decide +kernel

/-- V-TILE-9 with V-COL-4, and V-TILE-6. -/
theorem test_tile :
    (runWord 0x0800000000000000 (withImage 1 1 [(0, 255)] State.reset)).samp[(0 : Fin 3)][(63 : Fin 64)] =
      some (.real (Alg.norm (Alg.ofFrac (-51755) 1000))) ∧
    (runWord 0x0800000000000002 (withImage 9 9 [] State.reset)).finfo = 0x08000000 := by decide +kernel

/-- V-TILE-4: clamping to the last row, `R` bytes at 216 to 237. -/
theorem test_tile_address : (List.range 64).map (pixelAddress (withImage 9 9 [] State.reset) 0 1) =
    (List.replicate 8 [216, 219, 222, 225, 228, 231, 234, 237]).flatten := by decide +kernel

/-- V-FDCT-1, both strategies. -/
theorem test_fdct :
    (runWord 0x1000000000000000 (withSamples 0 (.real (Alg.ofInt 16)) idleReady)).coef[(0 : Fin 3)][(0 : Fin 64)] =
      some (.real (Alg.ofInt 128)) ∧
    (runWord 0x1000000000000000 (withSamples 0 (.real (Alg.ofInt 16)) fastReady)).coef[(0 : Fin 3)][(0 : Fin 64)] =
      some (.real (Alg.ofInt 1024)) := by decide +kernel

/-- V-FDCT-7. -/
theorem test_fdct_uninit : (runWord 0x1000000000000000
    { idleReady with samp := idleReady.samp.set 0 ((Vector.replicate 64 (some (.real Alg.zero))).set 5 none) }).finfo =
      0x00100005 := by decide +kernel

/-- V-QD-3, V-QD-9 with its divisor 16 here (33/16 = 2.0625), V-QF-2: ties and the zig-zag position. -/
theorem test_qzz :
    let s := runWord 0x1100000000000000
      (withCoef 0 [(0, .real (Alg.ofInt (-40))), (8, .real (Alg.ofInt 33))] idleReady)
    s.zz[(0 : Fin 3)][(0 : Fin 64)] = some (-3) ∧ s.zz[(0 : Fin 3)][(2 : Fin 64)] = some 2 ∧
      (runWord 0x1100000000000000 (withCoef 0 [(0, .real (Alg.ofInt (-320)))] fastReady)).zz[(0 : Fin 3)][(0 : Fin 64)] =
        some (-2) := by decide +kernel

/-- V-QD-14 and V-QF-9. -/
theorem test_qzz_range :
    (runWord 0x1100000000000000 (withCoef 0 [(0, .real (Alg.ofInt 524280))] idleReady)).finfo = 0x00110000 ∧
    (runWord 0x1100000000000000 (withCoef 0 [(0, .real (Alg.ofInt (-2097280)))] fastReady)).fault = .qrange := by
  decide +kernel

/-- V-ENC-9: 62 zeros, three `ZRL`, no `EOB`, stuffing. -/
theorem test_enc :
    let s := runWord 0x1200000000000000 (withZz 0 [(63, 1)] fresh)
    s.out = [0x3F, 0xCF, 0xF9, 0xFF, 0x00, 0x3F, 0xFD] ∧ s.cur = 4 ∧ s.acc = 0x70000000 ∧ s.nextc = 1 := by decide +kernel

/-- V-ENC-F1 and V-ENC-F4. -/
theorem test_enc_faults : (runWord 0x1200000000000000 (withZz 0 [(1, 1024)] fresh)).finfo = 0x0000010B ∧
    (runWord 0x1200000000000000 (withZz 0 [(1, -32768)] fresh)).fault = .cat := by decide +kernel

/-- V-PB-7. -/
theorem test_putbits :
    let s := runWord 0x131000000000FFFF (runWord 0x130700000000007F fresh)
    s.out = [0xFF, 0x00, 0xFF, 0x00] ∧ s.cur = 7 ∧ s.acc = 0xFE000000 := by decide +kernel

/-- `BLK 0` of a black tile's luma, all samples zero here: V-ENC-1. -/
theorem test_blk :
    let s := runWord 0x1400000000000000 (withSamples 0 (.real Alg.zero) fresh)
    s.acc = 0x28000000 ∧ s.cur = 6 ∧ s.nextc = 1 := by decide +kernel

/-- V-S-10 as one `MCU` over zero samples. -/
theorem test_mcu :
    let s := runWord 0x1500000000000000
      (withSamples 0 (.real Alg.zero) (withSamples 1 (.real Alg.zero) (withSamples 2 (.real Alg.zero) fresh)))
    s.out = [0x28] ∧ s.cur = 6 ∧ s.acc = 0 ∧ s.mcucnt = 1 ∧ s.nextc = 0 := by decide +kernel

/-- V-F-1, V-F-15: the first fault stays. -/
theorem test_faulted_stays :
    statusWord (runWord 0x0100000000000003 (runWord 0x0900000000000000 State.reset)) = 0x00000702 ∧
    (runWord 0x0100000000000003 (runWord 0x0900000000000000 State.reset)).finfo = 0x09000000 := by decide +kernel

/-- The examples of 30_encoding.md R65, with the words of R61 and of 95_test_vectors.md. -/
theorem test_assembler :
    assemble .binary32 "CFG level=3, strat=direct ; x\nLD buf=Z, c=0, i=1, value=-3\nPUTBITS n=8, v=0xFF".toList =
      some [0x0100000000000003, 0x070200010000FFFD, 0x13080000000000FF] ∧
    assemble .binary32 "LD buf=S, c=0, i=0, value=-28.0".toList = some [0x07000000C1E00000] ∧
    assemble .binary32 "RD sel=OUTB, d=0".toList = some [0x0608000000000000] ∧
    assemble .binary32 "NOP".toList = none := by decide +kernel

/-- 46_session_commands.md R180 for a 9 x 8 image: two tiles. -/
theorem test_session : canonicalSession 3 .direct 9 8 false =
    [.reset, .cfg 3 .direct, .hbuild, .img 9 8, .start, .tile 0 0, .mcu, .tile 1 0, .mcu, .endImage false] := by
  decide +kernel

/-! ### Witnesses: what the obligations assume holds somewhere

One theorem per obligation that has hypotheses, all of them together; where an obligation has several clauses, one
conjunct per clause. -/

/-- Whether a step answers with a next state. -/
def isNextState : Out → Bool
  | .next _ => true
  | _ => false

theorem eq_after {o : Out} (h : isNextState o = true) : o = .next (after o) := by
  cases o <;> first | rfl | cases h

theorem accepted (i : Instr) (s : State) (h : accepts i s = true) : AcceptedByTable i s := (accepts_iff i s).1 h

theorem not_accepted (i : Instr) (s : State) (h : accepts i s = false) : ¬ AcceptedByTable i s :=
  (accepts_eq_false i s).1 h

/-- The host's moves still to come. -/
def withPort (moves : List HostMove) (s : State) : State := { s with port := moves }

/-- After V-ENC-F1. -/
def faultedState : State := { fresh with phase := .faulted, fault := .zerolen, finfo := 0x10B }

theorem legal_putbits : LegalWord 0x131000000000FFFF :=
  ⟨by decide, by decide, by decide, by decide, fun h => absurd h (by decide)⟩

theorem illegal_word : ¬ LegalWord 0x0900000000000000 ∧ ¬ LegalWord 0x1311000000000000 :=
  ⟨fun h => absurd h.1 (by decide), fun h => absurd (h.2.2.1 (by decide)) (by decide)⟩

theorem witness_DecodeOfEncode : (Instr.rd .hbits 3 15 0).WellFormed ∧ (Instr.ld .zz 2 63 0xFFFF).WellFormed ∧
    (Instr.putbits 16 0xFFFF).WellFormed ∧ (Instr.fdct 2).WellFormed := by decide

theorem witness_DecodingIsExact : decode 0x131000000000FFFF = .ok (.putbits 16 0xFFFF) ∧ LegalWord 0x131000000000FFFF :=
  ⟨by decide, legal_putbits⟩

theorem witness_IllegalCommandsFault :
    ((withPort [.command 0x0900000000000000] fresh).port = [.command 0x0900000000000000] ∧
      (withPort [.command 0x0900000000000000] fresh).phase ≠ .faulted ∧ ¬ LegalWord 0x0900000000000000) ∧
    (fresh.phase ≠ .faulted ∧ ¬ (Instr.ld .zz 0 64 0).WellFormed) ∧
    (fresh.phase ≠ .faulted ∧ fresh.out.length ≤ (0 : Word).toNat) ∧
    ((withImage 8 8 [] State.reset).phase ≠ .faulted ∧ (withImage 8 8 [] State.reset).imgvalid = true ∧
      ((withImage 8 8 [] State.reset).w.toNat ≤ 8 * (1 : Half).toNat ∨
        (withImage 8 8 [] State.reset).h.toNat ≤ 8 * (0 : Half).toNat)) :=
  ⟨⟨rfl, by decide, illegal_word.1⟩, by decide, by decide, by decide⟩

theorem witness_StepRunsDecodedCommand :
    (withPort [.command 0x131000000000FFFF] fresh).port = [.command 0x131000000000FFFF] ∧
    decode 0x131000000000FFFF = .ok (.putbits 16 0xFFFF) := ⟨rfl, by decide⟩

theorem witness_HostMoves : State.reset.port = [] ∧
    (withPort [.resetInput] fresh).port = [.resetInput] ∧
    ((withPort [.supplyImage [(3, 1), (3, 2)]] fresh).port = [.supplyImage [(3, 1), (3, 2)]] ∧
      (withPort [.supplyImage [(3, 1), (3, 2)]] fresh).phase = .image) ∧
    (withPort [.supplyImage [(3, 1), (3, 2)]] State.reset).phase ≠ .image ∧
    ([(3, 1), (3, 2)] : List Host.Cell) = [(3, 1)] ++ (3, 2) :: [] ∧ (∀ c ∈ ([] : List Host.Cell), c.1 ≠ 3) ∧
    (∀ c ∈ ([(3, 1), (3, 2)] : List Host.Cell), c.1 ≠ 4) := by decide

theorem witness_PhaseTable :
    (fresh.phase ≠ .faulted ∧ (Instr.cfg 3 .direct).WellFormed ∧ ¬ AcceptedByTable (.cfg 3 .direct) fresh) ∧
    (faultedState.phase = .faulted ∧ ¬ ((Instr.fdct 3).WellFormed ∧ AcceptedByTable (.fdct 3) faultedState) ∧
      ¬ (Instr.start.WellFormed ∧ AcceptedByTable .start faultedState)) ∧
    ((withPort [.command 0x1311000000000000] faultedState).phase = .faulted ∧
      (withPort [.command 0x1311000000000000] faultedState).port = [.command 0x1311000000000000] ∧
      ¬ LegalWord 0x1311000000000000) ∧
    (∃ t : State, (Instr.img 9 9).WellFormed ∧ AcceptedByTable (.img 9 9) State.reset ∧
      exec (.img 9 9) State.reset = .next t ∧ t.responses.head? ≠ some .fault) ∧
    (State.reset.phase ≠ .faulted ∧ State.reset.imgvalid = false) :=
  ⟨⟨by decide, by decide, not_accepted _ _ (by decide)⟩,
   ⟨by decide, fun h => absurd h.1 (by decide), fun h => not_accepted _ _ (by decide) h.2⟩,
   ⟨by decide, rfl, illegal_word.2⟩,
   ⟨_, by decide, accepted _ _ (by decide), eq_after (by decide), by decide⟩, by decide⟩

theorem witness_PhaseTransitions :
    (∃ t, exec .start idleReady = .next t ∧ idleReady.phase ≠ .faulted) ∧
    (idleReady.phase = .idle ∧ idleReady.qvalid = true ∧ idleReady.hvalid = true) ∧
    (fresh.phase = .image ∧ fresh.nextc = 0) := ⟨⟨_, eq_after (by decide), by decide⟩, by decide, by decide⟩

theorem witness_FaultedAcceptsOnlyThreeWords : faultedState.phase = .faulted ∧
    (withPort [.command 0] faultedState).port = [.command 0x0000000000000000] ∧
    (withPort [.command 0x0600000000000000] faultedState).port = [.command 0x0600000000000000] ∧
    (withPort [.command 0x0601000000000000] faultedState).port = [.command 0x0601000000000000] ∧
    (withPort [.command 0x0602000000000000] faultedState).port = [.command 0x0602000000000000] ∧
    (withPort [.resetInput] faultedState).port = [.resetInput] := by decide

theorem witness_FaultLeavesTheRest :
    (∃ t, State.reset.phase ≠ .faulted ∧ exec (.img 5 0) State.reset = .next t ∧ t.phase = .faulted ∧
      mnemonic (.img 5 0) ∉ ["ENC", "BLK", "MCU"]) ∧
    (∃ t, fresh.phase ≠ .faulted ∧ exec (.enc 0) (withZz 0 [(1, 1024)] fresh) = .next t ∧ t.phase = .faulted ∧
      mnemonic (.enc 0) = "ENC") :=
  ⟨⟨_, by decide, eq_after (by decide), by decide, by decide⟩,
   ⟨_, by decide, eq_after (by decide +kernel), by decide +kernel, by decide⟩⟩

theorem witness_RecordKeepsEveryFault :
    ∃ t, step (withPort [.command 0] { faultedState with responses := [.fault] }) = .next t ∧
      RunFaulted (withPort [.command 0] { faultedState with responses := [.fault] }) :=
  ⟨_, eq_after (by decide), List.mem_singleton.2 rfl⟩

theorem witness_ResetCommandAndInput : (withPort [.resetInput] fresh).port = [.resetInput] := rfl

theorem witness_StartOpensImage : (idleReady.phase = .idle ∧ idleReady.qvalid = true ∧ idleReady.hvalid = true) ∧
    (fresh.phase ≠ .faulted ∧ fresh.phase ≠ .idle) ∧ (State.reset.phase ≠ .faulted ∧ State.reset.qvalid = false) := by
  decide

theorem witness_EndClosesImage : fresh.phase = .image ∧ fresh.nextc = 0 ∧ PackerOk fresh.packer ∧ fresh.cur = 0 ∧
    PackerOk ({ fresh with acc := 0x80000000, cur := 1 } : State).packer := by unfold PackerOk; decide

theorem witness_PresetSelection : (4 : Half) ≠ 1 ∧ (4 : Half) ≠ 2 ∧ (4 : Half) ≠ 3 := by decide

theorem witness_CfgLoadsTables : State.reset.phase = .idle ∧ State.reset.qvalid = false := by decide

theorem witness_TablesFrozen : ∃ t, exec (.img 9 9) idleReady = .next t ∧ Instr.img 9 9 ≠ .reset ∧
    idleReady.qvalid = true ∧ idleReady.hvalid = true := ⟨_, eq_after (by decide), by decide⟩


theorem simpleSpec_sound : (HuffSpec.ofLists [2] [0, 1]).Fits ∧ (HuffSpec.ofLists [2] [0, 1]).Kraft ∧
    (HuffSpec.ofLists [2] [0, 1]).Distinct := by
  have hn : (HuffSpec.ofLists [2] [0, 1]).counts.sum = 2 := by decide +kernel
  refine ⟨by unfold HuffSpec.Fits; omega, fun l h1 h2 => ?_, fun j k hjk hk => ?_⟩
  · interval_cases l <;> decide +kernel
  · obtain ⟨rfl, rfl⟩ : j = 0 ∧ k = 1 := by omega
    decide +kernel

/-- Every table the same specification but table 0. -/
def withSpec (h : HuffSpec) : State :=
  { State.reset with hspec := #v[h, HuffSpec.ofLists [2] [0, 1], HuffSpec.ofLists [2] [0, 1], HuffSpec.ofLists [2] [0, 1]] }

theorem withSpec_hspec (h : HuffSpec) (t : Fin 4) :
    (withSpec h).hspec[t] = if t = 0 then h else HuffSpec.ofLists [2] [0, 1] := by
  fin_cases t <;> rfl

/-- Two codes of length 1 and the count of length 2 exactly used up, and its symbols. -/
theorem witness_HbuildBuildsCanonicalCodes :
    (withSpec (HuffSpec.ofLists [2] [0, 1])).phase = .idle ∧ (withSpec (HuffSpec.ofLists [2] [0, 1])).hvalid = false ∧
    (∀ t : Fin 4, (withSpec (HuffSpec.ofLists [2] [0, 1])).hspec[t].Fits ∧
      (withSpec (HuffSpec.ofLists [2] [0, 1])).hspec[t].Kraft ∧
      (withSpec (HuffSpec.ofLists [2] [0, 1])).hspec[t].Distinct) ∧
    1 < (withSpec (HuffSpec.ofLists [2] [0, 1])).hspec[(3 : Fin 4)].count 1 := by
  refine ⟨rfl, rfl, fun t => ?_, by decide +kernel⟩
  rw [withSpec_hspec, ite_self]
  exact simpleSpec_sound

theorem witness_HbuildOverflowFaults :
    (withSpec (HuffSpec.ofLists [257] [])).phase = .idle ∧ (withSpec (HuffSpec.ofLists [257] [])).hvalid = false ∧
    256 < (withSpec (HuffSpec.ofLists [257] [])).hspec[(0 : Fin 4)].counts.sum ∧
    (∀ t' : Fin 4, t'.val < (0 : Fin 4).val → (withSpec (HuffSpec.ofLists [257] [])).hspec[t'].Fits) :=
  ⟨rfl, rfl, by decide +kernel, fun _ h => absurd h (Nat.not_lt_zero _)⟩

theorem withSpec_fits (h : HuffSpec) (hf : h.Fits) (t : Fin 4) : (withSpec h).hspec[t].Fits := by
  rw [withSpec_hspec]
  split
  · exact hf
  · exact simpleSpec_sound.1

/-- V-HB-6: three codes of length 1; V-HB-8: the value 5 twice. -/
theorem witness_HbuildUnsoundSpecFaults :
    ((withSpec (HuffSpec.ofLists [3] [0, 1, 2])).phase = .idle ∧
      (withSpec (HuffSpec.ofLists [3] [0, 1, 2])).hvalid = false ∧
      (∀ t' : Fin 4, (withSpec (HuffSpec.ofLists [3] [0, 1, 2])).hspec[t'].Fits) ∧
      (∀ t' : Fin 4, t'.val < (0 : Fin 4).val → (withSpec (HuffSpec.ofLists [3] [0, 1, 2])).hspec[t'].Kraft ∧
        (withSpec (HuffSpec.ofLists [3] [0, 1, 2])).hspec[t'].Distinct) ∧
      2 ^ 1 < (withSpec (HuffSpec.ofLists [3] [0, 1, 2])).hspec[(0 : Fin 4)].used 1 ∧
      (∀ l' : Nat, 1 ≤ l' → l' < 1 → (withSpec (HuffSpec.ofLists [3] [0, 1, 2])).hspec[(0 : Fin 4)].used l' ≤ 2 ^ l')) ∧
    ((withSpec (HuffSpec.ofLists [1, 1, 2] [5, 0, 5, 1])).phase = .idle ∧
      (withSpec (HuffSpec.ofLists [1, 1, 2] [5, 0, 5, 1])).hvalid = false ∧
      (∀ t' : Fin 4, (withSpec (HuffSpec.ofLists [1, 1, 2] [5, 0, 5, 1])).hspec[t'].Fits) ∧
      (withSpec (HuffSpec.ofLists [1, 1, 2] [5, 0, 5, 1])).hspec[(0 : Fin 4)].Kraft ∧
      2 < (withSpec (HuffSpec.ofLists [1, 1, 2] [5, 0, 5, 1])).hspec[(0 : Fin 4)].counts.sum ∧
      (∃ j, j < 2 ∧ (withSpec (HuffSpec.ofLists [1, 1, 2] [5, 0, 5, 1])).hspec[(0 : Fin 4)].value j =
        (withSpec (HuffSpec.ofLists [1, 1, 2] [5, 0, 5, 1])).hspec[(0 : Fin 4)].value 2) ∧
      (∀ j' k' : Nat, j' < k' → k' < 2 →
        (withSpec (HuffSpec.ofLists [1, 1, 2] [5, 0, 5, 1])).hspec[(0 : Fin 4)].value j' ≠
          (withSpec (HuffSpec.ofLists [1, 1, 2] [5, 0, 5, 1])).hspec[(0 : Fin 4)].value k')) := by
  refine ⟨⟨rfl, rfl, withSpec_fits _ (by unfold HuffSpec.Fits; decide +kernel),
      fun _ h => absurd h (Nat.not_lt_zero _), by decide +kernel, fun l' h1 h2 => absurd h2 (by omega)⟩,
    ⟨rfl, rfl, withSpec_fits _ (by unfold HuffSpec.Fits; decide +kernel), fun l h1 h2 => ?_, by decide +kernel,
      ⟨0, by decide, by decide +kernel⟩, fun j k hj hk => ?_⟩⟩
  · interval_cases l <;> decide +kernel
  · obtain ⟨rfl, rfl⟩ : j = 0 ∧ k = 1 := by omega
    decide +kernel

theorem witness_HuffmanCodesPrefixFree : ∃ (u : State) (e e' : HuffCode),
    (withSpec (HuffSpec.ofLists [2] [0, 1])).phase = .idle ∧ (withSpec (HuffSpec.ofLists [2] [0, 1])).hvalid = false ∧
    exec .hbuild (withSpec (HuffSpec.ofLists [2] [0, 1])) = .next u ∧ u.hvalid = true ∧
    u.ehuf[(0 : Fin 4)][(0 : Fin 256)] = some e ∧ u.ehuf[(0 : Fin 4)][(1 : Fin 256)] = some e' ∧ 1 ≤ e.si.val ∧
    e.si.val ≤ e'.si.val :=
  ⟨after (exec .hbuild (withSpec (HuffSpec.ofLists [2] [0, 1]))), ⟨1, 0⟩, ⟨1, 1⟩, rfl, rfl,
    eq_after (by decide +kernel), by decide +kernel, by decide +kernel, by decide +kernel, by decide, by decide⟩

theorem witness_ImgDeclaresImage :
    (State.reset.phase = .idle ∧ (0xFFFF : Half) ≠ 0 ∧ (1 : Half) ≠ 0) ∧ ((0 : Half) = 0 ∨ (1 : Half) = 0) ∧
    fresh.phase = .image := by decide

/-- The last tile of a 9 x 9 image, and the two past it. -/
theorem witness_TileFillsSamples :
    (State.reset.phase ≠ .faulted ∧ State.reset.imgvalid = false) ∧
    ((withImage 9 9 [] State.reset).phase ≠ .faulted ∧ (withImage 9 9 [] State.reset).imgvalid = true ∧
      8 * (1 : Half).toNat < (withImage 9 9 [] State.reset).w.toNat ∧
      8 * (1 : Half).toNat < (withImage 9 9 [] State.reset).h.toNat) ∧
    (withImage 9 9 [] State.reset).w.toNat ≤ 8 * (2 : Half).toNat ∧
    (withImage 9 8 [] State.reset).h.toNat ≤ 8 * (1 : Half).toNat := by decide

theorem witness_TileStaysInsideImage : 8 * (8191 : Half).toNat < (withImage 65535 65535 [] State.reset).w.toNat ∧
    8 * (8191 : Half).toNat < (withImage 65535 65535 [] State.reset).h.toNat := by decide

theorem witness_LdWritesOneEntry : State.reset.phase ≠ .faulted ∧ (0xFFFF : Word).toNat < 2 ^ 16 := by decide

theorem witness_RdScalars : fresh.phase ≠ .faulted ∧
    ({ fresh with out := [0xFF, 0] } : State).out[(1 : Word).toNat]? = some 0 := by decide

/-- A state with every buffer filled. -/
def filled : State :=
  { fresh with
    samp := Vector.replicate 3 (Vector.replicate 64 (some (.real Alg.zero)))
    coef := Vector.replicate 3 (Vector.replicate 64 (some (.code 0xC1E00000)))
    zz := Vector.replicate 3 (Vector.replicate 64 (some 0xFFFD))
    fscale := fastReady.fscale }

theorem witness_RdEntries : filled.phase ≠ .faulted ∧
    filled.samp[(2 : Fin 3)][(63 : Fin 64)] = some (.real Alg.zero) ∧
    filled.coef[(2 : Fin 3)][(63 : Fin 64)] = some (.code 0xC1E00000) ∧
    filled.zz[(2 : Fin 3)][(63 : Fin 64)] = some 0xFFFD ∧ filled.qtab[(1 : Fin 2)][(63 : Fin 64)] = some 16 ∧
    filled.fscale[(1 : Fin 2)][(63 : Fin 64)] = some (.real (Alg.ofFrac 1 128)) ∧
    filled.ehuf[(3 : Fin 4)][(255 : Fin 256)] = some ⟨0, 0⟩ := by decide +kernel

/-- Entry 5 alone never written, and after reset none. -/
theorem witness_UninitialisedReadsFault :
    let s : State := { filled with
      samp := filled.samp.set 1 (filled.samp[1].set 5 none)
      coef := filled.coef.set 1 (filled.coef[1].set 5 none)
      zz := filled.zz.set 0 (filled.zz[0].set 5 none) }
    s.phase ≠ .faulted ∧ s.qvalid = true ∧ s.phase = .image ∧ s.nextc = 0 ∧
    (s.samp[(1 : Fin 3)][(5 : Fin 64)] = none ∧ ∀ j : Fin 64, j.val < 5 → s.samp[(1 : Fin 3)][j] ≠ none) ∧
    (s.coef[(1 : Fin 3)][(5 : Fin 64)] = none ∧ ∀ j : Fin 64, j.val < 5 → s.coef[(1 : Fin 3)][j] ≠ none) ∧
    (s.zz[(0 : Fin 3)][(5 : Fin 64)] = none ∧ ∀ j : Fin 64, j.val < 5 → s.zz[(0 : Fin 3)][j] ≠ none) ∧
    (State.reset.phase ≠ .faulted ∧ State.reset.qtab[(1 : Fin 2)][(63 : Fin 64)] = none ∧
      State.reset.fscale[(1 : Fin 2)][(63 : Fin 64)] = none ∧ State.reset.ehuf[(3 : Fin 4)][(255 : Fin 256)] = none) := by
  decide +kernel

/-- The infinity, the least subnormal and the largest finite pattern. -/
theorem witness_Binary32Port : ((0x7F800000 : Word).extractLsb' 23 8).toNat = 255 ∧
    decodeBinary32 0x00000001 = some (Alg.ofFrac 1 (2 ^ 149)) ∧
    decodeBinary32 0xFF7FFFFF = some (Alg.ofInt (-(2 ^ 128 - 2 ^ 104))) ∧ (0xFF7FFFFF : Word) ≠ 0x80000000 := by
  decide +kernel

/-! Zero blocks, as real numbers. -/

theorem toReal_zero : Alg.zero.toReal = 0 := by simp [Alg.toReal, Alg.zero, Alg.zeroOver]

theorem toReal_ofInt (n : Int) : (Alg.ofInt n).toReal = n := by simp [Alg.toReal, Alg.ofInt, Alg.ofFrac, Alg.den]

theorem zeroBlock (fmt : NumFormat) : BlockIs fmt (Vector.replicate 64 (some (.real Alg.zero))) fun _ => 0 :=
  fun i => ⟨.real Alg.zero, Alg.zero, by simp, rfl, toReal_zero⟩

theorem dctReal_zero (u v : Nat) : dctReal (fun _ => 0) u v = 0 := by simp [dctReal]

theorem roundAway_zero : roundAway 0 = 0 := by
  simp only [roundAway, le_refl, if_true, Int.floor_eq_iff]
  norm_num

theorem roundBiased_zero : roundBiased 0 = 0 := by
  have : ⌊(0 : ℝ) + 16384 + 0.5⌋ = 16384 := by
    rw [Int.floor_eq_iff]
    norm_num
  rw [roundBiased, this]
  norm_num

theorem quotientOk_zero (strat : Strategy) : QuotientOk strat 0 := by
  refine ⟨fun _ => by norm_num, ?_, ?_⟩ <;> cases strat <;> simp [roundBy, roundAway_zero, roundBiased_zero]

/-- All samples of all components zero, and ready to be coded. -/
def zeroImage (s : State) : State :=
  { s with samp := Vector.replicate 3 (Vector.replicate 64 (some (.real Alg.zero))) }

theorem zeroImage_samp (s : State) (c : Fin 3) :
    (zeroImage s).samp[c] = Vector.replicate 64 (some (.real Alg.zero)) := by
  fin_cases c <;> rfl

theorem witness_FdctDirect : (zeroImage fresh).phase ≠ .faulted ∧ (zeroImage fresh).qvalid = true ∧
    (zeroImage fresh).strat = .direct ∧ 0 ≤ (zeroImage fresh).params.epsDct ∧
    BlockIs (zeroImage fresh).params.fmt (zeroImage fresh).samp[(2 : Fin 3)] fun _ => 0 :=
  ⟨by decide, rfl, rfl, le_refl 0, zeroBlock _⟩

theorem witness_FdctFast : (zeroImage fastReady).phase ≠ .faulted ∧ (zeroImage fastReady).qvalid = true ∧
    (zeroImage fastReady).strat = .fast ∧ 0 ≤ (zeroImage fastReady).params.epsDct ∧
    BlockIs (zeroImage fastReady).params.fmt (zeroImage fastReady).samp[(2 : Fin 3)] fun _ => 0 :=
  ⟨by decide, rfl, rfl, le_refl 0, zeroBlock _⟩

/-- A positive infinity loaded as sample 63. -/
theorem witness_FdctOfNonFiniteSample :
    let s : State := { fresh with samp := Vector.replicate 3 (Vector.replicate 64 (some (.code 0x7F800000))) }
    s.phase ≠ .faulted ∧ s.qvalid = true ∧ allWritten s.samp[(1 : Fin 3)] ∧
      s.samp[(1 : Fin 3)][(63 : Fin 64)] = some (.code 0x7F800000) ∧
      (NumValue.code 0x7F800000).value s.params.fmt = none :=
  ⟨by decide, rfl, by unfold allWritten; decide +kernel, rfl, by decide +kernel⟩

theorem witness_FdctExactProperties : (zeroImage fresh).phase ≠ .faulted ∧ (zeroImage fresh).qvalid = true ∧
    (zeroImage fresh).params.epsDct = 0 ∧
    (BlockIs (zeroImage fresh).params.fmt (zeroImage fresh).samp[(2 : Fin 3)] fun _ => 0) ∧
    (zeroImage fresh).strat = .direct ∧ (∀ i, i < 64 → (fun _ => 0 : Nat → ℝ) i = 0) ∧
    (∀ i, i < 64 → |(fun _ => 0 : Nat → ℝ) i| ≤ 128) :=
  ⟨by decide, rfl, rfl, zeroBlock _, rfl, fun _ _ => rfl, fun _ _ => by norm_num⟩

theorem witness_FastScalingCancels : (1 : Byte) ≠ 0 ∧ (255 : Byte) ≠ 0 := by decide

/-- Zero, a quotient below the biased range, and the lowest tie inside it. -/
theorem witness_RoundingRules : 0 ≤ (Alg.ofInt 0).toReal + 16384 + 0.5 ∧
    (∀ n : ℕ, (Alg.ofInt 0).toReal ≠ -(n + 0.5)) ∧ (Alg.ofInt (-16385)).toReal + 16384 + 0.5 < 0 ∧
    ∃ q : Alg, q.toReal = -((16384 : ℕ) + 0.5) := by
  refine ⟨by rw [toReal_ofInt]; norm_num, fun n h => ?_, by rw [toReal_ofInt]; norm_num, Alg.ofFrac (-32769) 2, ?_⟩
  · rw [toReal_ofInt] at h
    have : (0 : ℝ) ≤ n := Nat.cast_nonneg n
    norm_num at h
    linarith
  · norm_num [Alg.toReal, Alg.ofFrac, Alg.den]

/-- Coefficients all zero. -/
def zeroCoef (s : State) : State :=
  { s with coef := Vector.replicate 3 (Vector.replicate 64 (some (.real Alg.zero))) }

theorem eq_zero_of_abs {e : ℝ} {eps : Rat} (heps : eps = 0) (h : |e| ≤ (eps : ℝ)) : e = 0 := by
  rw [heps, Rat.cast_zero] at h
  exact abs_eq_zero.1 (le_antisymm h (abs_nonneg e))

theorem witness_QzzDirect : (zeroCoef fresh).phase ≠ .faulted ∧ (zeroCoef fresh).qvalid = true ∧
    (zeroCoef fresh).strat = .direct ∧ 0 ≤ (zeroCoef fresh).params.epsQ ∧
    (BlockIs (zeroCoef fresh).params.fmt (zeroCoef fresh).coef[(1 : Fin 3)] fun _ => 0) ∧
    (DivisorsAre (zeroCoef fresh) (cls 1) fun _ => 16) ∧
    (∀ (i : Fin 64) (e : ℝ), |e| ≤ ((zeroCoef fresh).params.epsQ : ℝ) →
      QuotientOk .direct ((fun _ => 0 : Nat → ℝ) i.val / (((fun _ => 16 : Fin 64 → Byte) i).toNat : ℝ) + e)) := by
  refine ⟨by decide, rfl, rfl, le_refl 0, zeroBlock _, ⟨fun _ => (by decide : (16 : Byte) ≠ 0), ?_⟩, fun i e he => ?_⟩
  · show ∀ i : Fin 64, (zeroCoef fresh).qtab[cls 1][zzMap i] = some 16
    decide +kernel
  · rw [eq_zero_of_abs rfl he, zero_div, add_zero]
    exact quotientOk_zero _

theorem witness_QzzFast : (zeroCoef fastReady).phase ≠ .faulted ∧ (zeroCoef fastReady).qvalid = true ∧
    (zeroCoef fastReady).strat = .fast ∧ 0 ≤ (zeroCoef fastReady).params.epsQ ∧
    (BlockIs (zeroCoef fastReady).params.fmt (zeroCoef fastReady).coef[(1 : Fin 3)] fun _ => 0) ∧
    (BlockIs (zeroCoef fastReady).params.fmt (zeroCoef fastReady).fscale[cls 1] fun _ => 1 / 128) ∧
    (∀ (i : Fin 64) (e : ℝ), |e| ≤ ((zeroCoef fastReady).params.epsQ : ℝ) →
      QuotientOk .fast ((fun _ => 0 : Nat → ℝ) i.val * (fun _ => 1 / 128 : Nat → ℝ) i.val + e)) := by
  refine ⟨by decide, rfl, rfl, le_refl 0, zeroBlock _, fun i => ⟨.real (Alg.ofFrac 1 128), Alg.ofFrac 1 128, ?_, rfl, ?_⟩,
    fun i e he => ?_⟩
  · revert i
    decide +kernel
  · norm_num [Alg.toReal, Alg.ofFrac, Alg.den]
  · rw [eq_zero_of_abs rfl he, zero_mul, add_zero]
    exact quotientOk_zero _

/-- V-QD-14 at natural index 1: 524280 / 16 = 32767.5 rounds to 32768. -/
theorem witness_QzzRangeFaults :
    let s := withCoef 0 [(1, .real (Alg.ofInt 524280))] fresh
    let q : Fin 64 → Option ℝ := fun j => if j = 1 then some 32767.5 else some 0
    s.phase ≠ .faulted ∧ s.qvalid = true ∧ 0 ≤ s.params.epsQ ∧ allWritten s.coef[(0 : Fin 3)] ∧
    (∀ j : Fin 64, ∃ v : NumValue, s.coef[(0 : Fin 3)][j] = some v ∧
      (s.strat = .direct → ∃ d : Byte, d ≠ 0 ∧ s.qtab[cls 0][zzMap j] = some d ∧
        q j = (v.value s.params.fmt).map fun x => x.toReal / (d.toNat : ℝ)) ∧
      (s.strat = .fast → ∃ g : NumValue, s.fscale[cls 0][j] = some g ∧
        q j = (v.value s.params.fmt).bind fun x => (g.value s.params.fmt).map fun y => x.toReal * y.toReal)) ∧
    (∀ j : Fin 64, j.val < (1 : Fin 64).val → ∃ r, q j = some r ∧
      ∀ e : ℝ, |e| ≤ (s.params.epsQ : ℝ) → QuotientOk s.strat (r + e)) ∧
    (∀ r, q 1 = some r → ∀ e : ℝ, |e| ≤ (s.params.epsQ : ℝ) → ¬ QuotientOk s.strat (r + e)) := by
  intro s q
  have hc : ∀ j : Fin 64, s.coef[(0 : Fin 3)][j] =
      some (if j = 1 then .real (Alg.ofInt 524280) else .real Alg.zero) := by decide +kernel
  have hq : ∀ j : Fin 64, s.qtab[cls 0][zzMap j] = some 16 := by decide +kernel
  refine ⟨by decide, rfl, le_refl 0, fun j h => ?_, fun j => ⟨_, hc j, fun _ => ⟨16, by decide, hq j, ?_⟩,
    fun h => absurd h (by decide)⟩, fun j hj => ⟨0, ?_, fun e he => ?_⟩, fun r hr e he hok => ?_⟩
  · rw [hc] at h
    cases h
  · by_cases h : j = 1
    · simp only [q, h, if_true]
      show some (32767.5 : ℝ) = some ((Alg.ofInt 524280).toReal / ((16 : Byte).toNat : ℝ))
      rw [toReal_ofInt, show (16 : Byte).toNat = 16 from rfl]
      norm_num
    · simp only [q, h, if_false]
      show some (0 : ℝ) = some (Alg.zero.toReal / ((16 : Byte).toNat : ℝ))
      rw [toReal_zero, zero_div]
  · have : j ≠ 1 := fun h => absurd hj (by rw [h]; decide)
    simp only [q, this, if_false]
  · rw [eq_zero_of_abs rfl he, add_zero]
    exact quotientOk_zero _
  · obtain rfl : r = 32767.5 := by simpa [q] using hr.symm
    rw [eq_zero_of_abs rfl he, add_zero] at hok
    have h2 : roundAway 32767.5 ≤ 32767 := hok.2.2
    have : roundAway 32767.5 = 32768 := by
      rw [roundAway, if_pos (by norm_num), Int.floor_eq_iff]
      norm_num
    omega

theorem witness_MagnitudeAndCategory : (-1 : Int) ≠ 0 ∧ (0 : Int) < 1 ∧ (-1 : Int) < 0 ∧ (-65535 : Int) ≤ 65535 ∧
    (-32768 : Int) ≤ -32768 ∧ (-32768 : Int) ≤ 32767 := by decide

/-- Whether an item has a code and can be packed. -/
def codes (tabs : HuffTables) (it : Item) : Bool :=
  !(decide (it.table.val % 2 = 1) && decide (15 < it.cat)) &&
    match tabs[it.table].toList[it.sym]? with
    | some (some e) => e.si != 0
    | _ => false

theorem codable_of {tabs : HuffTables} {it : Item} (h : codes tabs it = true) : it.codable tabs := by
  simp only [codes, Bool.and_eq_true, Bool.not_eq_true', Bool.and_eq_false_iff, decide_eq_false_iff_not] at h
  obtain ⟨h1, h2⟩ := h
  refine ⟨fun h => h1.elim (fun h' => h' h.1) (fun h' => h' h.2), ?_⟩
  by_cases hl : it.sym < 256
  · rw [List.getElem?_eq_getElem (by rw [Vector.length_toList]; exact hl), Vector.getElem_toList] at h2
    cases he : tabs[it.table][it.sym] with
    | none => rw [he] at h2; cases h2
    | some e => rw [he] at h2; exact ⟨hl, e, he, by simpa using h2⟩
  · rw [List.getElem?_eq_none (by rw [Vector.length_toList]; omega)] at h2
    cases h2

theorem codable_list {tabs : HuffTables} {l : List Item} (h : l.all (codes tabs) = true) :
    ∀ it ∈ l, it.codable tabs := fun it hit => codable_of (List.all_eq_true.1 h it hit)

/-- The block of V-ENC-9, which has three `ZRL` and no `EOB`. -/
theorem witness_EncAppendsBlock :
    let s := withZz 0 [(63, 1)] fresh
    let z : Fin 64 → Half := fun k => if k = 63 then 1 else 0
    s.phase = .image ∧ s.nextc = 0 ∧ PackerOk s.packer ∧ (∀ k : Fin 64, s.zz[(0 : Fin 3)][k] = some (z k)) ∧
    (∀ it ∈ blockItems 0 (List.ofFn fun k => (z k).toInt) s.pred[(0 : Fin 3)].toInt, it.codable s.ehuf) :=
  ⟨rfl, rfl, by unfold PackerOk; decide, by decide +kernel, codable_list (by decide +kernel)⟩

/-- The blocks of V-ENC-F1 and V-ENC-F4: the DC item has a code, the AC item has none, or is too large. -/
theorem witness_EncFirstUncodableItemFaults :
    (let s := withZz 0 [(1, 1024)] fresh
     let z : Fin 64 → Half := fun k => if k = 1 then 1024 else 0
     s.phase = .image ∧ s.nextc = 0 ∧ (∀ k : Fin 64, s.zz[(0 : Fin 3)][k] = some (z k)) ∧
     blockItems 0 (List.ofFn fun k => (z k).toInt) s.pred[(0 : Fin 3)].toInt =
       [⟨0, 0, 0, 0, 0⟩] ++ ⟨1, 0x0B, 11, 1024, 1⟩ :: [⟨1, 0, 0, 0, 63⟩] ∧
     (∀ it ∈ ([⟨0, 0, 0, 0, 0⟩] : List Item), it.codable s.ehuf) ∧ ¬ Item.tooLarge ⟨1, 0x0B, 11, 1024, 1⟩ ∧
     (0x0B : Fin 256).val = 0x0B ∧ s.ehuf[(1 : Fin 4)][(0x0B : Fin 256)] = some ⟨0, 0⟩) ∧
    (let s := withZz 0 [(1, -32768)] fresh
     let z : Fin 64 → Half := fun k => if k = 1 then -32768 else 0
     s.phase = .image ∧ s.nextc = 0 ∧ (∀ k : Fin 64, s.zz[(0 : Fin 3)][k] = some (z k)) ∧
     blockItems 0 (List.ofFn fun k => (z k).toInt) s.pred[(0 : Fin 3)].toInt =
       [⟨0, 0, 0, 0, 0⟩] ++ ⟨1, 0x10, 16, 32767, 1⟩ :: [⟨1, 0, 0, 0, 63⟩] ∧
     (∀ it ∈ ([⟨0, 0, 0, 0, 0⟩] : List Item), it.codable s.ehuf) ∧ Item.tooLarge ⟨1, 0x10, 16, 32767, 1⟩) :=
  ⟨⟨rfl, rfl, by decide +kernel, by decide +kernel, codable_list (by decide +kernel),
      fun h => absurd h.2 (by decide), rfl, by decide +kernel⟩,
    ⟨rfl, rfl, by decide +kernel, by decide +kernel, codable_list (by decide +kernel), ⟨by decide, by decide⟩⟩⟩

theorem witness_PutbitsRegisters : fresh.phase = .image ∧ (0 : Byte).toNat ≤ 16 ∧ (16 : Byte).toNat ≤ 16 ∧
    (16 : Byte) ≠ 0 ∧ ({ fresh with cur := 7 } : State).cur.toNat ≤ 7 := by decide

theorem witness_PutbitsAppendsToStream : fresh.phase = .image ∧ (16 : Byte).toNat ≤ 16 ∧
    PackerOk ({ fresh with acc := 0xFE000000, cur := 7, out := [0xFF, 0] } : State).packer := by
  unfold PackerOk; decide

/-- The phases after the commands of a list, in a row. -/
def phases : State → List Instr → List Phase
  | _, [] => []
  | s, i :: rest =>
    match exec i s with
    | .next t => t.phase :: phases t rest
    | _ => []

theorem phases_cons {s : State} {i : Instr} {is : List Instr} {p : Phase} {ps : List Phase}
    (h : phases s (i :: is) = p :: ps) : ∃ t, exec i s = .next t ∧ t.phase = p ∧ phases t is = ps := by
  rw [phases] at h
  split at h
  · next t he =>
    cases h
    exact ⟨t, he, rfl, rfl⟩
  · cases h

/-- A block of zero samples; one never written, which `FDCT` faults on; one whose DC quotient is 32768, which `QZZ` does. -/
theorem witness_BlkIsThreeCommands :
    (let s := zeroImage fresh
     ∃ s1 s2 s3, s.phase = .image ∧ s.nextc = 0 ∧ s.qvalid = true ∧ exec (.fdct (byteOf (0 : Fin 3).val)) s = .next s1 ∧
       s1.phase ≠ .faulted ∧ exec (.qzz (byteOf (0 : Fin 3).val)) s1 = .next s2 ∧ s2.phase ≠ .faulted ∧
       exec (.enc (byteOf (0 : Fin 3).val)) s2 = .next s3) ∧
    (∃ s1, fresh.phase = .image ∧ fresh.nextc = 0 ∧ fresh.qvalid = true ∧
       exec (.fdct (byteOf (0 : Fin 3).val)) fresh = .next s1 ∧ s1.phase = .faulted) ∧
    (let s := withSamples 0 (.real (Alg.ofInt 65536)) fresh
     ∃ s1 s2, s.phase = .image ∧ s.nextc = 0 ∧ s.qvalid = true ∧ exec (.fdct (byteOf (0 : Fin 3).val)) s = .next s1 ∧
       s1.phase ≠ .faulted ∧ exec (.qzz (byteOf (0 : Fin 3).val)) s1 = .next s2 ∧ s2.phase = .faulted) := by
  refine ⟨?_, ?_, ?_⟩
  · obtain ⟨s1, h1, p1, h⟩ := phases_cons (s := zeroImage fresh) (i := .fdct (byteOf (0 : Fin 3).val))
      (is := [.qzz (byteOf (0 : Fin 3).val), .enc (byteOf (0 : Fin 3).val)]) (p := .image) (ps := [.image, .image])
      (by decide +kernel)
    obtain ⟨s2, h2, p2, h⟩ := phases_cons h
    obtain ⟨s3, h3, -, -⟩ := phases_cons h
    exact ⟨s1, s2, s3, rfl, rfl, rfl, h1, by rw [p1]; decide, h2, by rw [p2]; decide, h3⟩
  · exact ⟨_, rfl, rfl, rfl, eq_after (by decide +kernel), by decide +kernel⟩
  · obtain ⟨s1, h1, p1, h⟩ := phases_cons (s := withSamples 0 (.real (Alg.ofInt 65536)) fresh)
      (i := .fdct (byteOf (0 : Fin 3).val)) (is := [.qzz (byteOf (0 : Fin 3).val)]) (p := .image) (ps := [.faulted])
      (by decide +kernel)
    obtain ⟨s2, h2, p2, -⟩ := phases_cons h
    exact ⟨s1, s2, rfl, rfl, rfl, h1, by rw [p1]; decide, h2, p2⟩

theorem witness_McuIsThreeBlocks :
    (let s := zeroImage fresh
     ∃ s1 s2 s3, s.phase = .image ∧ s.nextc = 0 ∧ exec (.blk 0) s = .next s1 ∧ s1.phase ≠ .faulted ∧
       exec (.blk 1) s1 = .next s2 ∧ s2.phase ≠ .faulted ∧ exec (.blk 2) s2 = .next s3 ∧ s3.phase ≠ .faulted) ∧
    (∃ s1, exec (.blk 0) fresh = .next s1 ∧ s1.phase = .faulted) ∧
    (∃ s1 s2, exec (.blk 0) (withSamples 0 (.real Alg.zero) fresh) = .next s1 ∧ s1.phase ≠ .faulted ∧
       exec (.blk 1) s1 = .next s2 ∧ s2.phase = .faulted) := by
  refine ⟨?_, ⟨_, eq_after (by decide +kernel), by decide +kernel⟩, ?_⟩
  · obtain ⟨s1, h1, p1, h⟩ := phases_cons (s := zeroImage fresh) (i := .blk 0) (is := [.blk 1, .blk 2]) (p := .image)
      (ps := [.image, .image]) (by decide +kernel)
    obtain ⟨s2, h2, p2, h⟩ := phases_cons h
    obtain ⟨s3, h3, p3, -⟩ := phases_cons h
    exact ⟨s1, s2, s3, rfl, rfl, h1, by rw [p1]; decide, h2, by rw [p2]; decide, h3, by rw [p3]; decide⟩
  · obtain ⟨s1, h1, p1, h⟩ := phases_cons (s := withSamples 0 (.real Alg.zero) fresh) (i := .blk 0) (is := [.blk 1])
      (p := .image) (ps := [.faulted]) (by decide +kernel)
    obtain ⟨s2, h2, p2, -⟩ := phases_cons h
    exact ⟨s1, s2, h1, by rw [p1]; decide, h2, p2⟩

theorem witness_McuRunsUnitByUnit : ∃ t, (zeroImage fresh).params.epsDct = 0 ∧ (zeroImage fresh).params.epsQ = 0 ∧
    mcuStage (zeroImage fresh) = .ok t := by
  have h : (match mcuStage (zeroImage fresh) with | .ok _ => true | .error _ => false) = true := by decide +kernel
  cases hm : mcuStage (zeroImage fresh) with
  | ok t => exact ⟨t, rfl, rfl, rfl⟩
  | error t => rw [hm] at h; cases h

/-- Every component of the zero image is ready: its quotients are 0. -/
theorem zeroImage_ready (c : Fin 3) :
    BlockReady (zeroImage fresh) c (fun _ => 0) (fun _ => 16) (fun _ => 0) := by
  refine ⟨by rw [zeroImage_samp]; exact zeroBlock _, ⟨fun _ => (by decide : (16 : Byte) ≠ 0), ?_⟩, fun i => ?_,
    codable_list (by revert c; decide +kernel)⟩
  · show ∀ i : Fin 64, (zeroImage fresh).qtab[cls c][zzMap i] = some 16
    revert c
    decide +kernel
  · rw [dctReal_zero, zero_div]
    exact ⟨quotientOk_zero _, roundAway_zero.symm⟩

theorem witness_BlkEncodesBlock : (zeroImage fresh).phase = .image ∧ (zeroImage fresh).nextc = 0 ∧
    (zeroImage fresh).params.epsDct = 0 ∧ (zeroImage fresh).params.epsQ = 0 ∧ PackerOk (zeroImage fresh).packer ∧
    BlockReady (zeroImage fresh) 0 (fun _ => 0) (fun _ => 16) (fun _ => 0) :=
  ⟨rfl, rfl, rfl, rfl, by unfold PackerOk; decide, zeroImage_ready 0⟩

theorem witness_McuEncodesThreeBlocks : (zeroImage fresh).phase = .image ∧ (zeroImage fresh).nextc = 0 ∧
    (zeroImage fresh).params.epsDct = 0 ∧ (zeroImage fresh).params.epsQ = 0 ∧ PackerOk (zeroImage fresh).packer ∧
    ∀ c : Fin 3, BlockReady (zeroImage fresh) c (fun _ => 0) (fun _ => 16) (fun _ => 0) :=
  ⟨rfl, rfl, rfl, rfl, by unfold PackerOk; decide, zeroImage_ready⟩

theorem witness_StepKeepsPackerInv :
    ∃ t, PackerInv (withPort [.command 0x131000000000FFFF] fresh) ∧
      step (withPort [.command 0x131000000000FFFF] fresh) = .next t :=
  ⟨_, fun _ => by unfold PackerOk; decide, eq_after (by decide +kernel)⟩

theorem witness_StepKeepsInvariants :
    let s := withPort [.command 0x0300000000090009] { State.reset with img := [(5, 1)] }
    ∃ t, step s = .next t ∧ MemoryCanonical s ∧ QuantInv s ∧ HuffInv s ∧ SequenceInv s :=
  ⟨_, eq_after (by decide +kernel), by unfold MemoryCanonical; decide, fun h => absurd h (by decide),
    fun h => absurd h (by decide), fun h => absurd h (by decide), fun h => absurd h (by decide), by decide⟩

/-- The invariants of the tables where they are whole. -/
theorem witness_InvariantTables : (QuantInv fresh ∧ fresh.qvalid = true) ∧
    (QuantInv fastReady ∧ fastReady.qvalid = true ∧ fastReady.strat = .fast) ∧
    (let s : State := { fresh with ehuf := Vector.replicate 4 (Vector.replicate 256 (some ⟨1, 1⟩)) }
     HuffInv s ∧ s.hvalid = true) := by
  have h (s : State) (hq : ∀ cl : Fin 2, ∀ k : Fin 64, s.qtab[cl][k] = some 16)
      (hf : s.strat = .fast → ∀ cl : Fin 2, allWritten s.fscale[cl]) : QuantInv s :=
    fun _ => ⟨fun cl k => ⟨16, hq cl k, by decide⟩, hf⟩
  exact ⟨⟨h _ (by decide +kernel) fun h => absurd h (by decide), rfl⟩,
    ⟨h _ (by decide +kernel) fun _ => by unfold allWritten; decide +kernel, rfl, rfl⟩,
    fun _ t k => ⟨⟨1, 1⟩, by simp, by decide⟩, rfl⟩

theorem witness_CommandsWriteOnlyTheirPieces :
    ∃ t, exec (.putbits 16 0xFFFF) fresh = .next t ∧ Instr.putbits 16 0xFFFF ≠ .reset ∧
      mnemonic (.putbits 16 0xFFFF) ∉ Piece.zz.writers ∧ Piece.zz ≠ .phase ∧ Piece.zz ≠ .faultRegisters ∧
      mnemonic (.putbits 16 0xFFFF) ∉ Piece.phase.writers :=
  ⟨_, eq_after (by decide +kernel), by decide⟩

theorem witness_OutputGrowsAndPredictorsPersist :
    ∃ t, exec (.putbits 16 0xFFFF) fresh = .next t ∧ Instr.putbits 16 0xFFFF ≠ .reset ∧
      Instr.putbits 16 0xFFFF ≠ .start ∧ t.phase ≠ .faulted ∧ Instr.putbits 16 0xFFFF ≠ .enc (byteOf (2 : Fin 3).val) ∧
      Instr.putbits 16 0xFFFF ≠ .blk (byteOf (2 : Fin 3).val) ∧ Instr.putbits 16 0xFFFF ≠ .mcu :=
  ⟨_, eq_after (by decide +kernel), by decide, by decide, by decide +kernel, by decide, by decide, by decide⟩

theorem witness_CanonicalSessionTiles : (9 : Half) ≠ 0 ∧ (8 : Half) ≠ 0 ∧ 1 < (rasterTiles 9 8).length := by
  decide +kernel

end Sys2Proof.Tests
end

section
/-! SUPPORT. Proofs about one step of the machine (00_scope.md R2). -/

namespace Sys2Proof.Machine

/-- A presented word that decodes, beside `step_illegal` for one that does not. -/
theorem step_decoded {s : State} {w : CommandWord} {rest : List HostMove} {i : Instr}
    (hport : s.port = .command w :: rest) (hdec : decode w = .ok i) :
    step s = exec i { s with port := rest } := by
  simp only [step, nextMove, hport, hdec]

/-- Settles O5: `step_decoded`, the decoded case of a step. -/
theorem stepRunsDecodedCommand : Obligations.StepRunsDecodedCommand :=
  fun _ _ _ _ hport hdec => step_decoded hport hdec

end Sys2Proof.Machine
end

section
/-! SUPPORT. The state after reset (10_state.md R30) and what `RD` returns (R27, 46_session_commands.md R176): the layout of
`STATUS`, the scalar registers, the entries of the buffers and the tables. -/

namespace Sys2Proof.Machine

/-! ### Reset -/

/-- Settles O13: each row of R30 is a field of `State.reset`, and `HSPEC` is the standard table itself. -/
theorem resetState : Obligations.ResetState := by
  refine ⟨?_, by decide, fun t => ⟨rfl, fun k _ => rfl⟩⟩
  simp [CoreReset, State.reset]

/-- Settles O55: no valid flag is set, so the table invariants ask for nothing; the packer and the memory are empty. -/
theorem invariantsAtReset : Obligations.InvariantsAtReset := by
  have hseq : SequenceInv State.reset := by simp [SequenceInv, State.reset]
  exact ⟨reset_img_wf, fun _ => ⟨by decide, by decide, rfl⟩, fun h => Bool.noConfusion h, fun h => Bool.noConfusion h, hseq⟩

/-! ### The fields of `STATUS` -/

theorem statusWord_level (s : State) : (statusWord s).extractLsb' 16 16 = s.level := by
  simp (disch := decide) only [statusWord, BitVec.extractLsb'_append_eq_of_le]
  simp

theorem statusWord_fault (s : State) : (statusWord s).extractLsb' 8 8 = s.fault.code := by
  simp (disch := decide) only [statusWord, BitVec.extractLsb'_append_eq_of_le, BitVec.extractLsb'_append_eq_of_add_le]
  simp

theorem statusWord_strat (s : State) : (statusWord s).getLsbD 7 = true ↔ s.strat = .fast := by
  simp only [statusWord, BitVec.getLsbD_append]
  cases s.strat <;> simp [Strategy.bit]

theorem statusWord_imgvalid (s : State) : (statusWord s).getLsbD 6 = s.imgvalid := by
  simp only [statusWord, BitVec.getLsbD_append]
  simp

theorem statusWord_hvalid (s : State) : (statusWord s).getLsbD 5 = s.hvalid := by
  simp only [statusWord, BitVec.getLsbD_append]
  simp

theorem statusWord_qvalid (s : State) : (statusWord s).getLsbD 4 = s.qvalid := by
  simp only [statusWord, BitVec.getLsbD_append]
  simp

theorem statusWord_nextc (s : State) : (statusWord s).extractLsb' 2 2 = nextcBits s.nextc := by
  simp (disch := decide) only [statusWord, BitVec.extractLsb'_append_eq_of_le, BitVec.extractLsb'_append_eq_of_add_le]
  simp

theorem statusWord_phase (s : State) : (statusWord s).extractLsb' 0 2 = s.phase.code := by
  simp (disch := decide) only [statusWord, BitVec.extractLsb'_append_eq_of_add_le]
  simp

theorem toNat_nextcBits (c : Fin 3) : (nextcBits c).toNat = c.val := by
  revert c; decide

/-! ### One read -/

/-- A legal `RD` that the phase table accepts and whose selector has a datum answers it and writes nothing else. -/
theorem exec_rd_ok {sel : Selector} {c i : Byte} {d : Word} {s : State} {r : Response}
    (hw : (Instr.rd sel c i d).WellFormed) (ha : AcceptedByTable (.rd sel c i d) s)
    (hr : readSelector sel c i d s = .ok r) :
    exec (.rd sel c i d) s = .next { s with responses := r :: s.responses } := by
  rw [exec_accepted hw ha]
  simp only [runOf, runRead, hr]
  rfl

/-- Outside `FAULTED` every read is accepted. -/
theorem acceptedByTable_rd {s : State} (hp : s.phase ≠ .faulted) (sel : Selector) (c i : Byte) (d : Word) :
    AcceptedByTable (.rd sel c i d) s := .inl hp

/-- `STATUS` and `FINFO` are readable in every phase (10_state.md R27). -/
theorem acceptedByTable_rd_always {sel : Selector} (h : sel = .status ∨ sel = .finfo) (c i : Byte) (d : Word)
    (s : State) : AcceptedByTable (.rd sel c i d) s := by
  by_cases hp : s.phase = .faulted
  · exact .inr ⟨hp, h⟩
  · exact .inl hp

/-- `exec_rd_ok` for a selector of entries, where the entry has been written. -/
theorem exec_rd_entry {α : Type} {sel : Selector} {c i : Byte} {d : Word} {s : State} {entry : Option α}
    {answer : α → Response} {x : α} (hw : (Instr.rd sel c i d).WellFormed) (ha : AcceptedByTable (.rd sel c i d) s)
    (hr : readSelector sel c i d s = readEntry sel c i entry answer) (hx : entry = some x) :
    exec (.rd sel c i d) s = .next { s with responses := answer x :: s.responses } :=
  exec_rd_ok hw ha (by rw [hr, hx, readEntry])

theorem exec_rd_status (s : State) :
    exec (.rd .status 0 0 0) s = .next { s with responses := .data (statusWord s) :: s.responses } :=
  exec_rd_ok rfl (acceptedByTable_rd_always (.inl rfl) ..) rfl

/-- Settles O30: the datum is `statusWord`, whose fields are read off one by one. -/
theorem statusLayout : Obligations.StatusLayout := by
  intro s
  refine ⟨statusWord s, exec_rd_status s, statusWord_level s, ?_, statusWord_strat s, statusWord_imgvalid s,
    statusWord_hvalid s, statusWord_qvalid s, ?_, ?_⟩
  · rw [statusWord_fault]
    cases s.fault <;> rfl
  · rw [statusWord_nextc, toNat_nextcBits]
  · rw [statusWord_phase]
    cases s.phase <;> rfl

/-! ### The scalar registers -/

theorem toInt_sext (x : Half) : (sext x).toInt = x.toInt := BitVec.toInt_signExtend_of_le (by decide)

theorem toNat_append_half (a b : Half) : (a ++ b).toNat = a.toNat * 65536 + b.toNat := by
  rw [BitVec.toNat_append, ← Nat.shiftLeft_add_eq_or_of_lt b.isLt, Nat.shiftLeft_eq]

/-- Settles O31: each selector's datum by `exec_rd_ok`, beside the width facts. -/
theorem rdScalars : Obligations.RdScalars := by
  intro s
  refine ⟨s.finfo, s.h ++ s.w, s.mcucnt, s.acc, s.cur.setWidth 32, BitVec.ofNat 32 s.out.length,
    exec_rd_ok rfl (acceptedByTable_rd_always (.inr rfl) ..) rfl, rfl, fun hp => ?_⟩
  have ha := acceptedByTable_rd hp
  refine ⟨exec_rd_ok rfl (ha ..) rfl, exec_rd_ok rfl (ha ..) rfl, exec_rd_ok rfl (ha ..) rfl,
    exec_rd_ok rfl (ha ..) rfl, exec_rd_ok rfl (ha ..) rfl, toNat_append_half s.h s.w, rfl, rfl,
    BitVec.toNat_setWidth_of_le (by decide), BitVec.toNat_ofNat .., fun c => ?_, fun d b hb => ?_⟩
  · have hw : (Instr.rd .pred (byteOf c.val) 0 0).WellFormed := by revert c; decide
    exact ⟨sext s.pred[c], exec_rd_ok hw (ha ..) (by simp [readSelector]), toInt_sext _⟩
  · exact ⟨b.setWidth 32, exec_rd_ok rfl (ha ..) (by simp [readSelector, hb]), BitVec.toNat_setWidth_of_le (by decide)⟩

/-! ### The entries of the buffers and the tables -/

theorem toNat_byteOf {n : Nat} (h : n < 256) : (byteOf n).toNat = n := by
  rw [byteOf, BitVec.toNat_ofNat, Nat.mod_eq_of_lt h]

theorem rd_block_wellFormed {sel : Selector} (h : sel = .samp ∨ sel = .coef ∨ sel = .zz) (c : Fin 3) (i : Fin 64) :
    (Instr.rd sel (byteOf c.val) (byteOf i.val) 0).WellFormed := by
  obtain rfl | rfl | rfl := h <;>
    simp [Instr.WellFormed, Instr.wf, Selector.operandsOk, componentOk_byteOf, indexOk_byteOf]

theorem rd_quant_wellFormed {sel : Selector} (h : sel = .qtab ∨ sel = .fscale) (cl : Fin 2) (i : Fin 64) :
    (Instr.rd sel (byteOf cl.val) (byteOf i.val) 0).WellFormed := by
  have hcl : (byteOf cl.val).toNat < 2 := by rw [toNat_byteOf (by omega)]; exact cl.isLt
  obtain rfl | rfl := h <;> simp [Instr.WellFormed, Instr.wf, Selector.operandsOk, hcl, indexOk_byteOf]

theorem rd_huff_wellFormed {sel : Selector} (h : sel = .ehuf ∨ sel = .hval) (t : Fin 4) (k : Byte) :
    (Instr.rd sel (byteOf t.val) k 0).WellFormed := by
  have ht : (byteOf t.val).toNat < 4 := by rw [toNat_byteOf (by omega)]; exact t.isLt
  obtain rfl | rfl := h <;> simp [Instr.WellFormed, Instr.wf, Selector.operandsOk, ht]

theorem rd_hbits_wellFormed (t : Fin 4) (l : Fin 16) :
    (Instr.rd .hbits (byteOf t.val) (byteOf l.val) 0).WellFormed := by
  revert t l; decide

theorem toNat_huffDatum (e : HuffCode) : (huffDatum e).toNat = e.si.val * 65536 + e.co.toNat := by
  have hsi : e.si.val % 2 ^ 5 = e.si.val := Nat.mod_eq_of_lt (e.si.isLt.trans (by decide))
  have hhi : ((0 : BitVec 11) ++ BitVec.ofNat 5 e.si.val).toNat = e.si.val := by
    rw [BitVec.toNat_append, BitVec.toNat_ofNat, hsi]
    simp
  rw [← hhi]
  exact toNat_append_half _ e.co

theorem HuffSpec.count_succ (h : HuffSpec) (l : Fin 16) : h.count (l.val + 1) = h.bits[l].toNat := by
  simp [HuffSpec.count, HuffSpec.counts]

theorem HuffSpec.value_eq (h : HuffSpec) (k : Fin 256) : h.value k.val = h.vals[k] := by
  simp [HuffSpec.value]

/-- Settles O32: each written entry's datum by `exec_rd_ok`, beside the layout of the datum. -/
theorem rdEntries : Obligations.RdEntries := by
  intro s hp
  have ha := acceptedByTable_rd hp
  refine ⟨fun c i v h => ?_, fun c i v h => ?_, fun c i v h => ?_, fun cl i v h => ?_, fun cl i v h => ?_,
    fun t k e h => ?_, fun t l => ?_, fun t k => ?_⟩
  · exact exec_rd_entry (answer := numDatum s) (rd_block_wellFormed (by simp) c i) (ha ..)
      (by simp only [readSelector, component_byteOf, index64_byteOf]) h
  · exact exec_rd_entry (answer := numDatum s) (rd_block_wellFormed (by simp) c i) (ha ..)
      (by simp only [readSelector, component_byteOf, index64_byteOf]) h
  · exact ⟨sext v, exec_rd_entry (answer := fun x => .data (sext x)) (rd_block_wellFormed (by simp) c i) (ha ..)
      (by simp only [readSelector, component_byteOf, index64_byteOf]) h, toInt_sext v⟩
  · exact ⟨v.setWidth 32, exec_rd_entry (answer := fun x => .data (x.setWidth 32)) (rd_quant_wellFormed (by simp) cl i)
      (ha ..) (by simp only [readSelector, classOf_byteOf, index64_byteOf]) h, BitVec.toNat_setWidth_of_le (by decide)⟩
  · exact exec_rd_entry (answer := numDatum s) (rd_quant_wellFormed (by simp) cl i) (ha ..)
      (by simp only [readSelector, classOf_byteOf, index64_byteOf]) h
  · exact ⟨huffDatum e, exec_rd_entry (answer := fun x => .data (huffDatum x)) (rd_huff_wellFormed (by simp) t _)
      (ha ..) (by simp only [readSelector, tableOf_byteOf, index256_byteOf]) h, toNat_huffDatum e⟩
  · have hl : Fin.ofNat 16 (byteOf l.val).toNat = l := by revert l; decide
    exact ⟨s.hspec[t].bits[l].setWidth 32,
      exec_rd_ok (rd_hbits_wellFormed t l) (ha ..) (by simp only [readSelector, tableOf_byteOf, hl]),
      by rw [HuffSpec.count_succ, BitVec.toNat_setWidth_of_le (by decide)]⟩
  · exact ⟨s.hspec[t].vals[k].setWidth 32,
      exec_rd_ok (rd_huff_wellFormed (by simp) t _) (ha ..) (by simp only [readSelector, tableOf_byteOf, index256_byteOf]),
      by rw [HuffSpec.value_eq, BitVec.toNat_setWidth_of_le (by decide)]⟩

end Sys2Proof.Machine
end

section
/-! SUPPORT. Which pieces of state a stage and a command write (10_state.md R10): a frame for each stage, composed along the
pipeline, then for each command's run. -/

namespace Sys2Proof.Machine

/-! ### Frames -/

/-- `t` differs from `s` in the pieces of `ps` alone, besides the draw counter: the image, the host's moves, the record and
the parameters stay. -/
structure WritesOnly (ps : List Piece) (s t : State) : Prop where
  same : ∀ p : Piece, p ∉ ps → p.same s t
  img : t.img = s.img
  port : t.port = s.port
  params : t.params = s.params
  responses : t.responses = s.responses

theorem Piece.same_refl (p : Piece) (s : State) : p.same s s := by
  cases p <;> simp [Piece.same]

theorem Piece.same_trans (p : Piece) {s t u : State} (h : p.same s t) (h' : p.same t u) : p.same s u := by
  cases p <;> simp_all [Piece.same]

/-- A response is no piece of state. -/
theorem Piece.same_respond (p : Piece) (r : Response) (s t : State) : p.same s (respond r t) ↔ p.same s t := by
  cases p <;> simp [Piece.same]

/-- Fault entry writes the phase and the fault registers (60_exceptions.md R203). -/
theorem Piece.same_enterFault (p : Piece) (hphase : p ≠ .phase) (hfault : p ≠ .faultRegisters) (r : Raise) (s t : State) :
    p.same s (enterFault r t) ↔ p.same s t := by
  cases p <;> simp_all [Piece.same]

namespace WritesOnly

theorem refl (ps : List Piece) (s : State) : WritesOnly ps s s := ⟨fun p _ => p.same_refl s, rfl, rfl, rfl, rfl⟩

theorem trans {ps : List Piece} {s t u : State} (h : WritesOnly ps s t) (h' : WritesOnly ps t u) : WritesOnly ps s u :=
  ⟨fun p hp => p.same_trans (h.same p hp) (h'.same p hp), h'.img.trans h.img, h'.port.trans h.port,
    h'.params.trans h.params, h'.responses.trans h.responses⟩

theorem mono {ps qs : List Piece} {s t : State} (hsub : ps ⊆ qs) (h : WritesOnly ps s t) : WritesOnly qs s t :=
  ⟨fun p hp => h.same p fun hmem => hp (hsub hmem), h.img, h.port, h.params, h.responses⟩

end WritesOnly

/-! ### Stages -/

/-- A stage writes the pieces of `ps` alone, but for the fault entry it may take. -/
def StageWrites (ps : List Piece) (f : Stage) : Prop :=
  ∀ s : State, (∃ t, f s = .ok t ∧ WritesOnly ps s t) ∨ (∃ r t, f s = .error (enterFault r t) ∧ WritesOnly ps s t)

theorem StageWrites.mono {ps qs : List Piece} {f : Stage} (hsub : ps ⊆ qs) (hf : StageWrites ps f) :
    StageWrites qs f := by
  intro s
  obtain ⟨t, h, hw⟩ | ⟨r, t, h, hw⟩ := hf s
  · exact .inl ⟨t, h, hw.mono hsub⟩
  · exact .inr ⟨r, t, h, hw.mono hsub⟩

theorem StageWrites.andThen {ps : List Piece} {f g : Stage} (hf : StageWrites ps f) (hg : StageWrites ps g) :
    StageWrites ps (f.andThen g) := by
  intro s
  obtain ⟨t, h, hw⟩ | ⟨r, t, h, hw⟩ := hf s
  · obtain ⟨u, h', hw'⟩ | ⟨r, u, h', hw'⟩ := hg t
    · exact .inl ⟨u, (andThen_eq_ok ..).2 ⟨t, h, h'⟩, hw.trans hw'⟩
    · exact .inr ⟨r, u, (andThen_eq_error ..).2 (.inr ⟨t, h, h'⟩), hw.trans hw'⟩
  · exact .inr ⟨r, t, (andThen_eq_error ..).2 (.inl h), hw⟩

theorem fdctStage_writes (c : Fin 3) : StageWrites [.coef] (fdctStage c) := by
  intro s
  obtain ⟨i, -, h⟩ | ⟨-, h⟩ := fdctStage_cases c s
  · exact .inr ⟨_, s, h, .refl _ s⟩
  · refine .inl ⟨_, h, fun p hp => ?_, rfl, rfl, rfl, rfl⟩
    cases p <;> simp [Piece.same] at hp ⊢

theorem qzzStage_writes (c : Fin 3) : StageWrites [.zz] (qzzStage c) := by
  intro s
  obtain ⟨i, -, h⟩ | ⟨r, -, -, h⟩ | ⟨i, -, -, -, h⟩ | ⟨-, -, -, h⟩ := qzzStage_cases c s
  · exact .inr ⟨_, s, h, .refl _ s⟩
  · exact .inr ⟨_, s, h, .refl _ s⟩
  · refine .inr ⟨_, _, h, fun p _ => ?_, rfl, rfl, rfl, rfl⟩
    exact p.same_refl s
  · refine .inl ⟨_, h, fun p hp => ?_, rfl, rfl, rfl, rfl⟩
    cases p <;> simp [Piece.same] at hp ⊢

/-- What a fault inside `ENC` leaves (60_exceptions.md R203 items 2 and 3). -/
theorem afterEncFault_writes (r : Raise) (s : State) :
    WritesOnly [.pred, .accumulator, .out] s (afterEncFault r s) := by
  unfold afterEncFault
  split
  · exact .refl _ s
  · refine ⟨fun p hp => ?_, rfl, rfl, rfl, rfl⟩
    cases p <;> simp [Piece.same, loseStream] at hp ⊢

theorem encStage_writes (c : Fin 3) :
    StageWrites [.pred, .accumulator, .out, .nextc, .mcucnt] (encStage c) := by
  intro s
  obtain ⟨k, -, h⟩ | ⟨r, -, -, h⟩ | ⟨p, -, -, h⟩ := encStage_cases c s
  · exact .inr ⟨_, s, h, .refl _ s⟩
  · exact .inr ⟨r, _, h, (afterEncFault_writes r s).mono (by simp)⟩
  · refine .inl ⟨_, h, fun q hq => ?_, rfl, rfl, rfl, rfl⟩
    cases q <;> simp [Piece.same] at hq ⊢

theorem hbuildStage_writes : StageWrites [.ehuf, .hvalid] hbuildStage := by
  intro s
  obtain ⟨r, -, h⟩ | ⟨tabs, -, h⟩ := hbuildStage_cases s
  · exact .inr ⟨r, s, h, .refl _ s⟩
  · refine .inl ⟨_, h, fun p hp => ?_, rfl, rfl, rfl, rfl⟩
    cases p <;> simp [Piece.same] at hp ⊢

theorem declareImage_writes (w h : Half) : StageWrites [.dimensions, .imgvalid] (declareImage w h) := by
  intro s
  obtain ⟨-, hs⟩ | ⟨-, -, hs⟩ := declareImage_cases w h s
  · exact .inr ⟨_, s, hs, .refl _ s⟩
  · refine .inl ⟨_, hs, fun p hp => ?_, rfl, rfl, rfl, rfl⟩
    cases p <;> simp [Piece.same] at hp ⊢

/-- The pieces the three stages of `BLK` write. -/
def blkPieces : List Piece := [.coef, .zz, .pred, .accumulator, .out, .nextc, .mcucnt]

theorem blkStage_writes (c : Fin 3) : StageWrites blkPieces (blkStage c) :=
  .andThen ((fdctStage_writes c).mono (by simp [blkPieces]))
    (.andThen ((qzzStage_writes c).mono (by simp [blkPieces])) ((encStage_writes c).mono (by simp [blkPieces])))

theorem mcuStage_writes : StageWrites blkPieces mcuStage :=
  .andThen (blkStage_writes 0) (.andThen (blkStage_writes 1) (blkStage_writes 2))

/-! ### Commands -/

/-- The answer to a command that writes the pieces of `ps` alone: a response, or fault entry and the response `FAULT`. -/
def AnsweredWriting (ps : List Piece) (s t : State) : Prop :=
  ∃ u, WritesOnly ps s u ∧ ((∃ r, t = respond r u) ∨ ∃ r, t = respond .fault (enterFault r u))

theorem AnsweredWriting.of_finish {ps : List Piece} {f : Stage} (hf : StageWrites ps f) {s t : State}
    (h : finish (f s) = .next t) : AnsweredWriting ps s t := by
  obtain ⟨u, hu, hw⟩ | ⟨r, u, hu, hw⟩ := hf s <;> rw [hu] at h <;> cases h
  · exact ⟨u, hw, .inl ⟨_, rfl⟩⟩
  · exact ⟨u, hw, .inr ⟨r, rfl⟩⟩

theorem AnsweredWriting.of_answerOk {ps : List Piece} {s t u : State} (hw : WritesOnly ps s u)
    (h : answerOk u = .next t) : AnsweredWriting ps s t :=
  ⟨u, hw, .inl ⟨_, ((answerOk_next u t).1 h).symm⟩⟩

theorem AnsweredWriting.of_takeFault (ps : List Piece) {r : Raise} {s t : State} (h : takeFault r s = .next t) :
    AnsweredWriting ps s t :=
  ⟨s, .refl ps s, .inr ⟨r, ((takeFault_next r s t).1 h).symm⟩⟩

/-- The pieces a command writes when it runs: the column "written by" of R10, read by command. -/
def writtenBy : Instr → List Piece
  | .reset | .rd .. => []
  | .cfg .. => [.level, .strat, .qtab, .fscale, .qvalid]
  | .hbuild => [.ehuf, .hvalid]
  | .img .. => [.dimensions, .imgvalid]
  | .start => [.pred, .accumulator, .out, .phase, .nextc, .mcucnt]
  | .endImage _ => [.accumulator, .out, .phase]
  | .ld buf .. => match buf with
    | .samp => [.samp]
    | .coef => [.coef]
    | .zz => [.zz]
  | .tile .. => [.samp]
  | .fdct _ => [.coef]
  | .qzz _ => [.zz]
  | .enc _ => [.pred, .accumulator, .out, .nextc, .mcucnt]
  | .putbits .. => [.accumulator, .out]
  | .blk _ | .mcu => blkPieces

theorem writtenBy_writers (i : Instr) : ∀ p ∈ writtenBy i, mnemonic i ∈ p.writers := by
  cases i
  case ld buf c k value => cases buf <;> simp [writtenBy, mnemonic, Piece.writers]
  all_goals simp [writtenBy, blkPieces, mnemonic, Piece.writers]

theorem runRead_writes {sel : Selector} {c i : Byte} {d : Word} {s t : State} (h : runRead sel c i d s = .next t) :
    AnsweredWriting [] s t := by
  unfold runRead at h
  cases hr : readSelector sel c i d s with
  | ok r =>
    rw [hr] at h
    cases h
    exact ⟨s, .refl _ s, .inl ⟨r, rfl⟩⟩
  | error f =>
    rw [hr] at h
    exact .of_takeFault _ h

theorem setSamp_writes (b : Vector (Block NumValue) 3) (s : State) : WritesOnly [.samp] s { s with samp := b } := by
  refine ⟨fun p hp => ?_, rfl, rfl, rfl, rfl⟩
  cases p <;> simp [Piece.same] at hp ⊢

theorem runTile_writes {mx my : Half} {s t : State} (h : runTile mx my s = .next t) :
    AnsweredWriting [.samp] s t := by
  unfold runTile at h
  split at h
  · exact .of_takeFault _ h
  split at h
  · exact .of_takeFault _ h
  split at h
  · cases h
  · exact .of_answerOk (setSamp_writes _ s) h

theorem loadEntry_writes (buf : Buffer) (c k : Byte) (value : Word) (s : State) :
    WritesOnly (writtenBy (.ld buf c k value)) s (loadEntry buf (component c) (index64 k) value s) := by
  cases buf <;> refine ⟨fun p hp => ?_, rfl, rfl, rfl, rfl⟩ <;>
    cases p <;> simp [Piece.same, writtenBy, loadEntry] at hp ⊢

theorem configure_writes (level : Half) (strat : Strategy) (s : State) :
    WritesOnly (writtenBy (.cfg level strat)) s (configure level strat s) := by
  refine ⟨fun p hp => ?_, rfl, rfl, rfl, rfl⟩
  cases p <;> simp [Piece.same, writtenBy] at hp ⊢

theorem openImage_writes (s : State) : WritesOnly (writtenBy .start) s (openImage s) := by
  refine ⟨fun p hp => ?_, rfl, rfl, rfl, rfl⟩
  cases p <;> simp [Piece.same, writtenBy] at hp ⊢

theorem withPacker_writes (q : Packer) (s : State) : WritesOnly [.accumulator, .out] s (s.withPacker q) := by
  refine ⟨fun p hp => ?_, rfl, rfl, rfl, rfl⟩
  cases p <;> simp [Piece.same] at hp ⊢

theorem setPhase_writes (ph : Phase) (s : State) : WritesOnly [.phase] s { s with phase := ph } := by
  refine ⟨fun p hp => ?_, rfl, rfl, rfl, rfl⟩
  cases p <;> simp [Piece.same] at hp ⊢

theorem closeImage_writes (pad : Bool) (s : State) : WritesOnly (writtenBy (.endImage pad)) s (closeImage pad s) := by
  have hphase (u : State) := (setPhase_writes .idle u).mono (qs := writtenBy (.endImage pad)) (by simp [writtenBy])
  cases pad with
  | false => exact hphase s
  | true => exact .trans ((withPacker_writes _ s).mono (by simp [writtenBy])) (hphase _)

/-- A command's own run, but for `RESET`, writes the pieces it is named for. -/
theorem runOf_writes {i : Instr} {s t : State} (hi : i ≠ .reset) (h : runOf i s = .next t) :
    AnsweredWriting (writtenBy i) s t := by
  cases i with
  | reset => exact absurd rfl hi
  | cfg level strat => exact .of_answerOk (configure_writes level strat s) h
  | hbuild => exact .of_finish hbuildStage_writes h
  | img w h' => exact .of_finish (declareImage_writes w h') h
  | start => exact .of_answerOk (openImage_writes s) h
  | endImage pad => exact .of_answerOk (closeImage_writes pad s) h
  | rd sel c k d => exact runRead_writes h
  | ld buf c k value => exact .of_answerOk (loadEntry_writes buf c k value s) h
  | tile mx my => exact runTile_writes h
  | fdct c => exact .of_finish (fdctStage_writes _) h
  | qzz c => exact .of_finish (qzzStage_writes _) h
  | enc c => exact .of_finish (encStage_writes _) h
  | putbits n v => exact .of_answerOk (withPacker_writes _ s) h
  | blk c => exact .of_finish (blkStage_writes _) h
  | mcu => exact .of_finish mcuStage_writes h

/-- In `FAULTED` a command but `RESET` is answered and changes nothing: refused, or a read of `STATUS` or `FINFO`
(60_exceptions.md R205). -/
theorem exec_faulted {i : Instr} {s : State} (hi : i ≠ .reset) (hp : s.phase = .faulted) :
    ∃ r, exec i s = .next (respond r s) := by
  by_cases ha : i.WellFormed ∧ AcceptedByTable i s
  · have hrun := exec_accepted ha.1 ha.2
    cases i
    case reset => exact absurd rfl hi
    case rd sel c k d =>
      obtain rfl | rfl : sel = .status ∨ sel = .finfo := by simpa [AcceptedByTable, hp] using ha.2
      · exact ⟨.data (statusWord s), hrun⟩
      · exact ⟨.data s.finfo, hrun⟩
    all_goals simp [AcceptedByTable, hp] at ha
  · exact ⟨.fault, by rw [exec_eq_issue, issue_faulted _ hp ha]; rfl⟩

/-- Every command but `RESET` writes the pieces it is named for alone, or it is answered so and takes a fault, which it
never does in `FAULTED`. -/
theorem exec_writes {i : Instr} {s t : State} (hi : i ≠ .reset) (h : exec i s = .next t) :
    ∃ u, WritesOnly (writtenBy i) s u ∧
      ((∃ r, t = respond r u) ∨ s.phase ≠ .faulted ∧ ∃ r, t = respond .fault (enterFault r u)) := by
  by_cases hp : s.phase = .faulted
  · obtain ⟨r, hr⟩ := exec_faulted hi hp
    rw [hr] at h
    cases h
    exact ⟨s, .refl _ s, .inl ⟨r, rfl⟩⟩
  · suffices hans : AnsweredWriting (writtenBy i) s t by
      obtain ⟨u, hw, hr⟩ := hans
      exact ⟨u, hw, hr.imp_right fun hf => ⟨hp, hf⟩⟩
    obtain ⟨hf, -⟩ | ⟨-, -, he⟩ | ⟨-, -, -, he⟩ | ⟨-, -, he⟩ := exec_cases i s
    · exact absurd hf hp
    · exact .of_takeFault (r := ⟨.illcmd, i.upper⟩) _ (he.symm.trans h)
    · exact .of_takeFault (r := ⟨.seq, i.upper⟩) _ (he.symm.trans h)
    · exact runOf_writes hi (he.symm.trans h)

theorem exec_reset (s : State) : exec .reset s = .next (respond .ok (resetCore s)) := exec_accepted rfl trivial

/-- What no command writes, `RESET` included. -/
theorem exec_surroundings {i : Instr} {s t : State} (h : exec i s = .next t) :
    t.hspec = s.hspec ∧ t.img = s.img ∧ t.port = s.port ∧ t.params = s.params := by
  by_cases hi : i = .reset
  · subst hi
    cases (exec_reset s).symm.trans h
    exact ⟨rfl, rfl, rfl, rfl⟩
  · obtain ⟨u, hw, hr⟩ := exec_writes hi h
    have hspec : u.hspec = s.hspec := hw.same .hspec fun hmem => nomatch writtenBy_writers i _ hmem
    obtain ⟨r, rfl⟩ | ⟨-, r, rfl⟩ := hr <;> exact ⟨hspec, hw.img, hw.port, hw.params⟩

/-- Settles O58, by the frame of every command, `exec_writes`. -/
theorem commandsWriteOnlyTheirPieces : Obligations.CommandsWriteOnlyTheirPieces := by
  intro i s t h
  obtain ⟨hhspec, himg, hport, hparams⟩ := exec_surroundings h
  refine ⟨fun p hi hp hphase hfault => ?_, fun p hi hp _ => ?_, hhspec, fun a => by rw [himg], himg, hport, hparams⟩
  · obtain ⟨u, hw, hr⟩ := exec_writes hi h
    have hsame := hw.same p fun hmem => hp (writtenBy_writers i p hmem)
    obtain ⟨r, rfl⟩ | ⟨-, r, rfl⟩ := hr
    · exact (p.same_respond ..).2 hsame
    · exact (p.same_respond ..).2 ((p.same_enterFault hphase hfault ..).2 hsame)
  · obtain ⟨u, hw, ⟨r, rfl⟩ | ⟨hrun, r, rfl⟩⟩ := exec_writes hi h
    · exact .inl ((p.same_respond ..).2 (hw.same p fun hmem => hp (writtenBy_writers i p hmem)))
    · exact .inr ⟨hrun, rfl, by simp [hw.responses]⟩

end Sys2Proof.Machine
end

section
/-! SUPPORT. The binary32 port (10_state.md R27, 92_eei_decisions.md D6): the exact arithmetic on rational numbers, then the
significand and the exponent of a pattern, read and encoded again. -/

namespace Sys2Proof

/-! ### Rational numbers -/

/-- The number is the rational `q`, with no part at an irrational `C_k`. -/
def Alg.Denotes (x : Alg) (q : ℚ) : Prop := ∃ (n : ℤ) (d : ℕ), 0 < d ∧ x = Alg.ofFrac n d ∧ (n : ℚ) / d = q

theorem Alg.den_ofFrac (n : ℤ) {d : ℕ} (hd : 0 < d) : (Alg.ofFrac n d).den = d := Nat.sub_add_cancel hd

theorem Alg.ofFrac_denotes (n : ℤ) {d : ℕ} (hd : 0 < d) : (Alg.ofFrac n d).Denotes (n / d) := ⟨n, d, hd, rfl, rfl⟩

theorem Alg.ofInt_denotes (n : ℤ) : (Alg.ofInt n).Denotes n := by
  simpa [Alg.ofInt] using Alg.ofFrac_denotes n Nat.one_pos

theorem Alg.widen_ofFrac (n : ℤ) {d k : ℕ} (hd : 0 < d) : (Alg.ofFrac n d).widen k = Alg.ofFrac (k * n) (d * k) := by
  simp [Alg.widen, Alg.divNat, Alg.mulInt, Alg.ofFrac, Alg.den, Nat.sub_add_cancel hd]

/-- Widening changes the fraction and not its value. -/
theorem Alg.widened_value (n : ℤ) {d k : ℕ} (h : 0 < d * k) : ((k * n : ℤ) : ℚ) / (d * k : ℕ) = n / d := by
  have hk : (k : ℚ) ≠ 0 := by exact_mod_cast (Nat.pos_of_mul_pos_left h).ne'
  push_cast
  rw [mul_comm (d : ℚ), mul_div_mul_left _ _ hk]

theorem Alg.addSame_ofFrac_denotes {n m : ℤ} {d : ℕ} (hd : 0 < d) :
    (Alg.addSame (Alg.ofFrac n d) (Alg.ofFrac m d)).Denotes (n / d + m / d) :=
  ⟨n + m, d, hd, by simp [Alg.addSame, Alg.ofFrac], by push_cast; ring⟩

namespace Alg.Denotes

variable {x y : Alg} {q r : ℚ}

theorem mulInt (hx : x.Denotes q) (k : ℤ) : (x.mulInt k).Denotes (k * q) := by
  obtain ⟨n, d, hd, rfl, rfl⟩ := hx
  exact ⟨k * n, d, hd, by simp [Alg.mulInt, Alg.ofFrac], by push_cast; ring⟩

theorem divNat (hx : x.Denotes q) {k : ℕ} (hk : 0 < k) : (x.divNat k).Denotes (q / k) := by
  obtain ⟨n, d, hd, rfl, rfl⟩ := hx
  refine ⟨n, d * k, Nat.mul_pos hd hk, ?_, by push_cast; rw [div_div]⟩
  rw [Alg.divNat, Alg.den_ofFrac n hd]
  rfl

theorem mulFrac (hx : x.Denotes q) (n : ℤ) {d : ℕ} (hd : 0 < d) : (x.mulFrac n d).Denotes (n * q / d) :=
  (hx.mulInt n).divNat hd

theorem neg (hx : x.Denotes q) : x.neg.Denotes (-q) := by simpa [Alg.neg] using hx.mulInt (-1)

theorem add (hx : x.Denotes q) (hy : y.Denotes r) : (Alg.add x y).Denotes (q + r) := by
  obtain ⟨n, d, hd, rfl, rfl⟩ := hx
  obtain ⟨m, e, he, rfl, rfl⟩ := hy
  unfold Alg.add
  split
  case isTrue h =>
    obtain rfl : d = e := by
      have h : d - 1 = e - 1 := h
      omega
    exact Alg.addSame_ofFrac_denotes hd
  case isFalse h =>
    obtain ⟨k, hk⟩ := Nat.dvd_lcm_left d e
    obtain ⟨j, hj⟩ := Nat.dvd_lcm_right d e
    have hl : 0 < d.lcm e := Nat.lcm_pos hd he
    simp only [Alg.den_ofFrac _ hd, Alg.den_ofFrac _ he, Nat.div_eq_of_eq_mul_right hd hk,
      Nat.div_eq_of_eq_mul_right he hj, Alg.widen_ofFrac _ hd, Alg.widen_ofFrac _ he, ← hk, ← hj]
    convert Alg.addSame_ofFrac_denotes hl using 2
    · rw [hk] at hl ⊢
      exact (Alg.widened_value n hl).symm
    · rw [hj] at hl ⊢
      exact (Alg.widened_value m hl).symm

theorem sub (hx : x.Denotes q) (hy : y.Denotes r) : (Alg.sub x y).Denotes (q - r) := by
  rw [sub_eq_add_neg]
  exact hx.add hy.neg

theorem norm (hx : x.Denotes q) : x.norm.Denotes q := by
  obtain ⟨n, d, hd, rfl, rfl⟩ := hx
  have hg : 0 < d.gcd n.natAbs := Nat.gcd_pos_of_pos_left _ hd
  have hgd : d.gcd n.natAbs ∣ d := Nat.gcd_dvd_left ..
  have hgn : ((d.gcd n.natAbs : ℕ) : ℤ) ∣ n := Int.natCast_dvd.2 (Nat.gcd_dvd_right ..)
  have hg' : ((d.gcd n.natAbs : ℕ) : ℚ) ≠ 0 := by positivity
  refine ⟨n / (d.gcd n.natAbs : ℕ), d / d.gcd n.natAbs, Nat.div_pos (Nat.le_of_dvd hd hgd) hg, ?_, ?_⟩
  · simp [Alg.norm, Alg.terms, Alg.ofFrac, Alg.den, Nat.sub_add_cancel hd]
  · rw [Int.cast_div hgn (by exact_mod_cast hg'), Nat.cast_div hgd hg', Int.cast_natCast, div_div_div_cancel_right₀ hg']

theorem floor_eq (hx : x.Denotes q) : x.floor = ⌊q⌋ := by
  obtain ⟨n, d, hd, rfl, rfl⟩ := hx
  rw [Rat.floor_intCast_div_natCast, Alg.floor, Alg.den_ofFrac n hd]
  rfl

theorem sign_neg_iff (hx : x.Denotes q) : x.sign < 0 ↔ q < 0 := by
  obtain ⟨n, d, hd, rfl, rfl⟩ := hx
  have hsign : (Alg.ofFrac n d).sign = n.sign := rfl
  have hd' : (0 : ℚ) < d := by positivity
  rw [hsign, Int.sign_neg_iff, div_lt_iff₀ hd', zero_mul, Int.cast_lt_zero]

theorem toReal_eq (hx : x.Denotes q) : x.toReal = q := by
  obtain ⟨n, d, hd, rfl, rfl⟩ := hx
  rw [Alg.toReal, Alg.den_ofFrac n hd]
  simp [Alg.ofFrac]

end Alg.Denotes

/-! ### The significand and the exponent of a pattern -/

/-- The exponent field of a binary32 pattern. -/
def binary32Exponent (p : Word) : ℕ := (p.extractLsb' 23 8).toNat

/-- The fraction field. -/
def binary32Fraction (p : Word) : ℕ := (p.extractLsb' 0 23).toNat

/-- The significand of a finite pattern, in units of the last place: the implicit bit is 0 for the least exponent. -/
def binary32Significand (p : Word) : ℕ :=
  if binary32Exponent p = 0 then binary32Fraction p else 8388608 + binary32Fraction p

/-- The factor that the sign bit stands for. -/
def binary32Sign (p : Word) : ℤ := if p.getLsbD 31 then -1 else 1

/-- The number of a finite pattern without its sign (92_eei_decisions.md D6). -/
def binary32Magnitude (p : Word) : ℚ := binary32Significand p * 2 ^ (binary32Exponent p - 1) / 2 ^ 149

theorem binary32Fraction_lt (p : Word) : binary32Fraction p < 8388608 := (p.extractLsb' 0 23).isLt

theorem binary32Exponent_lt (p : Word) : binary32Exponent p < 256 := (p.extractLsb' 23 8).isLt

/-- A pattern is its sign bit, its exponent and its fraction. -/
theorem toNat_eq_binary32_fields (p : Word) :
    p.toNat = (if p.getLsbD 31 then 2147483648 else 0) + (binary32Exponent p * 8388608 + binary32Fraction p) := by
  have hp := p.isLt
  simp only [binary32Exponent, binary32Fraction, BitVec.extractLsb'_toNat, Nat.shiftRight_eq_div_pow, BitVec.getLsbD,
    Nat.testBit_eq_decide_div_mod_eq, decide_eq_true_eq]
  split <;> omega

/-- The exponent and the significand make up the pattern's low 31 bits, the implicit bit carrying into the exponent. -/
theorem binary32_exponent_significand (p : Word) :
    (binary32Exponent p - 1) * 8388608 + binary32Significand p = binary32Exponent p * 8388608 + binary32Fraction p := by
  unfold binary32Significand
  split <;> omega

/-- `decodeBinary32` over the named fields. -/
theorem decodeBinary32_eq (p : Word) :
    decodeBinary32 p =
      if binary32Exponent p = 255 then none
      else if binary32Exponent p = 0 then some (Alg.ofFrac (binary32Sign p * binary32Fraction p) (2 ^ 149)).norm
      else if binary32Exponent p ≥ 150 then
        some (Alg.ofInt (binary32Sign p * ((8388608 + binary32Fraction p) * 2 ^ (binary32Exponent p - 150) : ℕ)))
      else
        some (Alg.ofFrac (binary32Sign p * (8388608 + binary32Fraction p : ℕ)) (2 ^ (150 - binary32Exponent p))).norm :=
  rfl

theorem decodeBinary32_eq_none (p : Word) : decodeBinary32 p = none ↔ binary32Exponent p = 255 := by
  rw [decodeBinary32_eq]
  split_ifs with h255 <;> simp [h255]

/-- A finite pattern denotes its signed magnitude. -/
theorem decodeBinary32_denotes {p : Word} {x : Alg} (h : decodeBinary32 p = some x) :
    x.Denotes (binary32Sign p * binary32Magnitude p) := by
  rw [decodeBinary32_eq] at h
  split_ifs at h with h255 h0 h150 <;> cases h
  · convert (Alg.ofFrac_denotes _ (Nat.two_pow_pos 149)).norm using 1
    simp only [binary32Magnitude, binary32Significand, h0]
    push_cast
    ring
  · convert Alg.ofInt_denotes _ using 1
    simp only [binary32Magnitude, binary32Significand, if_neg h0]
    have hpow : (2 : ℚ) ^ (binary32Exponent p - 1) = 2 ^ (binary32Exponent p - 150) * 2 ^ 149 := by
      rw [← pow_add]
      congr 1
      omega
    rw [hpow, ← mul_assoc, mul_div_cancel_right₀ _ (by positivity)]
    push_cast
    ring
  · convert (Alg.ofFrac_denotes _ (Nat.two_pow_pos _)).norm using 1
    simp only [binary32Magnitude, binary32Significand, if_neg h0]
    have hpow : (2 : ℚ) ^ 149 = 2 ^ (binary32Exponent p - 1) * 2 ^ (150 - binary32Exponent p) := by
      rw [← pow_add]
      congr 1
      omega
    rw [hpow]
    field_simp
    push_cast
    ring

/-! ### Encoding -/

/-- The exponent that `encodeMagnitude` takes from `m * 2 ^ e / 2 ^ 23`, the floor of `m * 2 ^ e / 2 ^ 149` times `2 ^ 126`. -/
theorem log2_binary32_exponent {m e : ℕ} (hm : m < 16777216) (hn : e = 0 ∨ 8388608 ≤ m) :
    (if m * 2 ^ e / 8388608 = 0 then 0 else Nat.log2 (m * 2 ^ e / 8388608)) = e := by
  obtain rfl | hm' := hn
  · have h : m * 2 ^ 0 / 8388608 < 2 := by omega
    interval_cases m * 2 ^ 0 / 8388608 <;> rfl
  · have hlo : 2 ^ e ≤ m * 2 ^ e / 8388608 := by
      rw [Nat.le_div_iff_mul_le (by decide), mul_comm]
      exact Nat.mul_le_mul_right _ hm'
    have hhi : m * 2 ^ e / 8388608 < 2 ^ (e + 1) := by
      rw [Nat.div_lt_iff_lt_mul (by decide), pow_succ, mul_assoc, mul_comm m]
      exact Nat.mul_lt_mul_of_pos_left hm (Nat.two_pow_pos e)
    have hne : m * 2 ^ e / 8388608 ≠ 0 := ((Nat.two_pow_pos e).trans_le hlo).ne'
    rw [if_neg hne]
    exact (Nat.log2_eq_iff hne).2 ⟨hlo, hhi⟩

/-- A number with at most 24 significant bits is held exactly: no rounding. -/
theorem encodeMagnitude_of_denotes {a : Alg} {m e : ℕ} (ha : a.Denotes (m * 2 ^ e / 2 ^ 149)) (hm : m < 16777216)
    (hn : e = 0 ∨ 8388608 ≤ m) (he : e ≤ 253) : encodeMagnitude a = e * 8388608 + m := by
  have hf : (a.mulFrac (2 ^ 126 : ℕ) 1).floor.toNat = m * 2 ^ e / 8388608 := by
    have hq : (((2 ^ 126 : ℕ) : ℤ) : ℚ) * (m * 2 ^ e / 2 ^ 149) / (1 : ℕ) = (m * 2 ^ e : ℕ) / (8388608 : ℕ) := by
      push_cast
      ring
    rw [(ha.mulFrac _ Nat.one_pos).floor_eq, hq, Rat.floor_natCast_div_natCast]
    norm_cast
  have hx : (significand a e).Denotes m := by
    have hq : (((2 ^ 149 : ℕ) : ℤ) : ℚ) * (m * 2 ^ e / 2 ^ 149) / (2 ^ e : ℕ) = m := by
      rw [Int.cast_natCast, Nat.cast_pow, Nat.cast_pow, Nat.cast_ofNat, mul_div_cancel₀ _ (by positivity),
        mul_div_cancel_right₀ _ (by positivity)]
    rw [← hq]
    exact ha.mulFrac _ (Nat.two_pow_pos e)
  have hfloor : (significand a e).floor.toNat = m := by rw [hx.floor_eq, Int.floor_natCast, Int.toNat_natCast]
  have htwice : (Alg.sub ((significand a e).mulInt 2) (Alg.ofInt (2 * m + 1))).sign < 0 := by
    rw [((hx.mulInt 2).sub (Alg.ofInt_denotes _)).sign_neg_iff]
    push_cast
    linarith
  have hround : ¬ ((Alg.sub ((significand a e).mulInt 2) (Alg.ofInt (2 * m + 1))).sign > 0 ||
      ((Alg.sub ((significand a e).mulInt 2) (Alg.ofInt (2 * m + 1))).sign = 0 && m % 2 = 1)) = true := by
    simp [htwice.le, htwice.ne]
  simp only [encodeMagnitude, hf, log2_binary32_exponent hm hn, hfloor]
  rw [if_neg hround]
  omega

/-- The magnitude of a finite pattern is encoded as the pattern's low 31 bits. -/
theorem encodeMagnitude_of_magnitude {a : Alg} {p : Word} (ha : a.Denotes (binary32Magnitude p))
    (hp : binary32Exponent p ≠ 255) :
    encodeMagnitude a = binary32Exponent p * 8388608 + binary32Fraction p := by
  have hfrac := binary32Fraction_lt p
  have hexp := binary32Exponent_lt p
  rw [← binary32_exponent_significand p]
  apply encodeMagnitude_of_denotes ha
  · unfold binary32Significand
    split <;> omega
  · unfold binary32Significand
    split <;> omega
  · omega

theorem binary32Magnitude_nonneg (p : Word) : 0 ≤ binary32Magnitude p := by
  unfold binary32Magnitude
  positivity

/-- Of the negative patterns only negative zero has no magnitude. -/
theorem binary32Magnitude_pos {p : Word} (hs : p.getLsbD 31 = true) (hp : p ≠ 0x80000000) : 0 < binary32Magnitude p := by
  have hsig : binary32Significand p ≠ 0 := by
    intro h0
    have hlow := binary32_exponent_significand p
    have hval : (0x80000000 : Word).toNat = 2147483648 := rfl
    refine hp (BitVec.eq_of_toNat_eq ?_)
    rw [toNat_eq_binary32_fields p, if_pos hs, hval, ← hlow, h0]
    omega
  have hsigpos := Nat.pos_of_ne_zero hsig
  unfold binary32Magnitude
  positivity

/-- Every finite pattern but negative zero is its own number's pattern. -/
theorem encodeBinary32_of_decode {p : Word} {x : Alg} (h : decodeBinary32 p = some x) (hp : p ≠ 0x80000000) :
    encodeBinary32 x = p := by
  have hfin : binary32Exponent p ≠ 255 := fun h255 => by simp [(decodeBinary32_eq_none p).2 h255] at h
  have hfields := toNat_eq_binary32_fields p
  have hx := decodeBinary32_denotes h
  unfold binary32Sign at hx
  apply BitVec.eq_of_toNat_eq
  unfold encodeBinary32
  by_cases hs : p.getLsbD 31 = true
  · rw [if_pos hs] at hfields hx
    have hneg : x.sign < 0 := hx.sign_neg_iff.2 (by simpa using binary32Magnitude_pos hs hp)
    have hmag := encodeMagnitude_of_magnitude (by simpa using hx.neg) hfin
    have hlt : encodeMagnitude x.neg < 2 ^ 31 := by omega
    rw [if_pos hneg, BitVec.toNat_or, BitVec.toNat_ofNat, Nat.mod_eq_of_lt (by omega), hfields, ← hmag]
    exact (Nat.shiftLeft_add_eq_or_of_lt hlt 1).symm
  · rw [if_neg hs] at hfields hx
    have hpos : ¬ x.sign < 0 := by
      rw [hx.sign_neg_iff]
      simpa using binary32Magnitude_nonneg p
    have hmag := encodeMagnitude_of_magnitude (by simpa using hx) hfin
    rw [if_neg hpos, BitVec.toNat_ofNat, Nat.mod_eq_of_lt (by omega)]
    omega

/-- The magnitude as 92_eei_decisions.md D6 prints it. -/
theorem binary32Magnitude_toReal (p : Word) :
    ((binary32Magnitude p : ℚ) : ℝ) =
      if binary32Exponent p = 0 then (binary32Fraction p : ℝ) * 2 ^ (-149 : ℤ)
      else (2 ^ 23 + (binary32Fraction p : ℝ)) * 2 ^ ((binary32Exponent p : ℤ) - 150) := by
  unfold binary32Magnitude binary32Significand
  split
  case isTrue h0 =>
    rw [h0, zpow_neg, ← div_eq_mul_inv]
    norm_cast
    simp
  case isFalse h0 =>
    have hexp : (binary32Exponent p : ℤ) - 150 = (binary32Exponent p - 1 : ℕ) - (149 : ℕ) := by omega
    rw [hexp, zpow_sub₀ two_ne_zero, zpow_natCast, zpow_natCast, mul_div_assoc]
    push_cast
    norm_num

namespace Machine

/-- Settles O34: a finite pattern denotes its signed magnitude, which `encodeBinary32` finds again without rounding. -/
theorem binary32Port : Obligations.Binary32Port := by
  refine ⟨decodeBinary32_eq_none, fun p x h => ?_, fun p x => encodeBinary32_of_decode⟩
  rw [(decodeBinary32_denotes h).toReal_eq, Rat.cast_mul, binary32Magnitude_toReal]
  congr 1
  unfold binary32Sign
  split <;> simp

end Machine

end Sys2Proof
end

section
/-! SUPPORT. Computations that may raise a fault: whatever one answers meets a condition, and whatever it raises has a
fault code (60_exceptions.md R200); then the entropy coder, the table builder and the reads in these terms. -/

namespace Sys2Proof.Machine

/-! ### The condition and its rules -/

/-- An answer meets `Q`, and a raise has a code other than "no fault". -/
def Ensures {α : Type} (Q : α → Prop) : Except Raise α → Prop
  | .ok a => Q a
  | .error r => r.code ≠ .none

theorem Ensures.bind {α β : Type} {Q : α → Prop} {R : β → Prop} {x : Except Raise α} {f : α → Except Raise β}
    (hx : Ensures Q x) (hf : ∀ a, Q a → Ensures R (f a)) : Ensures R (x.bind f) := by
  cases x with
  | ok a => exact hf a hx
  | error r => exact hx

theorem Ensures.map {α β : Type} {Q : α → Prop} {R : β → Prop} {x : Except Raise α} {f : α → β}
    (hx : Ensures Q x) (hf : ∀ a, Q a → R (f a)) : Ensures R (x.map f) := by
  cases x with
  | ok a => exact hf a hx
  | error r => exact hx

/-! ### The entropy coder -/

/-- What the packer `p` had in `OUT` stays in front of whatever is answered. -/
def Extends (p : Packer) (x : Except Raise Packer) : Prop := Ensures (fun q => p.out <+: q.out) x

theorem Extends.refl (p : Packer) : Extends p (.ok p) := ⟨[], List.append_nil _⟩

theorem Extends.trans {p q : Packer} {x : Except Raise Packer} (h : p.out <+: q.out) (hx : Extends q x) :
    Extends p x := by
  cases x with
  | ok q' => exact List.IsPrefix.trans h hx
  | error r => exact hx

theorem Extends.bind {p : Packer} {x : Except Raise Packer} {f : Packer → Except Raise Packer} (hx : Extends p x)
    (hf : ∀ q, Extends q (f q)) : Extends p (x.bind f) :=
  Ensures.bind hx fun q hq => (hf q).trans hq

theorem putBits_out_isPrefix (n v : Nat) (p : Packer) : p.out <+: (putBits n v p).out := by
  obtain ⟨more, h⟩ := putBits_out n v p
  exact ⟨more, h.symm⟩

theorem pad1_out_isPrefix (p : Packer) : p.out <+: (pad1 p).out := by
  unfold pad1
  split
  · exact ⟨[], List.append_nil _⟩
  · exact putBits_out_isPrefix _ _ p

theorem emitSym_extends (tabs : HuffTables) (t : Fin 4) (sym : Byte) (p : Packer) :
    Extends p (emitSym tabs t sym p) := by
  unfold emitSym
  split
  · exact FaultCode.noConfusion
  split
  · exact FaultCode.noConfusion
  · exact putBits_out_isPrefix _ _ p

/-- A symbol and the bits behind it: an item of the DC or of the AC code. -/
theorem emitItem_extends (tabs : HuffTables) (t : Fin 4) (sym : Byte) (n v : Nat) (p : Packer) :
    Extends p ((emitSym tabs t sym p).map fun q => putBits n v q) :=
  Ensures.map (emitSym_extends tabs t sym p) fun q hq => hq.trans (putBits_out_isPrefix n v q)

theorem emitZrls_extends (tabs : HuffTables) (ta : Fin 4) (n : Nat) (p : Packer) :
    Extends p (emitZrls tabs ta n p) := by
  induction n generalizing p with
  | zero => exact .refl p
  | succ n ih => exact (emitSym_extends tabs ta 0xF0 p).bind ih

theorem emitCoefficient_extends (tabs : HuffTables) (c : Fin 3) (ta : Fin 4) (k run : Nat) (v : Int) (p : Packer) :
    Extends p (emitCoefficient tabs c ta k run v p) := by
  unfold emitCoefficient
  dsimp only
  split
  · exact FaultCode.noConfusion
  · exact emitItem_extends ..

theorem encodeRuns_extends (tabs : HuffTables) (c : Fin 3) (ta : Fin 4) (z : List Int) (k run : Nat) (p : Packer) :
    Extends p (encodeRuns tabs c ta k run z p) := by
  induction z generalizing k run p with
  | nil => exact .refl p
  | cons v rest ih =>
    unfold encodeRuns
    split
    · exact ih (k + 1) (run + 1) p
    · exact (emitZrls_extends ..).bind fun q => (emitCoefficient_extends ..).bind fun q' => ih (k + 1) 0 q'

theorem encodeAc_extends (tabs : HuffTables) (c : Fin 3) (ta : Fin 4) (z : List Int) (p : Packer) :
    Extends p (encodeAc tabs c ta z p) := by
  refine (encodeRuns_extends ..).bind fun q => ?_
  split
  · exact .refl q
  · exact emitSym_extends ..

theorem encodeBlock_extends (s : State) (c : Fin 3) : Extends s.packer (encodeBlock s c) :=
  (emitItem_extends ..).bind fun q => encodeAc_extends _ _ _ _ q

/-! ### The table builder -/

/-- The code of an entry is below two to its length (43_huffman_builder.md R125 item 4). -/
def HuffCode.Bounded (e : HuffCode) : Prop := e.co.toNat < 2 ^ e.si.val

/-- The code lengths from `l` on are within the list of counts. -/
theorem lt_of_mem_sizeList {x l : Nat} {counts : List Nat} (h : x ∈ sizeList l counts) : x < l + counts.length := by
  induction counts generalizing l with
  | nil => cases h
  | cons n rest ih =>
    simp only [sizeList, List.mem_append, List.mem_replicate] at h
    simp only [List.length_cons]
    obtain ⟨-, rfl⟩ | h := h
    · omega
    · have := ih h
      omega

/-- Every code that is assigned fits its length. -/
theorem assignCodes_lt {sizes codes : List Nat} {code si : Nat} (h : assignCodes code si sizes = .ok codes) :
    ∀ x ∈ sizes.zip codes, x.2 < 2 ^ x.1 := by
  induction sizes generalizing code si codes with
  | nil => simp
  | cons l rest ih =>
    simp only [assignCodes] at h
    split at h
    · cases h
    · rename_i hfits
      cases hrest : assignCodes (code <<< (l - si) + 1) l rest with
      | error e => simp [hrest, Except.map] at h
      | ok cs =>
        rw [hrest] at h
        cases h
        simp only [List.zip_cons_cons, List.forall_mem_cons]
        exact ⟨Nat.lt_of_not_le hfits, ih hrest⟩

/-- The entry of a symbol is bounded where the codes fit their lengths of at most 16 bits. -/
theorem entryFor_bounded {codes : List Assigned} (h : ∀ a ∈ codes, a.size < 17 ∧ a.code < 2 ^ a.size) (s : Byte) :
    (entryFor codes s).Bounded := by
  unfold entryFor
  split
  · rename_i a ha
    obtain ⟨hsize, hcode⟩ := h a (List.mem_of_find?_eq_some ha)
    simp only [HuffCode.Bounded, BitVec.toNat_ofNat, Fin.val_ofNat, Nat.mod_eq_of_lt hsize]
    exact (Nat.mod_le _ _).trans_lt hcode
  · exact Nat.one_pos

theorem assignments_fit {h : HuffSpec} {codes : List Nat} {code si : Nat} (vals : List Byte)
    (hcodes : assignCodes code si (sizeList 1 h.counts) = .ok codes) :
    ∀ a ∈ assignments vals (sizeList 1 h.counts) codes, a.size < 17 ∧ a.code < 2 ^ a.size := by
  simp only [assignments, List.mem_map]
  rintro _ ⟨⟨v, l, code⟩, hmem, rfl⟩
  have hzip := (List.of_mem_zip hmem).2
  have hl := lt_of_mem_sizeList (List.of_mem_zip hzip).1
  simp only [HuffSpec.counts, List.length_map, Vector.length_toList] at hl
  exact ⟨hl, assignCodes_lt hcodes _ hzip⟩

theorem build_ensures_bounded (t : Fin 4) (h : HuffSpec) :
    Ensures (fun e => ∀ k : Fin 256, e[k].Bounded) (build t h) := by
  unfold build
  dsimp only
  split
  · exact FaultCode.noConfusion
  rename_i codes hcodes
  split
  · exact FaultCode.noConfusion
  · intro k
    rw [tabulate_getElem_fin]
    exact entryFor_bounded (assignments_fit _ hcodes) _

/-- Every entry of a table has been written and is bounded. -/
def TableBounded (tab : Vector (Option HuffCode) 256) : Prop :=
  ∀ k : Fin 256, ∃ e : HuffCode, tab[k] = some e ∧ e.Bounded

theorem written_bounded {e : Vector HuffCode 256} (h : ∀ k : Fin 256, e[k].Bounded) : TableBounded (written e) :=
  fun k => ⟨e[k], by simp [written], h k⟩

theorem firstOverflow_code {hs : Vector HuffSpec 4} {r : Raise} (h : firstOverflow hs = some r) :
    r.code ≠ .none := by
  obtain ⟨t, -, ht⟩ := List.exists_of_findSome?_eq_some h
  unfold overflow at ht
  split at ht <;> cases ht
  exact FaultCode.noConfusion

theorem buildAll_ensures_bounded (hs : Vector HuffSpec 4) :
    Ensures (fun tabs => ∀ t : Fin 4, TableBounded tabs[t]) (buildAll hs) := by
  unfold buildAll
  split
  case h_1 r hr => exact firstOverflow_code hr
  case h_2 =>
    refine (build_ensures_bounded ..).bind fun e0 h0 => (build_ensures_bounded ..).bind fun e1 h1 =>
      (build_ensures_bounded ..).bind fun e2 h2 => (build_ensures_bounded ..).map fun e3 h3 t => ?_
    match t with
    | 0 => exact written_bounded h0
    | 1 => exact written_bounded h1
    | 2 => exact written_bounded h2
    | 3 => exact written_bounded h3

/-! ### The other raises -/

theorem quantTableBot_code {s : State} {c : Fin 3} {r : Raise} (h : quantTableBot s c = some r) : r.code ≠ .none := by
  unfold quantTableBot at h
  split at h <;> obtain ⟨k, -, rfl⟩ := Option.map_eq_some_iff.1 h <;> exact FaultCode.noConfusion

theorem readEntry_ensures {α : Type} (sel : Selector) (c i : Byte) (entry : Option α) (answer : α → Response) :
    Ensures (fun _ => True) (readEntry sel c i entry answer) := by
  cases entry with
  | none => exact FaultCode.noConfusion
  | some x => trivial

theorem readSelector_ensures (sel : Selector) (c i : Byte) (d : Word) (s : State) :
    Ensures (fun _ => True) (readSelector sel c i d s) := by
  cases sel
  case outb =>
    unfold readSelector
    dsimp only
    split
    · trivial
    · exact FaultCode.noConfusion
  case samp | coef | zz | qtab | fscale | ehuf => exact readEntry_ensures ..
  all_goals trivial

end Sys2Proof.Machine
end

section
/-! SUPPORT. What a command that takes no fault does to the output stream and to the predictors (20_memory.md R45,
10_state.md R20, 70_reset_and_hazards.md R246). -/

namespace Sys2Proof.Machine

/-! ### The stream from one state to the next -/

/-- `OUT` is extended at its end, if at all, and the predictors of components not in `cs` stay. -/
structure StreamGrows (cs : List (Fin 3)) (s t : State) : Prop where
  out : s.out <+: t.out
  pred : ∀ c : Fin 3, c ∉ cs → t.pred[c] = s.pred[c]

theorem StreamGrows.trans {cs : List (Fin 3)} {s t u : State} (h : StreamGrows cs s t) (h' : StreamGrows cs t u) :
    StreamGrows cs s u :=
  ⟨h.out.trans h'.out, fun c hc => (h'.pred c hc).trans (h.pred c hc)⟩

theorem StreamGrows.mono {cs ds : List (Fin 3)} (hsub : cs ⊆ ds) {s t : State} (h : StreamGrows cs s t) :
    StreamGrows ds s t :=
  ⟨h.out, fun c hc => h.pred c fun hmem => hc (hsub hmem)⟩

/-- A step that writes neither `OUT` nor `PRED`. -/
theorem StreamGrows.of_writesOnly {ps : List Piece} (cs : List (Fin 3)) {s t : State} (hw : WritesOnly ps s t)
    (hout : .out ∉ ps) (hpred : .pred ∉ ps) : StreamGrows cs s t := by
  have ho : t.out = s.out := hw.same .out hout
  have hp : t.pred = s.pred := hw.same .pred hpred
  exact ⟨by rw [ho], fun c _ => by rw [hp]⟩

/-! ### Stages that complete -/

/-- The stage grows the stream wherever it completes, and touches the predictors of `cs` alone. -/
def Stage.GrowsStream (cs : List (Fin 3)) (f : Stage) : Prop := ∀ s t : State, f s = .ok t → StreamGrows cs s t

theorem Stage.GrowsStream.andThen {cs : List (Fin 3)} {f g : Stage} (hf : f.GrowsStream cs) (hg : g.GrowsStream cs) :
    (f.andThen g).GrowsStream cs := by
  intro s t h
  obtain ⟨u, hu, ht⟩ := (andThen_eq_ok ..).1 h
  exact (hf s u hu).trans (hg u t ht)

theorem Stage.GrowsStream.mono {cs ds : List (Fin 3)} (hsub : cs ⊆ ds) {f : Stage} (hf : f.GrowsStream cs) :
    f.GrowsStream ds :=
  fun s t h => (hf s t h).mono hsub

/-- A stage that writes neither `OUT` nor `PRED`. -/
theorem StageWrites.growsStream {ps : List Piece} {f : Stage} (hf : StageWrites ps f) (hout : .out ∉ ps)
    (hpred : .pred ∉ ps) (cs : List (Fin 3)) : f.GrowsStream cs := by
  intro s t h
  obtain ⟨u, hu, hw⟩ | ⟨r, u, hu, -⟩ := hf s <;> cases hu.symm.trans h
  exact .of_writesOnly cs hw hout hpred

theorem encStage_growsStream (c : Fin 3) : (encStage c).GrowsStream [c] := by
  intro s t h
  obtain ⟨k, -, he⟩ | ⟨r, -, -, he⟩ | ⟨p, -, hp, he⟩ := encStage_cases c s <;> cases he.symm.trans h
  have hout : Extends s.packer (.ok p) := hp ▸ encodeBlock_extends s c
  refine ⟨hout, fun c' hc => ?_⟩
  have hne : c.val ≠ c'.val := fun heq => hc (List.mem_singleton.2 (Fin.ext heq.symm))
  exact Vector.getElem_set_ne c.isLt c'.isLt hne

theorem blkStage_growsStream (c : Fin 3) : (blkStage c).GrowsStream [c] :=
  .andThen ((fdctStage_writes c).growsStream (by simp) (by simp) _)
    (.andThen ((qzzStage_writes c).growsStream (by simp) (by simp) _) (encStage_growsStream c))

theorem mcuStage_growsStream : mcuStage.GrowsStream [0, 1, 2] :=
  .andThen ((blkStage_growsStream 0).mono (by simp))
    (.andThen ((blkStage_growsStream 1).mono (by simp)) ((blkStage_growsStream 2).mono (by simp)))

/-! ### Commands -/

/-- The components whose block a command codes (44_entropy_coder.md R130, 46_session_commands.md R173, R174). -/
def codedComponents : Instr → List (Fin 3)
  | .enc c | .blk c => [component c]
  | .mcu => [0, 1, 2]
  | _ => []

/-- A command that runs a stage and leaves another phase than `FAULTED`. -/
theorem finish_growsStream {ps : List Piece} {cs : List (Fin 3)} {f : Stage} (hw : StageWrites ps f)
    (hf : f.GrowsStream cs) {s t : State} (h : finish (f s) = .next t) (ht : t.phase ≠ .faulted) :
    StreamGrows cs s t := by
  obtain ⟨u, hu, -⟩ | ⟨r, u, hu, -⟩ := hw s <;> rw [hu] at h <;> cases h
  · obtain ⟨hout, hpred⟩ := hf s u hu
    exact ⟨hout, hpred⟩
  · exact absurd rfl ht

theorem closeImage_streamGrows (pad : Bool) (s : State) : StreamGrows [] s (closeImage pad s) := by
  cases pad with
  | false => exact ⟨⟨[], List.append_nil _⟩, fun _ _ => rfl⟩
  | true => exact ⟨pad1_out_isPrefix s.packer, fun _ _ => rfl⟩

/-- A command that writes neither `OUT` nor `PRED`, whatever it answers. -/
theorem AnsweredWriting.streamGrows {ps : List Piece} (cs : List (Fin 3)) {s t : State} (h : AnsweredWriting ps s t)
    (hout : .out ∉ ps) (hpred : .pred ∉ ps) : StreamGrows cs s t := by
  obtain ⟨u, hw, hr⟩ := h
  obtain ⟨ho, hp⟩ := StreamGrows.of_writesOnly cs hw hout hpred
  obtain ⟨r, rfl⟩ | ⟨r, rfl⟩ := hr <;> exact ⟨ho, hp⟩

theorem runOf_streamGrows {i : Instr} {s t : State} (hreset : i ≠ .reset) (hstart : i ≠ .start)
    (h : runOf i s = .next t) (ht : t.phase ≠ .faulted) : StreamGrows (codedComponents i) s t := by
  cases i
  case reset => exact absurd rfl hreset
  case start => exact absurd rfl hstart
  case enc c => exact finish_growsStream (encStage_writes _) (encStage_growsStream _) h ht
  case blk c => exact finish_growsStream (blkStage_writes _) (blkStage_growsStream _) h ht
  case mcu => exact finish_growsStream mcuStage_writes mcuStage_growsStream h ht
  case endImage pad =>
    cases h
    obtain ⟨hout, hpred⟩ := closeImage_streamGrows pad s
    exact ⟨hout, hpred⟩
  case putbits n v =>
    cases h
    exact ⟨putBits_out_isPrefix _ _ s.packer, fun _ _ => rfl⟩
  case ld buf c k value =>
    cases buf <;> exact (runOf_writes hreset h).streamGrows _ (by simp [writtenBy]) (by simp [writtenBy])
  all_goals exact (runOf_writes hreset h).streamGrows _ (by simp [writtenBy]) (by simp [writtenBy])

/-- A command that leaves another phase than `FAULTED` was legal and accepted, and did its own run. -/
theorem exec_completed {i : Instr} {s t : State} (h : exec i s = .next t) (ht : t.phase ≠ .faulted) :
    i.WellFormed ∧ AcceptedByTable i s ∧ runOf i s = .next t := by
  obtain ⟨hp, -, he⟩ | ⟨-, -, he⟩ | ⟨-, -, -, he⟩ | ⟨hw, ha, he⟩ := exec_cases i s
  · cases he.symm.trans h
    exact absurd hp ht
  · cases he.symm.trans h
    exact absurd rfl ht
  · cases he.symm.trans h
    exact absurd rfl ht
  · exact ⟨hw, ha, he.symm.trans h⟩

theorem byteOf_component {b : Byte} (h : componentOk b = true) : byteOf (component b).val = b := by
  have hlt : b.toNat < 3 := of_decide_eq_true h
  simp [byteOf, component, Nat.mod_eq_of_lt hlt]

/-- A legal command that codes the component `c` is `ENC c`, `BLK c` or `MCU`. -/
theorem eq_of_mem_codedComponents {i : Instr} (hw : i.WellFormed) {c : Fin 3} (hc : c ∈ codedComponents i) :
    i = .enc (byteOf c.val) ∨ i = .blk (byteOf c.val) ∨ i = .mcu := by
  cases i
  case enc b =>
    cases List.mem_singleton.1 hc
    exact .inl (by rw [byteOf_component hw])
  case blk b =>
    cases List.mem_singleton.1 hc
    exact .inr (.inl (by rw [byteOf_component hw]))
  case mcu => exact .inr (.inr rfl)
  all_goals cases hc

/-- Settles O59: the stream grows along the three stages of the pipeline, so it does along the run of every command that
completes. -/
theorem outputGrowsAndPredictorsPersist : Obligations.OutputGrowsAndPredictorsPersist := by
  intro i s t h hreset hstart ht
  obtain ⟨hw, -, hrun⟩ := exec_completed h ht
  obtain ⟨⟨more, hmore⟩, hpred⟩ := runOf_streamGrows hreset hstart hrun ht
  refine ⟨⟨more, hmore.symm⟩, fun c henc hblk hmcu => hpred c fun hc => ?_⟩
  obtain he | hb | hm := eq_of_mem_codedComponents hw hc
  · exact henc he
  · exact hblk hb
  · exact hmcu hm

end Sys2Proof.Machine
end

section
/-! SUPPORT. The invariants of every step: what a predicate on states must meet to be kept by a step, then the form of
the image memory (20_memory.md R40), the divisor tables (41_quant_tables.md R103), the Huffman tables
(43_huffman_builder.md R125) and the sequencing state (10_state.md R22 to R25). -/

namespace Sys2Proof.Machine

/-! ### What every step keeps -/

/-- The predicate depends on neither the host's moves nor the responses, and reset, the hand-over of an image, fault
entry and every command's own run keep it. -/
structure KeptByStep (Inv : State → Prop) : Prop where
  port : ∀ (rest : List HostMove) (s : State), Inv s → Inv { s with port := rest }
  respond : ∀ (r : Response) (s : State), Inv s → Inv (respond r s)
  reset : ∀ s : State, Inv s → Inv (resetCore s)
  image : ∀ (cells : List Host.Cell) (s : State), Inv s → Inv { s with img := Memory.ofCells cells }
  fault : ∀ (r : Raise) (s : State), r.code ≠ .none → Inv s → Inv (enterFault r s)
  run : ∀ (i : Instr) (s t : State), i ≠ .reset → AcceptedByTable i s → runOf i s = .next t → Inv s → Inv t

namespace KeptByStep

variable {Inv : State → Prop} {s t : State}

theorem takeFault (hk : KeptByStep Inv) {r : Raise} (hr : r.code ≠ .none) (h : takeFault r s = .next t) (hs : Inv s) :
    Inv t := by
  cases h
  exact hk.respond .fault _ (hk.fault r s hr hs)

theorem exec (hk : KeptByStep Inv) {i : Instr} (h : exec i s = .next t) (hs : Inv s) : Inv t := by
  by_cases hi : i = .reset
  · subst hi
    cases (exec_reset s).symm.trans h
    exact hk.respond .ok _ (hk.reset s hs)
  obtain ⟨-, -, he⟩ | ⟨-, -, he⟩ | ⟨-, -, -, he⟩ | ⟨-, ha, he⟩ := exec_cases i s
  · cases he.symm.trans h
    exact hk.respond .fault s hs
  · exact hk.takeFault (r := ⟨.illcmd, i.upper⟩) FaultCode.noConfusion (he.symm.trans h) hs
  · exact hk.takeFault (r := ⟨.seq, i.upper⟩) FaultCode.noConfusion (he.symm.trans h) hs
  · exact hk.run i s t hi ha (he.symm.trans h) hs

theorem issueIllegal (hk : KeptByStep Inv) {w : CommandWord} (h : issueIllegal w s = .next t) (hs : Inv s) :
    Inv t := by
  unfold Machine.issueIllegal at h
  split at h
  · cases h
    exact hk.respond .fault s hs
  · exact hk.takeFault FaultCode.noConfusion h hs

theorem supplyImage (hk : KeptByStep Inv) {cells : List Host.Cell} (h : supplyImage cells s = .next t) (hs : Inv s) :
    Inv t := by
  unfold Machine.supplyImage at h
  split at h <;> cases h
  exact hk.image cells s hs

/-- Every move of the host. -/
theorem step (hk : KeptByStep Inv) (h : step s = .next t) (hs : Inv s) : Inv t := by
  cases hport : s.port with
  | nil =>
    cases (step_waiting hport).symm.trans h
    exact hs
  | cons move rest =>
    have hrest := hk.port rest s hs
    cases move with
    | command w =>
      cases hdec : decode w with
      | ok i => exact hk.exec ((step_decoded hport hdec).symm.trans h) hrest
      | error e => exact hk.issueIllegal ((step_illegal hport hdec).symm.trans h) hrest
    | resetInput =>
      cases (step_resetInput hport).symm.trans h
      exact hk.reset _ hrest
    | supplyImage cells => exact hk.supplyImage ((step_supplyImage hport).symm.trans h) hrest

end KeptByStep

/-- What a command's run leaves as it is, by the column "written by" of 10_state.md R10. -/
theorem runOf_same {i : Instr} {s t : State} (hi : i ≠ .reset) (h : runOf i s = .next t) {p : Piece}
    (hp : mnemonic i ∉ p.writers) (hphase : p ≠ .phase) (hfault : p ≠ .faultRegisters) : p.same s t := by
  obtain ⟨u, hw, hr⟩ := runOf_writes hi h
  have hsame := hw.same p fun hmem => hp (writtenBy_writers i p hmem)
  obtain ⟨r, rfl⟩ | ⟨r, rfl⟩ := hr
  · exact (p.same_respond ..).2 hsame
  · exact (p.same_respond ..).2 ((p.same_enterFault hphase hfault ..).2 hsame)

/-! ### The image memory -/

theorem runOf_img {i : Instr} {s t : State} (hi : i ≠ .reset) (h : runOf i s = .next t) : t.img = s.img := by
  obtain ⟨u, hw, ⟨r, rfl⟩ | ⟨r, rfl⟩⟩ := runOf_writes hi h <;> exact hw.img

/-- No command writes the image, and what the host hands over is brought to the canonical form. -/
theorem memoryCanonical_keptByStep : KeptByStep MemoryCanonical where
  port _ _ hs := hs
  respond _ _ hs := hs
  reset _ hs := hs
  image cells _ _ := Memory.wf_ofCells cells
  fault _ _ _ hs := hs
  run i s t hi _ h hs := by
    unfold MemoryCanonical
    rw [runOf_img hi h]
    exact hs

/-! ### The divisor tables -/

theorem stdN_ne_zero (cl : Fin 2) (i : Fin 64) : stdN cl i ≠ 0 := by
  revert cl i
  decide

theorem lightN_ne_zero (cl : Fin 2) (i : Fin 64) : lightN cl i ≠ 0 := by
  have hlt := (Config.lightLessOne cl i).isLt
  intro h
  have hnat : ((Config.lightLessOne cl i).val + 1) % 2 ^ 8 = 0 := congrArg BitVec.toNat h
  omega

/-- Every preset holds divisors of 1 to 255 (41_quant_tables.md R103). -/
theorem preset_ne_zero (level : Half) (cl : Fin 2) (i : Fin 64) : preset level cl i ≠ 0 := by
  unfold preset
  split
  · exact lightN_ne_zero cl i
  split
  · exact stdN_ne_zero cl i
  · simp [unityN]

theorem configure_quantInv (level : Half) (strat : Strategy) (s : State) : QuantInv (configure level strat s) := by
  refine fun _ => ⟨fun cl k => ⟨preset level cl (zzInv k), ?_, preset_ne_zero level cl _⟩, fun hfast cl i => ?_⟩
  · simp [qtabOf]
  · obtain rfl : strat = .fast := hfast
    simp [fscaleOf]

theorem eq_cfg_of_mnemonic {i : Instr} (h : mnemonic i = "CFG") : ∃ level strat, i = .cfg level strat := by
  cases i <;> simp [mnemonic] at h ⊢

/-- `CFG` writes whole tables, and no other command writes what the invariant speaks of. -/
theorem quantInv_keptByStep : KeptByStep QuantInv where
  port _ _ hs := hs
  respond _ _ hs := hs
  reset _ _ := nofun
  image _ _ hs := hs
  fault _ _ _ hs := hs
  run i s t hi _ h hs := by
    by_cases hm : mnemonic i = "CFG"
    · obtain ⟨level, strat, rfl⟩ := eq_cfg_of_mnemonic hm
      cases h
      exact configure_quantInv level strat s
    · have hsame (p : Piece) (hp : p.writers = ["CFG"]) (hphase : p ≠ .phase) (hfault : p ≠ .faultRegisters) :
          p.same s t := runOf_same hi h (by simpa [hp] using hm) hphase hfault
      have hqvalid : t.qvalid = s.qvalid := hsame .qvalid rfl nofun nofun
      have hqtab : t.qtab = s.qtab := hsame .qtab rfl nofun nofun
      have hstrat : t.strat = s.strat := hsame .strat rfl nofun nofun
      have hfscale : t.fscale = s.fscale := hsame .fscale rfl nofun nofun
      unfold QuantInv
      rw [hqvalid, hqtab, hstrat, hfscale]
      exact hs

/-! ### The Huffman tables -/

theorem finish_hbuildStage_huffInv {s t : State} (h : finish (hbuildStage s) = .next t) (hs : HuffInv s) :
    HuffInv t := by
  obtain ⟨r, -, he⟩ | ⟨tabs, hb, he⟩ := hbuildStage_cases s <;> rw [he] at h <;> cases h
  · exact hs
  · have htabs := buildAll_ensures_bounded s.hspec
    rw [hb] at htabs
    exact fun _ => htabs

/-- `HBUILD` writes whole tables of bounded codes, and no other command writes what the invariant speaks of. -/
theorem huffInv_keptByStep : KeptByStep HuffInv where
  port _ _ hs := hs
  respond _ _ hs := hs
  reset _ _ := nofun
  image _ _ hs := hs
  fault _ _ _ hs := hs
  run i s t hi _ h hs := by
    by_cases hm : i = .hbuild
    · subst hm
      exact finish_hbuildStage_huffInv h hs
    · have hname : mnemonic i ∉ ["HBUILD"] := by cases i <;> simp [mnemonic] at hm ⊢
      have hhvalid : t.hvalid = s.hvalid := runOf_same (p := .hvalid) hi h hname nofun nofun
      have hehuf : t.ehuf = s.ehuf := runOf_same (p := .ehuf) hi h hname nofun nofun
      unfold HuffInv
      rw [hhvalid, hehuf]
      exact hs

/-! ### The sequencing state -/

/-- Fault entry with a fault code: `IMAGE` is left, and the dimensions stay. -/
theorem SequenceInv.enterFault {r : Raise} (hr : r.code ≠ .none) {s : State} (hs : SequenceInv s) :
    SequenceInv (enterFault r s) := by
  obtain ⟨-, hdim, -⟩ := hs
  exact ⟨nofun, hdim, fun _ => hr, fun _ => rfl⟩

/-- The stage keeps the sequencing invariant, whether it completes or faults. -/
def Stage.KeepsSequence (f : Stage) : Prop :=
  ∀ s t : State, SequenceInv s → f s = .ok t ∨ f s = .error t → SequenceInv t

theorem Stage.KeepsSequence.andThen {f g : Stage} (hf : f.KeepsSequence) (hg : g.KeepsSequence) :
    (f.andThen g).KeepsSequence := by
  intro s t hs h
  rw [andThen_eq_ok, andThen_eq_error] at h
  obtain ⟨u, hu, ht⟩ | he | ⟨u, hu, ht⟩ := h
  · exact hg u t (hf s u hs (.inl hu)) (.inl ht)
  · exact hf s t hs (.inr he)
  · exact hg u t (hf s u hs (.inl hu)) (.inr ht)

theorem Stage.KeepsSequence.finish {f : Stage} (hf : f.KeepsSequence) {s t : State} (hs : SequenceInv s)
    (h : finish (f s) = .next t) : SequenceInv t := by
  cases hfs : f s with
  | ok u =>
    rw [hfs] at h
    cases h
    exact hf s u hs (.inl hfs)
  | error u =>
    rw [hfs] at h
    cases h
    exact hf s u hs (.inr hfs)

/-- A stage is known by its one result. -/
theorem Stage.keepsSequence_of {f : Stage}
    (h : ∀ s, SequenceInv s → ∃ t, (f s = .ok t ∨ f s = .error t) ∧ SequenceInv t) : f.KeepsSequence := by
  intro s t hs ht
  obtain ⟨u, hu, hinv⟩ := h s hs
  obtain hu | hu := hu <;> obtain ht | ht := ht <;> cases hu.symm.trans ht <;> exact hinv

theorem fdctStage_keepsSequence (c : Fin 3) : (fdctStage c).KeepsSequence := by
  refine Stage.keepsSequence_of fun s hs => ?_
  obtain ⟨i, -, he⟩ | ⟨-, he⟩ := fdctStage_cases c s
  · exact ⟨_, .inr he, hs.enterFault FaultCode.noConfusion⟩
  · exact ⟨_, .inl he, hs⟩

theorem qzzStage_keepsSequence (c : Fin 3) : (qzzStage c).KeepsSequence := by
  refine Stage.keepsSequence_of fun s hs => ?_
  obtain ⟨i, -, he⟩ | ⟨r, -, hr, he⟩ | ⟨i, -, -, -, he⟩ | ⟨-, -, -, he⟩ := qzzStage_cases c s
  · exact ⟨_, .inr he, hs.enterFault FaultCode.noConfusion⟩
  · exact ⟨_, .inr he, hs.enterFault (quantTableBot_code hr)⟩
  · exact ⟨_, .inr he, SequenceInv.enterFault FaultCode.noConfusion hs⟩
  · exact ⟨_, .inl he, hs⟩

theorem afterEncFault_sequenceInv (r : Raise) {s : State} (hs : SequenceInv s) : SequenceInv (afterEncFault r s) := by
  unfold afterEncFault
  split
  · exact hs
  · exact hs

theorem encStage_keepsSequence (c : Fin 3) : (encStage c).KeepsSequence := by
  refine Stage.keepsSequence_of fun s hs => ?_
  obtain ⟨k, -, he⟩ | ⟨r, -, hr, he⟩ | ⟨p, -, -, he⟩ := encStage_cases c s
  · exact ⟨_, .inr he, hs.enterFault FaultCode.noConfusion⟩
  · have hcode : Extends s.packer (.error r) := hr ▸ encodeBlock_extends s c
    exact ⟨_, .inr he, (afterEncFault_sequenceInv r hs).enterFault hcode⟩
  · exact ⟨_, .inl he, hs⟩

theorem blkStage_keepsSequence (c : Fin 3) : (blkStage c).KeepsSequence :=
  .andThen (fdctStage_keepsSequence c) (.andThen (qzzStage_keepsSequence c) (encStage_keepsSequence c))

theorem mcuStage_keepsSequence : mcuStage.KeepsSequence :=
  .andThen (blkStage_keepsSequence 0) (.andThen (blkStage_keepsSequence 1) (blkStage_keepsSequence 2))

theorem hbuildStage_keepsSequence : hbuildStage.KeepsSequence := by
  refine Stage.keepsSequence_of fun s hs => ?_
  obtain ⟨r, hr, he⟩ | ⟨tabs, -, he⟩ := hbuildStage_cases s
  · have hcode := buildAll_ensures_bounded s.hspec
    rw [hr] at hcode
    exact ⟨_, .inr he, hs.enterFault hcode⟩
  · obtain ⟨himage, hdim, hfault⟩ := hs
    exact ⟨_, .inl he, fun hp => ⟨(himage hp).1, rfl⟩, hdim, hfault⟩

theorem declareImage_keepsSequence (w h : Half) : (declareImage w h).KeepsSequence := by
  refine Stage.keepsSequence_of fun s hs => ?_
  obtain ⟨-, he⟩ | ⟨hw, hh, he⟩ := declareImage_cases w h s
  · exact ⟨_, .inr he, hs.enterFault FaultCode.noConfusion⟩
  · obtain ⟨himage, -, hfault⟩ := hs
    exact ⟨_, .inl he, himage, fun _ => ⟨hw, hh⟩, hfault⟩

theorem runRead_sequenceInv {sel : Selector} {c k : Byte} {d : Word} {s t : State} (hs : SequenceInv s)
    (h : runRead sel c k d s = .next t) : SequenceInv t := by
  have hread := readSelector_ensures sel c k d s
  unfold runRead at h
  cases hr : readSelector sel c k d s with
  | ok r =>
    rw [hr] at h
    cases h
    exact hs
  | error r =>
    rw [hr] at h hread
    cases h
    exact hs.enterFault hread

theorem runTile_sequenceInv {mx my : Half} {s t : State} (hs : SequenceInv s) (h : runTile mx my s = .next t) :
    SequenceInv t := by
  unfold runTile at h
  split at h
  · cases h
    exact hs.enterFault (r := ⟨.precond, 0⟩) FaultCode.noConfusion
  split at h
  · cases h
    exact hs.enterFault (r := ⟨.illcmd, (Instr.tile mx my).upper⟩) FaultCode.noConfusion
  split at h <;> cases h
  exact hs

theorem loadEntry_sequenceInv (buf : Buffer) (c : Fin 3) (k : Fin 64) (value : Word) {s : State} (hs : SequenceInv s) :
    SequenceInv (loadEntry buf c k value s) := by
  cases buf <;> exact hs

theorem configure_sequenceInv (level : Half) (strat : Strategy) {s : State} (hs : SequenceInv s) :
    SequenceInv (configure level strat s) := by
  obtain ⟨himage, hdim, hfault⟩ := hs
  exact ⟨fun hp => ⟨rfl, (himage hp).2⟩, hdim, hfault⟩

/-- Outside `FAULTED` there is no fault code, so another phase may be entered. -/
theorem SequenceInv.setPhase {s : State} (hs : SequenceInv s) (hp : s.phase ≠ .faulted) {ph : Phase}
    (hph : ph ≠ .faulted) (hvalid : ph = .image → s.qvalid = true ∧ s.hvalid = true) :
    SequenceInv { s with phase := ph } := by
  obtain ⟨-, hdim, hfault⟩ := hs
  exact ⟨hvalid, hdim, fun h => absurd h hph, fun h => absurd (hfault.2 h) hp⟩

/-- `START` enters `IMAGE` with both tables valid, `END` leaves it, and no other run changes the phase but by a
fault. -/
theorem sequenceInv_keptByStep : KeptByStep SequenceInv where
  port _ _ hs := hs
  respond _ _ hs := hs
  reset _ _ := ⟨nofun, nofun, nofun, fun h => absurd rfl h⟩
  image _ _ hs := hs
  fault _ _ hr hs := hs.enterFault hr
  run i s t hi ha h hs := by
    cases i with
    | reset => exact absurd rfl hi
    | cfg level strat =>
      have hconf := configure_sequenceInv level strat hs
      cases h
      exact hconf
    | hbuild => exact hbuildStage_keepsSequence.finish hs h
    | img w h' => exact (declareImage_keepsSequence w h').finish hs h
    | start =>
      obtain ⟨hidle, hvalid⟩ := ha
      cases h
      exact hs.setPhase (by simp [hidle]) nofun fun _ => hvalid
    | endImage pad =>
      obtain ⟨himage, -⟩ := ha
      have hidle := hs.setPhase (ph := .idle) (by simp [himage]) nofun nofun
      cases h
      cases pad <;> exact hidle
    | rd sel c k d => exact runRead_sequenceInv hs h
    | ld buf c k value =>
      cases h
      exact loadEntry_sequenceInv buf _ _ value hs
    | tile mx my => exact runTile_sequenceInv hs h
    | fdct c => exact (fdctStage_keepsSequence _).finish hs h
    | qzz c => exact (qzzStage_keepsSequence _).finish hs h
    | enc c => exact (encStage_keepsSequence _).finish hs h
    | putbits n v =>
      cases h
      exact hs
    | blk c => exact (blkStage_keepsSequence _).finish hs h
    | mcu => exact mcuStage_keepsSequence.finish hs h

/-- Settles O57: each of the four predicates is kept by every kind of step, from itself alone. -/
theorem stepKeepsInvariants : Obligations.StepKeepsInvariants :=
  fun _ _ h => ⟨memoryCanonical_keptByStep.step h, quantInv_keptByStep.step h, huffInv_keptByStep.step h,
    sequenceInv_keptByStep.step h⟩

end Sys2Proof.Machine
end

section
/-! SUPPORT. The command word (30_encoding.md R60 to R62, R64): its five fields, the decoder and the encoder read field
by field, the codes of the operands that are names, and the opcode table read the same way. -/

namespace Sys2Proof

/-! ### The fields of a word -/

/-- A word is its five fields (30_encoding.md R60). -/
theorem packWord_fields (w : CommandWord) : packWord (fieldOPC w) (fieldA w) (fieldC w) (fieldI w) (fieldD w) = w := by
  simp (disch := decide) only [packWord, fieldOPC, fieldA, fieldC, fieldI, fieldD,
    BitVec.extractLsb'_append_extractLsb'_eq_extractLsb']
  exact BitVec.extractLsb'_eq_self

@[simp] theorem fieldOPC_packWord (opc a c i : Byte) (d : Word) : fieldOPC (packWord opc a c i d) = opc :=
  Laws.fieldOPC_packWord opc a c i d

@[simp] theorem fieldA_packWord (opc a c i : Byte) (d : Word) : fieldA (packWord opc a c i d) = a := by
  simp (disch := decide) only [fieldA, packWord, BitVec.extractLsb'_append_eq_of_le,
    BitVec.extractLsb'_append_eq_of_add_le]
  exact BitVec.extractLsb'_eq_self

@[simp] theorem fieldC_packWord (opc a c i : Byte) (d : Word) : fieldC (packWord opc a c i d) = c := by
  simp (disch := decide) only [fieldC, packWord, BitVec.extractLsb'_append_eq_of_le,
    BitVec.extractLsb'_append_eq_of_add_le]
  exact BitVec.extractLsb'_eq_self

@[simp] theorem fieldI_packWord (opc a c i : Byte) (d : Word) : fieldI (packWord opc a c i d) = i := by
  simp (disch := decide) only [fieldI, packWord, BitVec.extractLsb'_append_eq_of_le,
    BitVec.extractLsb'_append_eq_of_add_le]
  exact BitVec.extractLsb'_eq_self

@[simp] theorem fieldD_packWord (opc a c i : Byte) (d : Word) : fieldD (packWord opc a c i d) = d := by
  simp (disch := decide) only [fieldD, packWord, BitVec.extractLsb'_append_eq_of_add_le]
  exact BitVec.extractLsb'_eq_self

/-- Which word a packed word is, field by field. -/
theorem packWord_eq_iff {opc a c i : Byte} {d : Word} {w : CommandWord} :
    packWord opc a c i d = w ↔ fieldOPC w = opc ∧ fieldA w = a ∧ fieldC w = c ∧ fieldI w = i ∧ fieldD w = d := by
  constructor
  · rintro rfl
    simp
  · rintro ⟨rfl, rfl, rfl, rfl, rfl⟩
    exact packWord_fields w

/-! ### The parts of a field -/

theorem aIsBit_eq (w : CommandWord) : aIsBit w = ((fieldA w).extractLsb' 1 7 == 0) := by
  have h : w.extractLsb' 49 7 = (fieldA w).extractLsb' 1 7 := by
    ext k hk
    simp [fieldA, BitVec.getElem_extractLsb', show 1 + k < 8 by omega, ← Nat.add_assoc]
  rw [aIsBit, h]

theorem getLsbD_48_eq (w : CommandWord) : w.getLsbD 48 = (fieldA w).getLsbD 0 := by
  simp [fieldA]

theorem fieldDlo_eq (w : CommandWord) : fieldDlo w = (fieldD w).extractLsb' 0 16 := by
  ext k hk
  simp [fieldDlo, fieldD, BitVec.getElem_extractLsb']

theorem fieldDhi_eq (w : CommandWord) : fieldDhi w = (fieldD w).extractLsb' 16 16 := by
  ext k hk
  simp [fieldDhi, fieldD, BitVec.getElem_extractLsb']

theorem bitField_high (b : BitVec 1) : (bitField b).extractLsb' 1 7 = 0 := by
  revert b; decide

theorem bitField_low (b : BitVec 1) : (bitField b).getLsbD 0 = b.getLsbD 0 := by
  revert b; decide

theorem eq_bitField_of_high_eq_zero (a : Byte) (h : a.extractLsb' 1 7 = 0) :
    a = bitField (BitVec.ofBool (a.getLsbD 0)) := by
  revert a; decide

/-- A field `A` that holds one bit is read off by that bit. -/
theorem fieldA_eq_bitField {w : CommandWord} (h : aIsBit w = true) :
    fieldA w = bitField (BitVec.ofBool (w.getLsbD 48)) := by
  rw [getLsbD_48_eq]
  exact eq_bitField_of_high_eq_zero _ (by simpa [aIsBit_eq] using h)

theorem low_append (x y : Half) : (x ++ y).extractLsb' 0 16 = y := by
  rw [BitVec.extractLsb'_append_eq_of_add_le (by decide)]
  exact BitVec.extractLsb'_eq_self

theorem high_append (x y : Half) : (x ++ y).extractLsb' 16 16 = x := by
  rw [BitVec.extractLsb'_append_eq_of_le (by decide)]
  exact BitVec.extractLsb'_eq_self

/-- A 16-bit operand in the field `D`. -/
theorem setWidth_half (x : Half) : x.setWidth 32 = (0 : Half) ++ x :=
  BitVec.setWidth_eq_append (by decide)

theorem fieldD_eq_append (w : CommandWord) : fieldD w = fieldDhi w ++ fieldDlo w := by
  rw [fieldDhi_eq, fieldDlo_eq, BitVec.extractLsb'_append_extractLsb']

/-! ### The codes of named operands (30_encoding.md R62, 10_state.md R27) -/

theorem Strategy.ofBit_bit (strat : Strategy) : Strategy.ofBit (strat.bit.getLsbD 0) = strat := by
  cases strat <;> rfl

theorem Strategy.bit_ofBit (b : Bool) : (Strategy.ofBit b).bit = BitVec.ofBool b := by
  cases b <;> rfl

theorem Buffer.ofCode_code (buf : Buffer) : Buffer.ofCode buf.code = some buf := by
  cases buf <;> rfl

theorem Buffer.code_of_ofCode {a : Byte} {buf : Buffer} (h : Buffer.ofCode a = some buf) : buf.code = a := by
  unfold Buffer.ofCode at h
  split at h
  · cases h
    exact Eq.symm ‹_›
  split at h
  · cases h
    exact Eq.symm ‹_›
  split at h <;> cases h
  exact Eq.symm ‹_›

theorem Selector.ofCode_code (sel : Selector) : Selector.ofCode sel.code = some sel := by
  cases sel <;> rfl

theorem Selector.code_of_ofCode {a : Byte} {sel : Selector} (h : Selector.ofCode a = some sel) : sel.code = a := by
  unfold Selector.ofCode at h
  split at h <;> cases h
  all_goals exact BitVec.eq_of_toNat_eq (Eq.symm ‹_›)

/-! ### Encoding and decoding -/

theorem checked_eq_ok {unusedZero : Bool} {i j : Instr} :
    checked unusedZero i = .ok j ↔ unusedZero = true ∧ i.WellFormed ∧ i = j := by
  unfold checked
  by_cases hz : unusedZero = true <;> by_cases hw : i.wf = true <;> simp [hz, hw, Instr.WellFormed]

theorem exists_checked_eq_ok {unusedZero : Bool} {i : Instr} :
    (∃ j, checked unusedZero i = .ok j) ↔ unusedZero = true ∧ i.WellFormed := by
  simp [checked_eq_ok]

/-- The decoder finds in a command's own word the operands that were put there, and no other bit. -/
theorem decode_encode_eq_checked (i : Instr) : decode (encode i) = checked true i := by
  cases i
  case cfg | endImage =>
    simp [-BitVec.getLsbD_eq_getElem, decode, encode, aIsBit_eq, getLsbD_48_eq, fieldDhi_eq, fieldDlo_eq,
      bitField_high, bitField_low, setWidth_half, low_append, high_append, Strategy.ofBit_bit]
  case img | tile | putbits => simp [decode, encode, fieldDhi_eq, fieldDlo_eq, setWidth_half, low_append, high_append]
  case rd => simp [decode, encode, Selector.ofCode_code]
  case ld => simp [decode, encode, Buffer.ofCode_code]
  all_goals simp [decode, encode]

theorem decode_encode {i : Instr} (hi : i.WellFormed) : decode (encode i) = .ok i := by
  rw [decode_encode_eq_checked, checked_eq_ok]
  exact ⟨rfl, hi, rfl⟩

/-- What the decoder read and the bits it found zero are the whole word. -/
theorem encode_of_decode {w : CommandWord} {i : Instr} (h : decode w = .ok i) : encode i = w ∧ i.WellFormed := by
  unfold decode at h
  dsimp only at h
  split at h
  case h_7 hopc =>
    split at h
    next sel hsel =>
      obtain ⟨-, hwf, rfl⟩ := checked_eq_ok.1 h
      exact ⟨packWord_eq_iff.2 ⟨BitVec.eq_of_toNat_eq hopc, (Selector.code_of_ofCode hsel).symm, rfl, rfl, rfl⟩, hwf⟩
    next => cases h
  case h_8 hopc =>
    split at h
    next buf hbuf =>
      obtain ⟨-, hwf, rfl⟩ := checked_eq_ok.1 h
      exact ⟨packWord_eq_iff.2 ⟨BitVec.eq_of_toNat_eq hopc, (Buffer.code_of_ofCode hbuf).symm, rfl, rfl, rfl⟩, hwf⟩
    next => cases h
  case h_16 => cases h
  all_goals
    rename_i hopc
    obtain ⟨hzero, hwf, rfl⟩ := checked_eq_ok.1 h
    simp only [Bool.and_eq_true, beq_iff_eq] at hzero
    refine ⟨packWord_eq_iff.2 ⟨BitVec.eq_of_toNat_eq hopc, ?_⟩, hwf⟩
  case h_2 | h_6 => simp [hzero, fieldA_eq_bitField, Strategy.bit_ofBit, setWidth_half, fieldD_eq_append]
  all_goals simp [hzero, setWidth_half, fieldD_eq_append]

/-! ### The opcode table, field by field -/

theorem and_eq_iff (w mask bits : CommandWord) :
    w &&& mask = bits ↔
      fieldOPC w &&& mask.extractLsb' 56 8 = bits.extractLsb' 56 8 ∧
      fieldA w &&& mask.extractLsb' 48 8 = bits.extractLsb' 48 8 ∧
      fieldC w &&& mask.extractLsb' 40 8 = bits.extractLsb' 40 8 ∧
      fieldI w &&& mask.extractLsb' 32 8 = bits.extractLsb' 32 8 ∧
      fieldD w &&& mask.extractLsb' 0 32 = bits.extractLsb' 0 32 := by
  conv_lhs => rw [← packWord_fields bits, eq_comm, packWord_eq_iff]
  simp only [fieldOPC, fieldA, fieldC, fieldI, fieldD, BitVec.extractLsb'_and]

theorem fieldOPC_eq_iff (w : CommandWord) (opc : Byte) : fieldOPC w = opc ↔ (fieldOPC w).toNat = opc.toNat :=
  BitVec.toNat_inj.symm

@[simp] theorem and_byteMask (a : Byte) : a &&& 0xFF#8 = a := BitVec.and_allOnes

@[simp] theorem and_wordMask (d : Word) : d &&& 0xFFFFFFFF#32 = d := BitVec.and_allOnes

@[simp] theorem and_bitMask_eq_zero (w : CommandWord) : fieldA w &&& 0xFE#8 = 0#8 ↔ aIsBit w = true := by
  have h : ∀ a : Byte, a &&& 0xFE#8 = 0#8 ↔ a.extractLsb' 1 7 = 0 := by decide
  rw [h, aIsBit_eq, beq_iff_eq]

@[simp] theorem and_highMask_eq_zero (w : CommandWord) : fieldD w &&& 0xFFFF0000#32 = 0#32 ↔ fieldDhi w = 0 := by
  have h : fieldD w &&& 0xFFFF0000#32 = fieldDhi w ++ (0 : Half) := by
    rw [fieldD_eq_append, show 0xFFFF0000#32 = BitVec.allOnes 16 ++ (0 : Half) from rfl, BitVec.and_append,
      BitVec.and_allOnes]
    exact congrArg _ BitVec.and_zero
  rw [h]
  constructor
  · intro hzero
    simpa [high_append] using congrArg (BitVec.extractLsb' 16 16) hzero
  · intro hzero
    rw [hzero]
    rfl

/-! ### The operand ranges -/

theorem legalWord_iff (w : CommandWord) :
    LegalWord w ↔ (∃ row ∈ opcodeTable, w &&& row.mask = row.bits) ∧
      RangesOk (fieldOPC w).toNat (fieldA w).toNat (fieldC w).toNat (fieldI w).toNat (fieldD w).toNat := by
  have hopc : w.toNat / 2 ^ 56 = w.toNat / 2 ^ 56 % 2 ^ 8 := by
    have := w.isLt
    omega
  rw [LegalWord, hopc]
  simp only [fieldOPC, fieldA, fieldC, fieldI, fieldD, BitVec.extractLsb'_toNat, Nat.shiftRight_eq_div_pow,
    Nat.pow_zero, Nat.div_one]

/-- The ranges of 10_state.md R27 are those of a selector's row. -/
theorem rangesOk_rd (a c i : Byte) (d : Word) :
    RangesOk 0x06 a.toNat c.toNat i.toNat d.toNat ↔
      ∃ sel, Selector.ofCode a = some sel ∧ (Instr.rd sel c i d).WellFormed := by
  have h : RangesOk 0x06 a.toNat c.toNat i.toNat d.toNat ↔ ReadOperandsOk a.toNat c.toNat i.toNat d.toNat := by
    simp [RangesOk]
  rw [h]
  unfold Selector.ofCode
  split
  case h_18 =>
    simp only [ReadOperandsOk, imp_false, reduceCtorEq, false_and, exists_false, iff_false] at *
    omega
  all_goals
    rename_i ha
    simp [ReadOperandsOk, ha, Instr.WellFormed, Instr.wf, Selector.operandsOk, componentOk, indexOk, and_assoc,
      ← BitVec.toNat_inj]

theorem high_eq_zero_iff (d : Word) : d.extractLsb' 16 16 = 0#16 ↔ d.toNat < 65536 := by
  have := d.isLt
  rw [← BitVec.toNat_inj, BitVec.extractLsb'_toNat, Nat.shiftRight_eq_div_pow, BitVec.toNat_ofNat]
  omega

theorem rangesOk_ld (a c i : Byte) (d : Word) :
    RangesOk 0x07 a.toNat c.toNat i.toNat d.toNat ↔
      ∃ buf, Buffer.ofCode a = some buf ∧ (Instr.ld buf c i d).WellFormed := by
  unfold Buffer.ofCode
  split
  · simp [RangesOk, *, Instr.WellFormed, Instr.wf, componentOk, indexOk]
  split
  · simp [RangesOk, *, Instr.WellFormed, Instr.wf, componentOk, indexOk]
  split
  · simp [RangesOk, *, Instr.WellFormed, Instr.wf, componentOk, indexOk, high_eq_zero_iff, and_assoc]
  · have ha : ¬ a.toNat ≤ 2 := by bv_omega
    simp [RangesOk, ha]

/-! ### The legal words -/

/-- Opcode by opcode, the one row that can match asks for the zeros the decoder asks for, and the ranges are those of
the command's operands. -/
theorem exists_decode_eq_ok_iff (w : CommandWord) : (∃ i, decode w = .ok i) ↔ LegalWord w := by
  rw [legalWord_iff]
  unfold decode
  dsimp only
  split
  case h_7 hopc =>
    have hrow : ∃ row ∈ opcodeTable, w &&& row.mask = row.bits := by
      simp [opcodeTable, and_eq_iff, fieldOPC_eq_iff, hopc]
    rw [and_iff_right hrow, hopc, rangesOk_rd]
    cases Selector.ofCode (fieldA w) <;> simp [exists_checked_eq_ok]
  case h_8 hopc =>
    have hrow : ∃ row ∈ opcodeTable, w &&& row.mask = row.bits := by
      simp [opcodeTable, and_eq_iff, fieldOPC_eq_iff, hopc]
    rw [and_iff_right hrow, hopc, rangesOk_ld]
    cases Buffer.ofCode (fieldA w) <;> simp [exists_checked_eq_ok]
  case h_16 =>
    simp only [imp_false] at *
    simp [opcodeTable, and_eq_iff, fieldOPC_eq_iff, *]
  all_goals
    rename_i hopc
    rw [exists_checked_eq_ok]
    simp [opcodeTable, and_eq_iff, fieldOPC_eq_iff, hopc, RangesOk, Instr.WellFormed, Instr.wf, componentOk, and_assoc]

/-! ### The obligations -/

/-- Settles O2: a well-formed command passes the checks of its own word. -/
theorem decodeOfEncode : Obligations.DecodeOfEncode := fun _ hi => decode_encode hi

/-- Settles O3: the rows and ranges are compared with the decoder opcode by opcode, and a decoded word is put together
again from its fields. -/
theorem decodingIsExact : Obligations.DecodingIsExact := ⟨exists_decode_eq_ok_iff, fun _ _ h => encode_of_decode h⟩

/-- Settles O1: eight of the words are `encode` of their commands, and the ninth has a bit set beside `A[0]`. -/
theorem decodeSampleWords : Obligations.DecodeSampleWords :=
  ⟨decode_encode (i := .reset) rfl, decode_encode (i := .cfg 3 .fast) rfl, decode_encode (i := .img 0x20 0x10) rfl,
    decode_encode (i := .endImage true) rfl, decode_encode (i := .rd .ehuf 1 0xF0 0) rfl,
    decode_encode (i := .ld .zz 0 1 0xFFFD) rfl, by decide, decode_encode (i := .fdct 2) rfl,
    decode_encode (i := .putbits 8 0xFF) rfl⟩

end Sys2Proof
end

section
/-! SUPPORT. Every command answers once (30_encoding.md R63): `TILE` never leaves the image space (47_frontend.md R195),
a read answers with a datum, and every other run ends in `OK` or in a fault. -/

namespace Sys2Proof.Machine

/-! ### The addresses of a tile -/

theorem lt_tilesAcross_iff (m n : Half) : m.toNat < tilesAcross n ↔ 8 * m.toNat < n.toNat := by
  unfold tilesAcross
  omega

theorem clampPixel_lt {m n : Half} (h : 8 * m.toNat < n.toNat) (k : Nat) : clampPixel m k n < n.toNat := by
  unfold clampPixel
  omega

/-- The last byte of the pixel in column `x` of row `y` lies in the image space. -/
theorem pixelAddress_add_two_lt {s : State} {mx my : Half} (hx : 8 * mx.toNat < s.w.toNat)
    (hy : 8 * my.toNat < s.h.toNat) (k : Nat) : pixelAddress s mx my k + 2 < imageSize s := by
  have hcol := clampPixel_lt hx (k % 8)
  have hrow := clampPixel_lt hy (k / 8)
  have hpixel : clampPixel my (k / 8) s.h * s.w.toNat + clampPixel mx (k % 8) s.w < s.w.toNat * s.h.toNat := by
    calc clampPixel my (k / 8) s.h * s.w.toNat + clampPixel mx (k % 8) s.w
        < (clampPixel my (k / 8) s.h + 1) * s.w.toNat := by rw [Nat.succ_mul]; omega
      _ ≤ s.h.toNat * s.w.toNat := Nat.mul_le_mul_right _ hrow
      _ = s.w.toNat * s.h.toNat := Nat.mul_comm _ _
  unfold pixelAddress imageSize
  omega

theorem readPixel_inside {s : State} {a : Nat} (h : a + 2 < imageSize s) : ∃ p, readPixel s a = .ok p := by
  unfold readPixel
  rw [memRead_inside (by omega : a < imageSize s), memRead_inside (by omega : a + 1 < imageSize s), memRead_inside h]
  exact ⟨_, rfl⟩

theorem readPixels_ok {s : State} {mx my : Half} (hx : 8 * mx.toNat < s.w.toNat) (hy : 8 * my.toNat < s.h.toNat)
    (ks : List Nat) : ∃ pixels, readPixels s mx my ks = .ok pixels := by
  induction ks with
  | nil => exact ⟨[], rfl⟩
  | cons k rest ih =>
    obtain ⟨p, hp⟩ := readPixel_inside (pixelAddress_add_two_lt hx hy k)
    obtain ⟨ps, hps⟩ := ih
    exact ⟨p :: ps, by rw [readPixels, hp, hps]; rfl⟩

/-- Everything `TILE` can do (47_frontend.md R192, R193). -/
theorem runTile_cases (mx my : Half) (s : State) :
    (∃ r, runTile mx my s = takeFault r s) ∨ ∃ samp, runTile mx my s = answerOk { s with samp := samp } := by
  unfold runTile
  split
  · exact .inl ⟨_, rfl⟩
  split
  · exact .inl ⟨_, rfl⟩
  next hgrid =>
    rw [not_or, Nat.not_le, Nat.not_le, lt_tilesAcross_iff, lt_tilesAcross_iff] at hgrid
    obtain ⟨pixels, hread⟩ := readPixels_ok hgrid.1 hgrid.2 (List.range 64)
    rw [hread]
    exact .inr ⟨_, rfl⟩

/-! ### The datum of a read -/

/-- A response that carries a datum. -/
def Response.IsDatum (r : Response) : Prop := r ≠ .ok ∧ r ≠ .fault

theorem readEntry_datum {α : Type} (sel : Selector) (c i : Byte) (entry : Option α) {answer : α → Response}
    (hanswer : ∀ x, (answer x).IsDatum) : Ensures Response.IsDatum (readEntry sel c i entry answer) := by
  cases entry with
  | none => exact FaultCode.noConfusion
  | some x => exact hanswer x

theorem readSelector_datum (sel : Selector) (c i : Byte) (d : Word) (s : State) :
    Ensures Response.IsDatum (readSelector sel c i d s) := by
  cases sel
  case outb =>
    unfold readSelector
    dsimp only
    split
    · exact ⟨nofun, nofun⟩
    · exact FaultCode.noConfusion
  case samp | coef | zz | qtab | fscale | ehuf => exact readEntry_datum _ _ _ _ fun _ => ⟨nofun, nofun⟩
  all_goals exact ⟨nofun, nofun⟩

/-! ### One answer -/

/-- The outcome is a next state with one response more, one that fits the command: `FAULT` leaves phase `FAULTED`, and
beside it a read answers with a datum and any other command with `OK`. -/
def AnswersOnce (i : Instr) (s : State) (o : Out) : Prop :=
  ∃ (t : State) (r : Response), o = .next t ∧ t.responses = r :: s.responses ∧ (r = .fault → t.phase = .faulted) ∧
    (mnemonic i ≠ "RD" → r = .ok ∨ r = .fault) ∧ (mnemonic i = "RD" → r ≠ .ok)

namespace AnswersOnce

variable {i : Instr} {s u : State}

theorem respond_fault (hphase : u.phase = .faulted) (hrec : u.responses = s.responses) :
    AnswersOnce i s (.next (respond .fault u)) :=
  ⟨_, .fault, rfl, by simp [hrec], fun _ => hphase, fun _ => .inr rfl, nofun⟩

theorem takeFault (r : Raise) (hrec : u.responses = s.responses) : AnswersOnce i s (takeFault r u) :=
  respond_fault (u := enterFault r u) rfl hrec

theorem answerOk (hrec : u.responses = s.responses) (hi : mnemonic i ≠ "RD" := by simp [mnemonic]) :
    AnswersOnce i s (answerOk u) :=
  ⟨_, .ok, rfl, by simp [hrec], nofun, fun _ => .inl rfl, fun h => absurd h hi⟩

theorem finish {ps : List Piece} {f : Stage} (hf : StageWrites ps f)
    (hi : mnemonic i ≠ "RD" := by simp [mnemonic]) :
    AnswersOnce i s (finish (f s)) := by
  obtain ⟨u, h, hw⟩ | ⟨r, u, h, hw⟩ := hf s
  · rw [h]
    exact answerOk hw.responses hi
  · rw [h]
    exact takeFault r hw.responses

theorem runRead (sel : Selector) (c k : Byte) (d : Word) (s : State) :
    AnswersOnce (.rd sel c k d) s (runRead sel c k d s) := by
  have hdatum := readSelector_datum sel c k d s
  unfold Machine.runRead
  cases hr : readSelector sel c k d s with
  | ok r =>
    rw [hr] at hdatum
    exact ⟨_, r, rfl, rfl, fun h => absurd h hdatum.2, fun h => absurd rfl h, fun _ => hdatum.1⟩
  | error r => exact takeFault r rfl

theorem runTile (mx my : Half) (s : State) : AnswersOnce (.tile mx my) s (runTile mx my s) := by
  obtain ⟨r, h⟩ | ⟨samp, h⟩ := runTile_cases mx my s
  · rw [h]
    exact takeFault r rfl
  · rw [h]
    exact answerOk rfl

theorem runOf (i : Instr) (s : State) : AnswersOnce i s (runOf i s) := by
  cases i with
  | reset => exact answerOk rfl
  | cfg level strat => exact answerOk rfl
  | hbuild => exact finish hbuildStage_writes
  | img w h => exact finish (declareImage_writes w h)
  | start => exact answerOk rfl
  | endImage pad => exact answerOk (closeImage_writes pad s).responses
  | rd sel c k d => exact runRead sel c k d s
  | ld buf c k value => exact answerOk (loadEntry_writes buf c k value s).responses
  | tile mx my => exact runTile mx my s
  | fdct c => exact finish (fdctStage_writes _)
  | qzz c => exact finish (qzzStage_writes _)
  | enc c => exact finish (encStage_writes _)
  | putbits n v => exact answerOk rfl
  | blk c => exact finish (blkStage_writes _)
  | mcu => exact finish mcuStage_writes

/-- Whether a command is refused or runs. -/
theorem exec (i : Instr) (s : State) : AnswersOnce i s (exec i s) := by
  rw [exec_eq_issue]
  obtain ⟨hp, -, h⟩ | ⟨-, -, h⟩ | ⟨-, -, -, h⟩ | ⟨-, -, h⟩ := issue_cases i s (Machine.runOf i)
  · rw [h]
    exact respond_fault hp rfl
  · rw [h]
    exact takeFault _ rfl
  · rw [h]
    exact takeFault _ rfl
  · rw [h]
    exact runOf i s

end AnswersOnce

/-- Settles O11: the checks refuse with a fault, and each command's own run answers once, `TILE` because no address it
forms lies outside the image space. -/
theorem everyCommandAnswersOnce : Obligations.EveryCommandAnswersOnce := AnswersOnce.exec

end Sys2Proof.Machine
end

section
/-! SUPPORT. The exact arithmetic as arithmetic on real numbers (00_scope.md R7): what each operation on `Alg` denotes,
the sign, and the deviation of a reference value. -/

namespace Sys2Proof

/-! ### The cosines -/

/-- `C_k`. -/
noncomputable def cosC (k : ℕ) : ℝ := Real.cos (k * Real.pi / 16)

@[simp] theorem cosC_zero : cosC 0 = 1 := by simp [cosC]

@[simp] theorem cosC_eight : cosC 8 = 0 := by
  rw [cosC, show ((8 : ℕ) : ℝ) * Real.pi / 16 = Real.pi / 2 by push_cast; ring, Real.cos_pi_div_two]

theorem cosC_four : cosC 4 = Real.sqrt 2 / 2 := by
  rw [cosC, show ((4 : ℕ) : ℝ) * Real.pi / 16 = Real.pi / 4 by push_cast; ring, Real.cos_pi_div_four]

theorem cosC_pos {k : ℕ} (h : k < 8) : 0 < cosC k := by
  have hk : (k : ℝ) < 8 := by exact_mod_cast h
  apply Real.cos_pos_of_mem_Ioo
  constructor <;> nlinarith [Real.pi_pos, Nat.cast_nonneg (α := ℝ) k]

theorem cosC_add_mul (k n : ℕ) : cosC (k + 32 * n) = cosC k := by
  rw [cosC, show ((k + 32 * n : ℕ) : ℝ) * Real.pi / 16 = k * Real.pi / 16 + n * (2 * Real.pi) by push_cast; ring,
    Real.cos_add_nat_mul_two_pi, cosC]

theorem cosC_mod (k : ℕ) : cosC (k % 32) = cosC k := by
  rw [← cosC_add_mul (k % 32) (k / 32), Nat.mod_add_div]

theorem cosC_sub {k : ℕ} (h : k ≤ 32) : cosC (32 - k) = cosC k := by
  rw [cosC, Nat.cast_sub h, show (((32 : ℕ) : ℝ) - k) * Real.pi / 16 = 2 * Real.pi - k * Real.pi / 16 by
    push_cast; ring, Real.cos_two_pi_sub, cosC]

theorem cosC_half_sub {k : ℕ} (h : k ≤ 16) : cosC (16 - k) = -cosC k := by
  rw [cosC, Nat.cast_sub h, show (((16 : ℕ) : ℝ) - k) * Real.pi / 16 = Real.pi - k * Real.pi / 16 by push_cast; ring,
    Real.cos_pi_sub, cosC]

/-- `2*C_i*C_j = C_(i+j) + C_(i-j)`. -/
theorem two_mul_cosC_mul {i j : ℕ} (h : j ≤ i) : 2 * (cosC i * cosC j) = cosC (i + j) + cosC (i - j) := by
  simp only [cosC, Nat.cast_add, Nat.cast_sub h, add_mul, sub_mul, add_div, sub_div, Real.cos_add, Real.cos_sub]
  ring

/-- The same with the index of `C_(i-j)` kept from going below zero by a multiple of the period. -/
theorem cosC_add_add_sub (i j : ℕ) : cosC (i + j) + cosC (i + (32 - j % 32)) = 2 * (cosC i * cosC j) := by
  have hj : ((i + (32 - j % 32) : ℕ) : ℝ) * Real.pi / 16 =
      i * Real.pi / 16 - j * Real.pi / 16 + (1 + j / 32 : ℕ) * (2 * Real.pi) := by
    have h : (j : ℝ) = (j % 32 : ℕ) + 32 * (j / 32 : ℕ) := by exact_mod_cast (Nat.mod_add_div j 32).symm
    rw [h, Nat.cast_add, Nat.cast_sub (Nat.mod_lt _ (by decide)).le]
    push_cast
    ring
  rw [cosC, cosC, hj, Real.cos_add_nat_mul_two_pi, Nat.cast_add, add_mul, add_div, Real.cos_add,
    Real.cos_sub, cosC, cosC]
  ring

/-! ### The numerator -/

namespace Alg

/-- The real number over the denominator. -/
noncomputable def numer (x : Alg) : ℝ :=
  x.n0 + x.n1 * cosC 1 + x.n2 * cosC 2 + x.n3 * cosC 3 + x.n4 * cosC 4 + x.n5 * cosC 5 + x.n6 * cosC 6 + x.n7 * cosC 7

theorem toReal_eq_numer_div (x : Alg) : x.toReal = x.numer / x.den := by
  simp [toReal, numer, cosC]

theorem den_pos (x : Alg) : 0 < x.den := Nat.succ_pos _

theorem den_ne_zero (x : Alg) : (x.den : ℝ) ≠ 0 := Nat.cast_ne_zero.2 x.den_pos.ne'

theorem numer_mulInt (k : ℤ) (x : Alg) : (mulInt k x).numer = k * x.numer := by
  simp only [numer, mulInt, Int.cast_mul]
  ring

theorem den_divNat (x : Alg) {d : ℕ} (hd : 0 < d) : (x.divNat d).den = x.den * d :=
  Nat.sub_add_cancel (Nat.mul_pos x.den_pos hd)

theorem toReal_mulInt (k : ℤ) (x : Alg) : (mulInt k x).toReal = k * x.toReal := by
  rw [toReal_eq_numer_div, numer_mulInt, toReal_eq_numer_div, mul_div_assoc]
  rfl

theorem toReal_divNat (x : Alg) {d : ℕ} (hd : 0 < d) : (x.divNat d).toReal = x.toReal / d := by
  rw [toReal_eq_numer_div, den_divNat x hd, toReal_eq_numer_div, Nat.cast_mul, div_div]
  rfl

theorem toReal_neg (x : Alg) : x.neg.toReal = -x.toReal := by
  rw [neg, toReal_mulInt]
  simp

theorem numer_addSame (x y : Alg) : (addSame x y).numer = x.numer + y.numer := by
  simp only [numer, addSame, Int.cast_add]
  ring

theorem toReal_addSame {x y : Alg} (h : x.den = y.den) : (addSame x y).toReal = x.toReal + y.toReal := by
  simp only [toReal_eq_numer_div, numer_addSame, ← h, ← add_div]
  rfl

theorem den_widen (x : Alg) {d : ℕ} (hd : 0 < d) (h : x.den ∣ d) : (x.widen (d / x.den)).den = d :=
  (den_divNat _ (Nat.div_pos (Nat.le_of_dvd hd h) x.den_pos)).trans (Nat.mul_div_cancel' h)

theorem toReal_widen (x : Alg) {k : ℕ} (hk : 0 < k) : (x.widen k).toReal = x.toReal := by
  rw [widen, toReal_divNat _ hk, toReal_mulInt]
  exact mul_div_cancel_left₀ _ (Nat.cast_ne_zero.2 hk.ne')

theorem toReal_widen_div (x : Alg) {d : ℕ} (hd : 0 < d) (h : x.den ∣ d) : (x.widen (d / x.den)).toReal = x.toReal :=
  x.toReal_widen (Nat.div_pos (Nat.le_of_dvd hd h) x.den_pos)

theorem toReal_add (x y : Alg) : (add x y).toReal = x.toReal + y.toReal := by
  unfold add
  split
  case isTrue h => exact toReal_addSame (congrArg (· + 1) h)
  case isFalse =>
    have hl := Nat.lcm_pos x.den_pos y.den_pos
    have hx := Nat.dvd_lcm_left x.den y.den
    have hy := Nat.dvd_lcm_right x.den y.den
    rw [toReal_addSame ((x.den_widen hl hx).trans (y.den_widen hl hy).symm), x.toReal_widen_div hl hx,
      y.toReal_widen_div hl hy]

theorem toReal_sub (x y : Alg) : (sub x y).toReal = x.toReal - y.toReal := by
  rw [sub, toReal_add, toReal_neg, sub_eq_add_neg]

theorem toReal_zero : Alg.zero.toReal = 0 := by simp [toReal, Alg.zero, zeroOver]

theorem toReal_ofInt (n : ℤ) : (ofInt n).toReal = n := by
  rw [(ofInt_denotes n).toReal_eq, Rat.cast_intCast]

theorem toReal_ofRat (q : ℚ) : (ofRat q).toReal = q := by
  rw [ofRat, (ofFrac_denotes _ q.den_pos).toReal_eq, Rat.num_div_den]

/-! ### Cosines as numbers -/

theorem numer_addAt (x : Alg) {i : ℕ} (h : i ≤ 8) (r : ℤ) : (addAt x i r).numer = x.numer + r * cosC i := by
  interval_cases i <;> simp only [addAt, numer, Int.cast_add, cosC_zero, cosC_eight] <;> ring

theorem dm1_addAt (x : Alg) (i : ℕ) (r : ℤ) : (addAt x i r).dm1 = x.dm1 := by
  unfold addAt
  split <;> rfl

theorem numer_addCos (x : Alg) (r : ℤ) (k : ℕ) : (addCos x r k).numer = x.numer + r * cosC k := by
  have hm : k % 32 < 32 := Nat.mod_lt _ (by decide)
  have hq : cosC (if k % 32 ≤ 16 then k % 32 else 32 - k % 32) = cosC k := by
    rw [apply_ite cosC, cosC_sub hm.le, ite_self, cosC_mod]
  have hq16 : (if k % 32 ≤ 16 then k % 32 else 32 - k % 32) ≤ 16 := by split <;> omega
  simp only [addCos]
  generalize (if k % 32 ≤ 16 then k % 32 else 32 - k % 32) = q at hq hq16 ⊢
  split
  case isTrue h8 => rw [numer_addAt x h8, hq]
  case isFalse h8 =>
    rw [numer_addAt x (by omega), cosC_half_sub hq16, hq]
    push_cast
    ring

theorem dm1_addCos (x : Alg) (r : ℤ) (k : ℕ) : (addCos x r k).dm1 = x.dm1 := by
  unfold addCos
  rw [apply_ite dm1, dm1_addAt, dm1_addAt, ite_self]

theorem toReal_cos (k : ℕ) : (cos k).toReal = cosC k := by
  have hd : (cos k).den = 1 := congrArg (· + 1) (dm1_addCos _ _ k)
  rw [toReal_eq_numer_div, hd, cos, numer_addCos]
  simp [numer, Alg.zero, zeroOver]

/-! ### Products -/

theorem isRational_iff {x : Alg} : x.isRational = true ↔
    x.n1 = 0 ∧ x.n2 = 0 ∧ x.n3 = 0 ∧ x.n4 = 0 ∧ x.n5 = 0 ∧ x.n6 = 0 ∧ x.n7 = 0 := by
  simp [isRational, and_assoc]

theorem numer_of_isRational {x : Alg} (h : x.isRational = true) : x.numer = x.n0 := by
  obtain ⟨h1, h2, h3, h4, h5, h6, h7⟩ := isRational_iff.1 h
  simp [numer, h1, h2, h3, h4, h5, h6, h7]

theorem toReal_mulFrac_of_isRational (x : Alg) {y : Alg} (h : y.isRational = true) :
    (x.mulFrac y.n0 y.den).toReal = x.toReal * y.toReal := by
  rw [mulFrac, toReal_divNat _ y.den_pos, toReal_mulInt, toReal_eq_numer_div y, numer_of_isRational h]
  ring

theorem den_mulFull (x y : Alg) : (mulFull x y).den = 2 * x.den * y.den :=
  Nat.sub_add_cancel (Nat.mul_pos (Nat.mul_pos two_pos x.den_pos) y.den_pos)

theorem numer_mulFull (x y : Alg) : (mulFull x y).numer = 2 * (x.numer * y.numer) := by
  have p (i j a b : ℕ) (ha : i + j = a) (hb : b + j = i) : 2 * (cosC i * cosC j) = cosC a + cosC b := by
    subst ha hb
    simpa using two_mul_cosC_mul (Nat.le_add_left j b)
  have m (i j a b : ℕ) (ha : i + j + a = 16) (hb : b + j = i) : 2 * (cosC i * cosC j) = -cosC a + cosC b := by
    rw [p i j (16 - a) b (by omega) hb, cosC_half_sub (by omega)]
  simp only [numer, mulFull]
  push_cast
  linear_combination
    - x.n1 * y.n1 * p 1 1 2 0 rfl rfl - (x.n1 * y.n2 + x.n2 * y.n1) * p 2 1 3 1 rfl rfl
    - (x.n1 * y.n3 + x.n3 * y.n1) * p 3 1 4 2 rfl rfl - (x.n1 * y.n4 + x.n4 * y.n1) * p 4 1 5 3 rfl rfl
    - (x.n1 * y.n5 + x.n5 * y.n1) * p 5 1 6 4 rfl rfl - (x.n1 * y.n6 + x.n6 * y.n1) * p 6 1 7 5 rfl rfl
    - (x.n1 * y.n7 + x.n7 * y.n1) * p 7 1 8 6 rfl rfl - x.n2 * y.n2 * p 2 2 4 0 rfl rfl
    - (x.n2 * y.n3 + x.n3 * y.n2) * p 3 2 5 1 rfl rfl - (x.n2 * y.n4 + x.n4 * y.n2) * p 4 2 6 2 rfl rfl
    - (x.n2 * y.n5 + x.n5 * y.n2) * p 5 2 7 3 rfl rfl - (x.n2 * y.n6 + x.n6 * y.n2) * p 6 2 8 4 rfl rfl
    - (x.n2 * y.n7 + x.n7 * y.n2) * m 7 2 7 5 rfl rfl - x.n3 * y.n3 * p 3 3 6 0 rfl rfl
    - (x.n3 * y.n4 + x.n4 * y.n3) * p 4 3 7 1 rfl rfl - (x.n3 * y.n5 + x.n5 * y.n3) * p 5 3 8 2 rfl rfl
    - (x.n3 * y.n6 + x.n6 * y.n3) * m 6 3 7 3 rfl rfl - (x.n3 * y.n7 + x.n7 * y.n3) * m 7 3 6 4 rfl rfl
    - x.n4 * y.n4 * p 4 4 8 0 rfl rfl - (x.n4 * y.n5 + x.n5 * y.n4) * m 5 4 7 1 rfl rfl
    - (x.n4 * y.n6 + x.n6 * y.n4) * m 6 4 6 2 rfl rfl - (x.n4 * y.n7 + x.n7 * y.n4) * m 7 4 5 3 rfl rfl
    - x.n5 * y.n5 * m 5 5 6 0 rfl rfl - (x.n5 * y.n6 + x.n6 * y.n5) * m 6 5 5 1 rfl rfl
    - (x.n5 * y.n7 + x.n7 * y.n5) * m 7 5 4 2 rfl rfl - x.n6 * y.n6 * m 6 6 4 0 rfl rfl
    - (x.n6 * y.n7 + x.n7 * y.n6) * m 7 6 3 1 rfl rfl - x.n7 * y.n7 * m 7 7 2 0 rfl rfl
    - (x.n1 * y.n1 + x.n2 * y.n2 + x.n3 * y.n3 + x.n4 * y.n4 + x.n5 * y.n5 + x.n6 * y.n6 + x.n7 * y.n7) * cosC_zero
    - (x.n1 * y.n7 + x.n7 * y.n1 + x.n2 * y.n6 + x.n6 * y.n2 + x.n3 * y.n5 + x.n5 * y.n3 + x.n4 * y.n4) * cosC_eight

theorem toReal_mul (x y : Alg) : (mul x y).toReal = x.toReal * y.toReal := by
  unfold mul
  split_ifs with hy hx
  · exact toReal_mulFrac_of_isRational x hy
  · rw [toReal_mulFrac_of_isRational y hx, mul_comm]
  · rw [toReal_eq_numer_div, numer_mulFull, den_mulFull, toReal_eq_numer_div, toReal_eq_numer_div]
    push_cast
    rw [mul_assoc (2 : ℝ), mul_div_mul_left _ _ two_ne_zero, div_mul_div_comm]

/-! ### The normal form -/

theorem foldl_gcd_dvd (l : List (ℕ × ℤ)) (a : ℕ) :
    l.foldl (fun a kb => Nat.gcd a kb.2.natAbs) a ∣ a ∧
      ∀ p ∈ l, ((l.foldl (fun a kb => Nat.gcd a kb.2.natAbs) a : ℕ) : ℤ) ∣ p.2 := by
  induction l generalizing a with
  | nil => simp
  | cons q l ih =>
    obtain ⟨ha, hl⟩ := ih (a.gcd q.2.natAbs)
    refine ⟨ha.trans (Nat.gcd_dvd_left ..), fun p hp => ?_⟩
    obtain rfl | hp := List.mem_cons.1 hp
    · exact Int.natCast_dvd.2 (ha.trans (Nat.gcd_dvd_right ..))
    · exact hl p hp

/-- What `norm` divides by. -/
def content (x : Alg) : ℕ := x.terms.foldl (fun a kb => Nat.gcd a kb.2.natAbs) x.den

theorem content_dvd_den (x : Alg) : x.content ∣ x.den := (foldl_gcd_dvd x.terms x.den).1

theorem content_pos (x : Alg) : 0 < x.content := Nat.pos_of_dvd_of_pos x.content_dvd_den x.den_pos

theorem den_norm (x : Alg) : x.norm.den = x.den / x.content :=
  Nat.sub_add_cancel (Nat.div_pos (Nat.le_of_dvd x.den_pos x.content_dvd_den) x.content_pos)

theorem numer_norm (x : Alg) : x.norm.numer = x.numer / x.content := by
  have h0 : ((x.content : ℤ) : ℝ) ≠ 0 := by exact_mod_cast x.content_pos.ne'
  have h : ∀ p ∈ x.terms, ((p.2 / (x.content : ℤ) : ℤ) : ℝ) = p.2 / ((x.content : ℤ) : ℝ) := fun p hp =>
    Int.cast_div ((foldl_gcd_dvd x.terms x.den).2 p hp) h0
  simp only [terms, List.forall_mem_cons] at h
  obtain ⟨h0, h1, h2, h3, h4, h5, h6, h7, -⟩ := h
  change ((x.n0 / (x.content : ℤ) : ℤ) : ℝ) + (x.n1 / (x.content : ℤ) : ℤ) * _ + (x.n2 / (x.content : ℤ) : ℤ) * _
    + (x.n3 / (x.content : ℤ) : ℤ) * _ + (x.n4 / (x.content : ℤ) : ℤ) * _ + (x.n5 / (x.content : ℤ) : ℤ) * _
    + (x.n6 / (x.content : ℤ) : ℤ) * _ + (x.n7 / (x.content : ℤ) : ℤ) * _ = _
  rw [h0, h1, h2, h3, h4, h5, h6, h7, numer, Int.cast_natCast]
  ring

theorem toReal_norm (x : Alg) : x.norm.toReal = x.toReal := by
  have hg : (x.content : ℝ) ≠ 0 := by exact_mod_cast x.content_pos.ne'
  rw [toReal_eq_numer_div, numer_norm, den_norm, Nat.cast_div x.content_dvd_den hg, div_div_div_cancel_right₀ hg,
    toReal_eq_numer_div]

end Alg

end Sys2Proof
end

section
/-! SUPPORT. The tower of fields of the exact arithmetic (00_scope.md R7): the rationals with `C_4`, `C_2` and `C_1`
adjoined one after the other, and the sign, which is found along the tower. -/

namespace Sys2Proof.Alg

/-! ### The levels of the tower -/

/-- Only coefficients at multiples of `g` are not zero: every number for `g = 1`, the rationals for `g = 8`. -/
def InField (g : ℕ) (x : Alg) : Prop := ∀ p ∈ x.terms, ¬ g ∣ p.1 → p.2 = 0

theorem inField_one (x : Alg) : x.InField 1 := fun p _ h => absurd (one_dvd p.1) h

theorem inField_eight_iff {x : Alg} : x.InField 8 ↔ x.isRational = true := by
  simp [InField, terms, isRational_iff]

theorem InField.toReal_eq {x : Alg} (h : x.InField 8) : x.toReal = x.n0 / x.den := by
  rw [toReal_eq_numer_div, numer_of_isRational (inField_eight_iff.1 h)]

theorem InField.mulInt {g : ℕ} {x : Alg} (h : x.InField g) (k : ℤ) : (mulInt k x).InField g := by
  simp only [InField, terms, List.forall_mem_cons, Alg.mulInt] at h ⊢
  simp_all

theorem InField.addSame {g : ℕ} {x y : Alg} (hx : x.InField g) (hy : y.InField g) : (addSame x y).InField g := by
  simp only [InField, terms, List.forall_mem_cons, Alg.addSame] at hx hy ⊢
  simp_all

theorem InField.widen {g : ℕ} {x : Alg} (h : x.InField g) (k : ℕ) : (x.widen k).InField g := h.mulInt k

theorem InField.add {g : ℕ} {x y : Alg} (hx : x.InField g) (hy : y.InField g) : (add x y).InField g := by
  unfold Alg.add
  split
  · exact hx.addSame hy
  · exact (hx.widen _).addSame (hy.widen _)

theorem InField.sub {g : ℕ} {x y : Alg} (hx : x.InField g) (hy : y.InField g) : (sub x y).InField g :=
  hx.add (hy.mulInt (-1))

theorem InField.norm {g : ℕ} {x : Alg} (h : x.InField g) : x.norm.InField g := by
  simp only [InField, terms, List.forall_mem_cons, Alg.norm] at h ⊢
  simp_all

/-- The shortcut for a rational factor leaves a product in the field that the full product lies in. -/
theorem InField.mul_of_mulFull {g : ℕ} {x y : Alg} (h : (mulFull x y).InField g) : (mul x y).InField g := by
  unfold mul
  split_ifs with hy hx
  · obtain ⟨h1, h2, h3, h4, h5, h6, h7⟩ := isRational_iff.1 hy
    simpa [InField, terms, mulFull, mulFrac, divNat, Alg.mulInt, h1, h2, h3, h4, h5, h6, h7, or_comm] using h
  · obtain ⟨h1, h2, h3, h4, h5, h6, h7⟩ := isRational_iff.1 hx
    simpa [InField, terms, mulFull, mulFrac, divNat, Alg.mulInt, h1, h2, h3, h4, h5, h6, h7] using h
  · exact h

theorem toReal_eq_zero_of_isZero {x : Alg} (h : x.isZero = true) : x.toReal = 0 := by
  rw [isZero, Bool.and_eq_true, beq_iff_eq] at h
  rw [toReal_eq_numer_div, numer_of_isRational h.2, h.1, Int.cast_zero, zero_div]

/-! ### The two parts of a number -/

/-- The levels below the rationals. -/
def Level (g : ℕ) : Prop := g = 1 ∨ g = 2 ∨ g = 4

section
variable {g : ℕ} (hg : Level g) (x : Alg)
include hg

theorem evenPart_inField : (x.evenPart g).InField (2 * g) := by
  obtain rfl | rfl | rfl := hg <;> simp [InField, terms, evenPart]

theorem evenPart_sq_inField : (mul (x.evenPart g) (x.evenPart g)).InField (2 * g) := by
  apply InField.mul_of_mulFull
  obtain rfl | rfl | rfl := hg <;> simp [InField, terms, evenPart, mulFull]

theorem oddPart_sq_inField : (mul (x.oddPart g) (x.oddPart g)).InField (2 * g) := by
  apply InField.mul_of_mulFull
  obtain rfl | rfl | rfl := hg <;> simp [InField, terms, oddPart, mulFull]

theorem oddPart_mul_cos_inField : (mul (x.oddPart g) (cos g)).InField (2 * g) := by
  apply InField.mul_of_mulFull
  obtain rfl | rfl | rfl := hg <;>
    simp [InField, terms, oddPart, mulFull, cos, addCos, addAt, Alg.zero, zeroOver]

/-- `e*e - o*o`, the relative norm of `e + o`. -/
theorem sq_sub_sq_inField :
    (sub (mul (x.evenPart g) (x.evenPart g)) (mul (x.oddPart g) (x.oddPart g))).InField (2 * g) :=
  (evenPart_sq_inField hg x).sub (oddPart_sq_inField hg x)

theorem toReal_evenPart_add_oddPart {x : Alg} (hx : x.InField g) :
    (x.evenPart g).toReal + (x.oddPart g).toReal = x.toReal := by
  have hden : (x.evenPart g).den = x.den ∧ (x.oddPart g).den = x.den := by
    obtain rfl | rfl | rfl := hg <;> exact ⟨rfl, rfl⟩
  have hnum : (x.evenPart g).numer + (x.oddPart g).numer = x.numer := by
    obtain rfl | rfl | rfl := hg <;> simp [InField, terms] at hx <;> simp [evenPart, oddPart, numer, hx] <;> ring
  rw [toReal_eq_numer_div, toReal_eq_numer_div, toReal_eq_numer_div x, hden.1, hden.2, ← add_div, hnum]

end

/-! ### The sign -/

/-- The function gives the sign of the real number on the level `g`. -/
def SignOn (g : ℕ) (f : Alg → ℤ) : Prop := ∀ x : Alg, x.InField g → f x = SignType.sign x.toReal

/-- The sign of a sum from the signs of its terms and, where they pull in opposite directions, of the difference
of their squares. -/
theorem sign_add_eq (e o : ℝ) : ((SignType.sign (e + o) : SignType) : ℤ) =
    if ((SignType.sign e : SignType) : ℤ) = 0 then ((SignType.sign o : SignType) : ℤ)
    else if ((SignType.sign e : SignType) : ℤ) = SignType.sign o then ((SignType.sign e : SignType) : ℤ)
    else SignType.sign e * SignType.sign (e * e - o * o) := by
  have hsq : SignType.sign (e * e - o * o) = SignType.sign (e + o) * SignType.sign (e - o) := by
    rw [← sign_mul, ← mul_self_sub_mul_self]
  obtain he | rfl | he := lt_trichotomy e 0
  · obtain ho | rfl | ho := lt_trichotomy o 0
    · simp [sign_neg he, sign_neg ho, sign_neg (add_neg he ho)]
    · simp [sign_neg he, sign_pos (mul_pos_of_neg_of_neg he he)]
    · simp [sign_neg he, sign_pos ho, hsq, sign_neg (sub_neg.2 (he.trans ho))]
  · simp
  · obtain ho | rfl | ho := lt_trichotomy o 0
    · simp [sign_pos he, sign_neg ho, hsq, sign_pos (sub_pos.2 (ho.trans he))]
    · simp [sign_pos he, sign_pos (mul_pos he he)]
    · simp [sign_pos he, sign_pos ho, sign_pos (add_pos he ho)]

theorem Level.lt_eight {g : ℕ} (hg : Level g) : g < 8 := by
  obtain rfl | rfl | rfl := hg <;> decide

theorem signAbove_signOn {g : ℕ} (hg : Level g) {below : Alg → ℤ} (h : SignOn (2 * g) below) :
    SignOn g (signAbove g below) := by
  intro x hx
  have hsum := toReal_evenPart_add_oddPart hg hx
  have he := h _ (evenPart_inField hg x)
  have ho : below (mul (x.oddPart g) (cos g)) = SignType.sign (x.oddPart g).toReal := by
    rw [h _ (oddPart_mul_cos_inField hg x), toReal_mul, toReal_cos, sign_mul, sign_pos (cosC_pos hg.lt_eight), mul_one]
  have hn := h _ (sq_sub_sq_inField hg x)
  rw [toReal_sub, toReal_mul, toReal_mul] at hn
  simp only [signAbove, he, ho, hn, ← sign_add_eq, hsum]
  split
  case isTrue hz => rw [← hsum, toReal_eq_zero_of_isZero hz, add_zero]
  case isFalse => rfl

theorem sign_signOn : SignOn 1 sign := by
  have hrat : SignOn 8 fun x => x.n0.sign := fun x hx => by
    beta_reduce
    rw [hx.toReal_eq, div_eq_mul_inv, sign_mul, sign_pos (inv_pos.2 (Nat.cast_pos.2 x.den_pos)), mul_one, sign_intCast,
      Int.sign_eq_sign]
  exact signAbove_signOn (.inl rfl) (signAbove_signOn (.inr (.inl rfl)) (signAbove_signOn (.inr (.inr rfl)) hrat))

/-- The sign function of the model is the sign of the real number. -/
theorem sign_eq (x : Alg) : x.sign = SignType.sign x.toReal := sign_signOn x x.inField_one

theorem sign_neg_iff {x : Alg} : x.sign < 0 ↔ x.toReal < 0 := by
  rw [sign_eq]
  obtain h | h | h := lt_trichotomy x.toReal 0
  · simp [sign_neg h, h]
  · simp [h]
  · simp [sign_pos h, h.le]

theorem sign_nonneg_iff {x : Alg} : 0 ≤ x.sign ↔ 0 ≤ x.toReal := by rw [← not_lt, sign_neg_iff, not_lt]

theorem toReal_abs (x : Alg) : x.abs.toReal = |x.toReal| := by
  unfold Alg.abs
  split
  case isTrue h => rw [toReal_neg, abs_of_neg (sign_neg_iff.1 h)]
  case isFalse h => rw [abs_of_nonneg (sign_nonneg_iff.1 (not_lt.1 h))]

theorem le_iff {x y : Alg} : le x y = true ↔ x.toReal ≤ y.toReal := by
  rw [le, decide_eq_true_iff, sign_nonneg_iff, toReal_sub, sub_nonneg]

/-! ### Deviations -/

/-- A deviation lies within the tolerance (00_scope.md R7). -/
theorem abs_deviation_le {eps : ℚ} (h : 0 ≤ eps) (draw : Alg) : |(deviation eps draw).toReal| ≤ eps := by
  have hzero : |Alg.zero.toReal| ≤ (eps : ℝ) := by
    rw [toReal_zero, abs_zero]
    exact_mod_cast h
  unfold deviation
  split_ifs with _ hle
  · exact hzero
  · rwa [le_iff, toReal_abs, toReal_ofRat] at hle
  · exact hzero

theorem abs_deviated_sub_le {eps : ℚ} (h : 0 ≤ eps) (draw reference : Alg) :
    |(deviated eps draw reference).toReal - reference.toReal| ≤ eps := by
  rw [deviated, toReal_norm, toReal_add, add_sub_cancel_left]
  exact abs_deviation_le h draw

end Sys2Proof.Alg
end

section
/-! SUPPORT. The reciprocal of the exact arithmetic (00_scope.md R7, 41_quant_tables.md R104): `C_0` to `C_7` are
independent over the rationals, so neither factor of the relative norm `e*e - o*o = (e + o)*(e - o)` of a non-zero number
is zero. -/

namespace Sys2Proof.Alg

open Polynomial

/-! ### Independence of the cosines -/

/-- `2*w^7*n*C_k` as a polynomial in `w`, a primitive root of unity of order 32, by `2*C_k = w^k + w^(-k)`. -/
noncomputable def cosTerm (k : ℕ) (n : ℤ) : ℚ[X] := C (n : ℚ) * (X ^ (7 + k) + X ^ (7 - k))

/-- `2*w^7*numer x` as a polynomial in `w`. -/
noncomputable def cosPoly (x : Alg) : ℚ[X] :=
  cosTerm 0 x.n0 + cosTerm 1 x.n1 + cosTerm 2 x.n2 + cosTerm 3 x.n3 + cosTerm 4 x.n4 + cosTerm 5 x.n5 + cosTerm 6 x.n6
    + cosTerm 7 x.n7

theorem degree_cosPoly_lt (x : Alg) : x.cosPoly.degree < 16 := by
  have h : x.cosPoly.degree ≤ 14 := by
    unfold cosPoly cosTerm
    compute_degree
  exact h.trans_lt (by decide)

/-- `cos(pi/16) + i*sin(pi/16)`. -/
noncomputable def root32 : ℂ := Complex.exp (2 * Real.pi * Complex.I / (32 : ℕ))

theorem root32_isPrimitiveRoot : IsPrimitiveRoot root32 32 := Complex.isPrimitiveRoot_exp 32 (by decide)

theorem root32_pow_add_pow (k : ℕ) (h : k ≤ 7) : root32 ^ (7 + k) + root32 ^ (7 - k) = 2 * root32 ^ 7 * cosC k := by
  have hne : root32 ≠ 0 := Complex.exp_ne_zero _
  have hk : root32 ^ k = Complex.exp ((k * Real.pi / 16 : ℝ) * Complex.I) := by
    rw [root32, ← Complex.exp_nat_mul]
    congr 1
    push_cast
    ring
  have hcos : (2 * cosC k : ℂ) = root32 ^ k + (root32 ^ k)⁻¹ := by
    rw [hk, ← Complex.exp_neg, cosC, Complex.ofReal_cos, Complex.two_cos, neg_mul]
  rw [mul_assoc, mul_left_comm, hcos, mul_add, pow_add, pow_sub₀ _ hne h]

theorem aeval_cosTerm {k : ℕ} (hk : k ≤ 7) (n : ℤ) : aeval root32 (cosTerm k n) = 2 * root32 ^ 7 * (n * cosC k) := by
  simp only [cosTerm, map_add, map_mul, map_pow, aeval_X, root32_pow_add_pow k hk, map_intCast]
  ring

theorem aeval_cosPoly (x : Alg) : aeval root32 x.cosPoly = 2 * root32 ^ 7 * x.numer := by
  simp (disch := decide) only [cosPoly, map_add, aeval_cosTerm, ← mul_add, cosC_zero]
  simp [numer]

theorem coeff_cosTerm (k m : ℕ) (n : ℤ) :
    (cosTerm k n).coeff m = n * ((if m = 7 + k then 1 else 0) + if m = 7 - k then 1 else 0) := by
  simp only [cosTerm, coeff_C_mul, coeff_add, coeff_X_pow]

theorem coeff_cosPoly {x : Alg} {p : ℕ × ℤ} (hp : p ∈ x.terms) :
    x.cosPoly.coeff (7 + p.1) = (if p.1 = 0 then 2 else 1) * p.2 := by
  simp only [terms, List.mem_cons, List.not_mem_nil, or_false] at hp
  obtain rfl | rfl | rfl | rfl | rfl | rfl | rfl | rfl := hp <;>
    simp [cosPoly, coeff_cosTerm, one_add_one_eq_two, mul_comm]

theorem cosPoly_eq_zero {x : Alg} (h : x.numer = 0) : x.cosPoly = 0 := by
  by_contra hne
  have hdeg := minpoly.degree_le_of_ne_zero ℚ root32 hne (by rw [aeval_cosPoly, h]; simp)
  rw [← cyclotomic_eq_minpoly_rat root32_isPrimitiveRoot (by decide), degree_cyclotomic] at hdeg
  exact absurd hdeg (not_le.2 x.degree_cosPoly_lt)

theorem numer_eq_zero_iff {x : Alg} : x.numer = 0 ↔ ∀ p ∈ x.terms, p.2 = 0 := by
  constructor
  · intro h p hp
    have hcoeff := coeff_cosPoly hp
    rw [cosPoly_eq_zero h, coeff_zero, eq_comm, mul_eq_zero, Int.cast_eq_zero] at hcoeff
    exact hcoeff.resolve_left (by split <;> norm_num)
  · intro h
    simp only [terms, List.forall_mem_cons] at h
    simp [numer, h]

theorem toReal_eq_zero_iff {x : Alg} : x.toReal = 0 ↔ ∀ p ∈ x.terms, p.2 = 0 := by
  rw [toReal_eq_numer_div, div_eq_zero_iff, or_iff_left x.den_ne_zero, numer_eq_zero_iff]

/-! ### The reciprocal -/

/-- `e - o` for the number `e + o`. -/
def conjugate (g : ℕ) (x : Alg) : Alg := addSame (x.evenPart g) (x.oddPart g).neg

theorem toReal_conjugate {g : ℕ} (hg : Level g) (x : Alg) :
    (x.conjugate g).toReal = (x.evenPart g).toReal - (x.oddPart g).toReal := by
  rw [conjugate, toReal_addSame (by obtain rfl | rfl | rfl := hg <;> rfl), toReal_neg, sub_eq_add_neg]

theorem toReal_conjugate_ne_zero {g : ℕ} (hg : Level g) {x : Alg} (hx : x.InField g) (h : x.toReal ≠ 0) :
    (x.conjugate g).toReal ≠ 0 := by
  refine fun h0 => h (toReal_eq_zero_iff.2 ?_)
  rw [toReal_eq_zero_iff] at h0
  obtain rfl | rfl | rfl := hg <;>
    simp_all [InField, terms, conjugate, addSame, evenPart, oddPart, neg, Alg.mulInt]

/-- The function gives the reciprocal of a non-zero number on the level `g`. -/
def InvOn (g : ℕ) (f : Alg → Alg) : Prop := ∀ x : Alg, x.InField g → x.toReal ≠ 0 → (f x).toReal = x.toReal⁻¹

theorem invAbove_invOn {g : ℕ} (hg : Level g) {below : Alg → Alg} (h : InvOn (2 * g) below) :
    InvOn g (invAbove g below) := by
  intro x hx hx0
  have hsum := toReal_evenPart_add_oddPart hg hx
  have hconj := toReal_conjugate_ne_zero hg hx hx0
  rw [toReal_conjugate hg] at hconj
  simp only [invAbove]
  split
  case isTrue hz =>
    have he : (x.evenPart g).toReal = x.toReal := by rw [← hsum, toReal_eq_zero_of_isZero hz, add_zero]
    rw [h _ (evenPart_inField hg x) (he ▸ hx0), he]
  case isFalse =>
    have hnorm : (sub (mul (x.evenPart g) (x.evenPart g)) (mul (x.oddPart g) (x.oddPart g))).norm.toReal =
        x.toReal * ((x.evenPart g).toReal - (x.oddPart g).toReal) := by
      rw [toReal_norm, toReal_sub, toReal_mul, toReal_mul, mul_self_sub_mul_self, hsum]
    rw [toReal_mul, h _ (sq_sub_sq_inField hg x).norm (by rw [hnorm]; exact mul_ne_zero hx0 hconj), hnorm, toReal_sub,
      mul_inv, mul_left_comm, mul_inv_cancel₀ hconj, mul_one]

theorem toReal_inv {x : Alg} (h : x.toReal ≠ 0) : x.inv.toReal = x.toReal⁻¹ := by
  have hrat : InvOn 8 fun y => ofFrac (y.n0.sign * y.den) y.n0.natAbs := fun y hy hy0 => by
    rw [hy.toReal_eq] at hy0 ⊢
    have hn : (y.n0 : ℝ) ≠ 0 := (div_ne_zero_iff.1 hy0).1
    have hpos : 0 < y.n0.natAbs := Int.natAbs_pos.2 (Int.cast_ne_zero.1 hn)
    have hself : (y.n0.sign : ℝ) * y.n0 = (y.n0.natAbs : ℝ) := by
      rw [← Int.cast_mul, Int.sign_mul_self_eq_natAbs, Int.cast_natCast]
    rw [(ofFrac_denotes _ hpos).toReal_eq, inv_div, Rat.cast_div, Rat.cast_natCast,
      div_eq_div_iff (Nat.cast_ne_zero.2 hpos.ne') hn, ← hself]
    push_cast
    ring
  rw [inv, toReal_norm]
  exact invAbove_invOn (.inl rfl) (invAbove_invOn (.inr (.inl rfl)) (invAbove_invOn (.inr (.inr rfl)) hrat)) x
    x.inField_one h

end Sys2Proof.Alg
end

section
/-! SUPPORT. The transform (40_dct.md): the AAN factors, the reference value the double sum computes, and how the
fast scaling and the fused scale table cancel. -/

namespace Sys2Proof

/-! ### The AAN factors -/

theorem aansReal_eq (k : ℕ) : aansReal k = if k = 0 then 1 else Real.sqrt 2 * cosC k := rfl

theorem aansReal_pos {k : ℕ} (h : k < 8) : 0 < aansReal k := by
  rw [aansReal_eq]
  split
  · exact one_pos
  · exact mul_pos (Real.sqrt_pos.2 two_pos) (cosC_pos h)

theorem toReal_aans (k : ℕ) : (aans k).toReal = aansReal k := by
  rw [aans, aansReal_eq, apply_ite Alg.toReal, Alg.toReal_ofInt, Alg.toReal_norm, Alg.toReal_mul, Alg.toReal_mulInt,
    Alg.toReal_cos, Alg.toReal_cos, cosC_four, Int.cast_one, Int.cast_ofNat, mul_div_cancel₀ _ two_ne_zero]

namespace Machine

theorem toReal_fastScale (i : Fin 64) :
    (fastScale i).toReal = 8 * aansReal (i.val % 8) * aansReal (i.val / 8) := by
  rw [fastScale, Alg.toReal_mulInt, Alg.toReal_mul, toReal_aans, toReal_aans, mul_assoc, Int.cast_ofNat]

theorem fastScale_pos (i : Fin 64) : 0 < 8 * aansReal (i.val % 8) * aansReal (i.val / 8) :=
  mul_pos (mul_pos (by norm_num) (aansReal_pos (Nat.mod_lt _ (by decide)))) (aansReal_pos (by omega))

theorem toReal_fusedScale (i : Fin 64) {d : Byte} (hd : d ≠ 0) :
    (fusedScale i d).toReal = (8 * aansReal (i.val % 8) * aansReal (i.val / 8) * d.toNat)⁻¹ := by
  have h : (Alg.mulInt (8 * d.toNat) (Alg.mul (aans (i.val % 8)) (aans (i.val / 8)))).toReal =
      8 * aansReal (i.val % 8) * aansReal (i.val / 8) * d.toNat := by
    rw [Alg.toReal_mulInt, Alg.toReal_mul, toReal_aans, toReal_aans]
    push_cast
    ring
  have hd' : (d.toNat : ℝ) ≠ 0 := Nat.cast_ne_zero.2 fun h0 => hd (BitVec.eq_of_toNat_eq h0)
  rw [fusedScale, Alg.toReal_inv (h ▸ mul_ne_zero (fastScale_pos i).ne' hd'), h]

/-- Settles O39: both are the real numbers that R94 and R104 print. -/
theorem fastScalingCancels : Obligations.FastScalingCancels := by
  intro i d hd
  refine ⟨toReal_fastScale i, ?_⟩
  rw [toReal_fastScale, toReal_fusedScale i hd, mul_inv, mul_inv_cancel_left₀ (fastScale_pos i).ne', one_div]

/-! ### The double sum on numerators -/

theorem numer_addSample (acc : Alg) (r : ℤ) (k a b : ℕ) :
    (addSample acc r k a b).numer = acc.numer + 4 * cosC k * (r * (cosC a * cosC b)) := by
  unfold addSample
  simp only []
  split
  case isTrue h0 =>
    rw [Alg.numer_addCos, Alg.numer_addCos, h0, cosC_zero]
    push_cast
    linear_combination (2 * r : ℝ) * cosC_add_add_sub a b
  case isFalse =>
    simp only [Alg.numer_addCos]
    linear_combination (r : ℝ) * (cosC_add_add_sub (k + a) b + cosC_add_add_sub (k + (32 - a % 32)) b)
      + (2 * r * cosC b : ℝ) * cosC_add_add_sub k a

theorem dm1_addSample (acc : Alg) (r : ℤ) (k a b : ℕ) : (addSample acc r k a b).dm1 = acc.dm1 := by
  unfold addSample
  simp only []
  split <;> simp only [Alg.dm1_addCos]

/-- The factor of the sample at natural index `j` in the coefficient at column `u`, row `v`. -/
noncomputable def kernel (u v j : ℕ) : ℝ := cosC (basisIndex u v (j % 8)) * cosC (basisIndex v u (j / 8))

theorem numer_basisSum {n : ℕ} (r : Fin n → ℤ) (u v k j : ℕ) (acc : Alg) :
    (basisSum u v k j (List.ofFn r) acc).numer =
      acc.numer + 4 * cosC k * ∑ i : Fin n, r i * kernel u v (j + i.val) := by
  induction n generalizing j acc with
  | zero => simp [basisSum]
  | succ n ih =>
    have hstep : (if r 0 = 0 then acc
        else addSample acc (r 0) k (basisIndex u v (j % 8)) (basisIndex v u (j / 8))).numer =
        acc.numer + 4 * cosC k * (r 0 * kernel u v j) := by
      split
      case isTrue h0 => simp [h0]
      case isFalse => exact numer_addSample ..
    rw [List.ofFn_succ, basisSum, ih, hstep, Fin.sum_univ_succ, add_assoc, ← mul_add]
    simp [Nat.add_comm, Nat.add_left_comm]

theorem dm1_basisSum (l : List ℤ) (u v k j : ℕ) (acc : Alg) : (basisSum u v k j l acc).dm1 = acc.dm1 := by
  induction l generalizing j acc with
  | nil => rfl
  | cons r l ih =>
    rw [basisSum, ih]
    split
    · rfl
    · exact dm1_addSample ..

theorem basisSum_of_zero {l : List ℤ} (h : ∀ r ∈ l, r = 0) (u v k j : ℕ) (acc : Alg) :
    basisSum u v k j l acc = acc := by
  induction l generalizing j with
  | nil => rfl
  | cons r l ih => rw [basisSum, if_pos (h r (.head _)), ih fun x hx => h x (.tail _ hx)]

/-- The planes of `C_0` to `C_7`, those that are zero included. -/
def allPlanes (xs : List Alg) : List (ℕ × List ℤ) :=
  [(0, xs.map Alg.n0), (1, xs.map Alg.n1), (2, xs.map Alg.n2), (3, xs.map Alg.n3), (4, xs.map Alg.n4),
    (5, xs.map Alg.n5), (6, xs.map Alg.n6), (7, xs.map Alg.n7)]

theorem foldl_planes (xs : List Alg) (u v : ℕ) (acc : Alg) :
    (planes xs).foldl (fun acc p => basisSum u v p.1 0 p.2 acc) acc =
      (allPlanes xs).foldl (fun acc p => basisSum u v p.1 0 p.2 acc) acc := by
  rw [show planes xs = (allPlanes xs).filter fun p => p.2.any fun r => r != 0 from rfl, List.foldl_filter]
  congr 1
  funext acc p
  split
  case isTrue => rfl
  case isFalse h => exact (basisSum_of_zero (by simpa using h) ..).symm

theorem numer_foldl_planes {n : ℕ} (g : Fin n → Alg) (u v : ℕ) (acc : Alg) :
    ((planes (List.ofFn g)).foldl (fun acc p => basisSum u v p.1 0 p.2 acc) acc).numer =
      acc.numer + 4 * ∑ i : Fin n, (g i).numer * kernel u v i.val := by
  have hk (r : Fin n → ℤ) (k : ℕ) :
      ∑ i : Fin n, r i * cosC k * kernel u v i.val = cosC k * ∑ i : Fin n, r i * kernel u v i.val := by
    rw [Finset.mul_sum]
    exact Finset.sum_congr rfl fun i _ => by ring
  rw [foldl_planes]
  simp only [allPlanes, List.map_ofFn, List.foldl_cons, List.foldl_nil, numer_basisSum, Function.comp_apply,
    Nat.zero_add]
  simp only [Alg.numer, add_mul, Finset.sum_add_distrib, hk, cosC_zero]
  ring

theorem dm1_foldl_planes (xs : List Alg) (u v : ℕ) (acc : Alg) :
    ((planes xs).foldl (fun acc p => basisSum u v p.1 0 p.2 acc) acc).dm1 = acc.dm1 := by
  rw [foldl_planes]
  simp only [allPlanes, List.foldl_cons, List.foldl_nil, dm1_basisSum]

/-! ### The common denominator -/

theorem foldl_lcm_spec (xs : List Alg) {a : ℕ} (ha : 0 < a) :
    0 < xs.foldl (fun a x => Nat.lcm a x.den) a ∧ a ∣ xs.foldl (fun a x => Nat.lcm a x.den) a ∧
      ∀ x ∈ xs, x.den ∣ xs.foldl (fun a x => Nat.lcm a x.den) a := by
  induction xs generalizing a with
  | nil => simp [ha]
  | cons x xs ih =>
    obtain ⟨hpos, hdvd, hall⟩ := ih (Nat.lcm_pos ha x.den_pos)
    exact ⟨hpos, (Nat.dvd_lcm_left ..).trans hdvd,
      List.forall_mem_cons.2 ⟨(Nat.dvd_lcm_right ..).trans hdvd, hall⟩⟩

theorem commonDen_pos (xs : List Alg) : 0 < commonDen xs := (foldl_lcm_spec xs one_pos).1

theorem den_dvd_commonDen {xs : List Alg} {x : Alg} (h : x ∈ xs) : x.den ∣ commonDen xs :=
  (foldl_lcm_spec xs one_pos).2.2 x h

/-- A sample's numerator over the common denominator. -/
theorem numer_widen_commonDen {xs : List Alg} {x : Alg} (h : x ∈ xs) :
    (x.widen (commonDen xs / x.den)).numer = x.toReal * commonDen xs := by
  have hden := x.den_widen (commonDen_pos xs) (den_dvd_commonDen h)
  have hval := x.toReal_widen_div (commonDen_pos xs) (den_dvd_commonDen h)
  rw [Alg.toReal_eq_numer_div, hden, div_eq_iff (Nat.cast_ne_zero.2 (commonDen_pos xs).ne')] at hval
  exact hval

/-! ### The reference value -/

theorem toReal_dct2_sum (g : Fin 64 → Alg) (i : Fin 64) :
    (dct2 (prepare (List.ofFn g)) i).toReal =
      4 / (if i.val = 0 then 32 else 16) * ∑ j : Fin 64, (g j).toReal * kernel (i.val % 8) (i.val / 8) j.val := by
  have hd := commonDen_pos (List.ofFn g)
  have hdiv : 0 < if i.val = 0 then 32 else 16 := by split <;> decide
  have hnum (j : Fin 64) :
      ((g j).widen (commonDen (List.ofFn g) / (g j).den)).numer * kernel (i.val % 8) (i.val / 8) j.val =
      commonDen (List.ofFn g) * ((g j).toReal * kernel (i.val % 8) (i.val / 8) j.val) := by
    rw [numer_widen_commonDen (List.mem_ofFn.2 ⟨j, rfl⟩)]
    ring
  simp only [dct2, prepare, overDen, List.map_ofFn]
  rw [Alg.toReal_norm, Alg.toReal_divNat _ hdiv, Alg.toReal_eq_numer_div, numer_foldl_planes, Alg.den, dm1_foldl_planes]
  simp only [Function.comp_apply, hnum, ← Finset.mul_sum]
  have hz : (Alg.zeroOver (commonDen (List.ofFn g) - 1)).numer = 0 := by simp [Alg.numer, Alg.zeroOver]
  have hd1 : (Alg.zeroOver (commonDen (List.ofFn g) - 1)).dm1 + 1 = commonDen (List.ofFn g) := Nat.sub_add_cancel hd
  have hd0 : (commonDen (List.ofFn g) : ℝ) ≠ 0 := Nat.cast_ne_zero.2 hd.ne'
  rw [hz, hd1, zero_add, mul_left_comm, mul_div_cancel_left₀ _ hd0]
  push_cast
  ring

/-- The factors of one sample, with the `1/sqrt(2)` of `N(u,v)` moved out of the cosines (40_dct.md R91). -/
theorem kernel_eq (u v x y : ℕ) (hx : x < 8) :
    kernel u v (y * 8 + x) * (if u = 0 ∧ v = 0 then 1 / 2 else 1) =
      dctNorm u v * (Real.cos ((2 * x + 1) * u * Real.pi / 16) * Real.cos ((2 * y + 1) * v * Real.pi / 16)) := by
  have hcos (x u : ℕ) : cosC ((2 * x + 1) * u) = Real.cos ((2 * x + 1) * u * Real.pi / 16) := by
    rw [cosC]
    push_cast
    rfl
  have hroot : Real.sqrt 2 / 2 = 1 / Real.sqrt 2 := by
    rw [div_eq_div_iff two_ne_zero (Real.sqrt_ne_zero'.2 two_pos), Real.mul_self_sqrt zero_le_two, one_mul]
  rw [kernel, show (y * 8 + x) % 8 = x by omega, show (y * 8 + x) / 8 = y by omega, dctNorm]
  by_cases hu : u = 0
  · by_cases hv : v = 0
    · simp [basisIndex, hu, hv]
    · simp [basisIndex, hu, hv, hcos, cosC_four, hroot]
  · by_cases hv : v = 0
    · simp [basisIndex, hu, hv, hcos, cosC_four, hroot, mul_comm (Real.sqrt 2)⁻¹]
    · simp [basisIndex, hu, hv, hcos]

/-- The double sum over rows and columns as one sum over natural indexes. -/
theorem sum_rows_columns (h : ℕ → ℝ) :
    ∑ y ∈ Finset.range 8, ∑ x ∈ Finset.range 8, h (y * 8 + x) = ∑ j : Fin 64, h j.val := by
  rw [← (finProdFinEquiv (m := 8) (n := 8)).sum_comp, Fintype.sum_prod_type, Finset.sum_range]
  refine Finset.sum_congr rfl fun y _ => ?_
  rw [Finset.sum_range]
  exact Finset.sum_congr rfl fun x _ => by rw [finProdFinEquiv_apply_val, Nat.add_comm, Nat.mul_comm]

/-- `dct2` computes the reference value of R91. -/
theorem toReal_dct2 {g : Fin 64 → Alg} {f : ℕ → ℝ} (hf : ∀ j : Fin 64, (g j).toReal = f j.val) (i : Fin 64) :
    (dct2 (prepare (List.ofFn g)) i).toReal = dctReal f (i.val % 8) (i.val / 8) := by
  have hi : i.val = 0 ↔ i.val % 8 = 0 ∧ i.val / 8 = 0 := by omega
  rw [toReal_dct2_sum, dctReal]
  simp only [hf]
  rw [← sum_rows_columns fun j => f j * kernel (i.val % 8) (i.val / 8) j, Finset.mul_sum, Finset.mul_sum]
  refine Finset.sum_congr rfl fun y _ => ?_
  rw [Finset.mul_sum, Finset.mul_sum]
  refine Finset.sum_congr rfl fun x hx => ?_
  have hk := kernel_eq (i.val % 8) (i.val / 8) x y (Finset.mem_range.1 hx)
  simp only [← hi] at hk
  split at hk
  case isTrue h0 =>
    rw [if_pos h0]
    linear_combination (f (y * 8 + x) / 4) * hk
  case isFalse h0 =>
    rw [if_neg h0]
    linear_combination (f (y * 8 + x) / 4) * hk

end Machine

end Sys2Proof
end

section
/-! SUPPORT. `FDCT` (40_dct.md R90): the block it writes, and what the exact transform makes of constant and of bounded
blocks (R96). -/

namespace Sys2Proof.Machine

/-! ### The block -/

theorem toList_eq_ofFn {α : Type} {n : ℕ} {b : Vector α n} {v : Fin n → α} (h : ∀ i : Fin n, b[i] = v i) :
    b.toList = List.ofFn v :=
  List.ext_getElem (by simp) fun i _ hi => by simpa using h ⟨i, by simpa using hi⟩

theorem mapM_ofFn_eq_some {α β : Type} {f : α → Option β} {n : ℕ} {v : Fin n → α} {g : Fin n → β}
    (h : ∀ i, f (v i) = some (g i)) : (List.ofFn v).mapM f = some (List.ofFn g) := by
  induction n with
  | zero => simp
  | succ n ih => simp [List.ofFn_succ, h, ih fun i => h i.succ]

theorem mapM_eq_none_of_mem {α β : Type} {f : α → Option β} {l : List α} {a : α} (ha : a ∈ l) (h : f a = none) :
    l.mapM f = none := by
  induction ha with
  | head l => simp [h]
  | tail b _ ih => cases hb : f b <;> simp [hb, ih]

/-- The numbers of a block of real samples. -/
theorem blockValues_of_blockIs {fmt : NumFormat} {b : Block NumValue} {f : ℕ → ℝ} (h : BlockIs fmt b f) :
    ∃ g : Fin 64 → Alg, blockValues fmt b = some (List.ofFn g) ∧ ∀ j : Fin 64, (g j).toReal = f j.val := by
  choose v g hv hg hf using h
  refine ⟨g, ?_, hf⟩
  rw [blockValues, toList_eq_ofFn hv]
  exact mapM_ofFn_eq_some hg

theorem blockValues_of_notFinite {fmt : NumFormat} {b : Block NumValue} {i : Fin 64} {v : NumValue}
    (hb : b[i] = some v) (hv : v.value fmt = none) : blockValues fmt b = none :=
  mapM_eq_none_of_mem (a := some v) (Vector.mem_toList_iff.2 (hb ▸ Vector.getElem_mem i.isLt)) hv

theorem transformBlock_of_some {p : Params} {b : Block NumValue} {samples : List Alg}
    (h : blockValues p.fmt b = some samples) (strat : Strategy) (draws : ℕ) (k : Fin 64) :
    (transformBlock p strat draws b)[k] =
      some (.real (transformed p strat (prepare samples) (draws + k.val) k)) := by
  rw [transformBlock, h, tabulate_getElem_fin]

theorem transformBlock_of_none {p : Params} {b : Block NumValue} (h : blockValues p.fmt b = none) (strat : Strategy)
    (draws : ℕ) (k : Fin 64) : (transformBlock p strat draws b)[k] = some (.notFinite (draws + k.val)) := by
  rw [transformBlock, h, tabulate_getElem_fin]

theorem BlockIs.allWritten {fmt : NumFormat} {b : Block NumValue} {f : ℕ → ℝ} (h : BlockIs fmt b f) : allWritten b := by
  intro i h0
  obtain ⟨v, x, hv, -, -⟩ := h i
  rw [hv] at h0
  cases h0

/-! ### The command -/

/-- `FDCT` on a written block writes `COEF[c]` and takes 64 draws. -/
theorem exec_fdct {s : State} {c : Fin 3} (hp : s.phase ≠ .faulted) (hq : s.qvalid = true) (hw : allWritten s.samp[c]) :
    exec (.fdct (byteOf c.val)) s = .next (answered { s with
      coef := s.coef.set c.val (transformBlock s.params s.strat s.draws s.samp[c])
      draws := s.draws + 64 }) := by
  rw [exec_accepted (i := .fdct (byteOf c.val)) (componentOk_byteOf c) ⟨hp, hq⟩]
  obtain ⟨i, hi, -⟩ | ⟨-, h⟩ := fdctStage_cases c s
  · rw [(firstBot_eq_none _).2 hw] at hi
    cases hi
  · simp only [runOf, component_byteOf, h]
    rfl

/-- The scale of an output at column `u`, row `v` over the direct one (40_dct.md R94). -/
noncomputable def outputScale (strat : Strategy) (u v : ℕ) : ℝ :=
  match strat with
  | .direct => 1
  | .fast => 8 * aansReal u * aansReal v

theorem outputScale_zero_mul (strat : Strategy) (a : ℝ) :
    outputScale strat 0 0 * (8 * a) = if strat = .direct then 8 * a else 64 * a := by
  cases strat with
  | direct => simp [outputScale]
  | fast =>
    simp only [outputScale, aansReal, reduceCtorEq, if_true, if_false]
    ring

/-- An output is the scaled reference value with a scaled deviation (40_dct.md R91, R94). -/
theorem toReal_transformed (p : Params) (strat : Strategy) (samples : Prepared) (n : ℕ) (i : Fin 64) :
    (transformed p strat samples n i).toReal = outputScale strat (i.val % 8) (i.val / 8) *
      (deviated p.epsDct (Config.dctDraw n) (dct2 samples i)).toReal := by
  cases strat with
  | direct => exact (one_mul _).symm
  | fast => exact (Alg.toReal_norm _).trans ((Alg.toReal_mul _ _).trans (by rw [toReal_fastScale]; rfl))

/-- Every output of `FDCT` on a block of real samples is the scaled reference value with a scaled deviation. -/
theorem exec_fdct_of_blockIs {s : State} {c : Fin 3} {f : ℕ → ℝ} (hp : s.phase ≠ .faulted) (hq : s.qvalid = true)
    (heps : 0 ≤ s.params.epsDct) (hb : BlockIs s.params.fmt s.samp[c] f) :
    ∃ (b : Block NumValue) (draws : ℕ),
      exec (.fdct (byteOf c.val)) s = .next (answered { s with coef := s.coef.set c.val b, draws := draws }) ∧
      ∀ k : Fin 64, ∃ (x : Alg) (y : ℝ), b[k] = some (.real x) ∧
        x.toReal = outputScale s.strat (k.val % 8) (k.val / 8) * y ∧
        |y - dctReal f (k.val % 8) (k.val / 8)| ≤ s.params.epsDct := by
  obtain ⟨g, hg, hf⟩ := blockValues_of_blockIs hb
  refine ⟨_, _, exec_fdct hp hq hb.allWritten, fun k =>
    ⟨_, _, transformBlock_of_some hg .., toReal_transformed .., ?_⟩⟩
  rw [← toReal_dct2 hf]
  exact Alg.abs_deviated_sub_le heps _ _

/-! ### The deviations -/

/-- The natural index of column `u`, row `v`. -/
def naturalIndex (u v : Fin 8) : Fin 64 := ⟨v.val * 8 + u.val, by omega⟩

theorem naturalIndex_mod (u v : Fin 8) : (naturalIndex u v).val % 8 = u.val := by
  simp only [naturalIndex]
  omega

theorem naturalIndex_div (u v : Fin 8) : (naturalIndex u v).val / 8 = v.val := by
  simp only [naturalIndex]
  omega

/-- Settles O35: the direct scale is 1. -/
theorem fdctDirect : Obligations.FdctDirect := by
  intro s c f hp hq hstrat heps hb
  obtain ⟨b, draws, hexec, h⟩ := exec_fdct_of_blockIs hp hq heps hb
  refine ⟨b, draws, hexec, fun u v => ?_⟩
  obtain ⟨x, y, hx, hxy, hy⟩ := h (naturalIndex u v)
  rw [naturalIndex_mod, naturalIndex_div, hstrat] at hxy
  rw [naturalIndex_mod, naturalIndex_div] at hy
  refine ⟨x, hx, ?_⟩
  rwa [hxy, outputScale, one_mul]

/-- Settles O36: the fast scale, which is positive, multiplies the deviation too. -/
theorem fdctFast : Obligations.FdctFast := by
  intro s c f hp hq hstrat heps hb
  obtain ⟨b, draws, hexec, h⟩ := exec_fdct_of_blockIs hp hq heps hb
  refine ⟨b, draws, hexec, fun u v => ?_⟩
  obtain ⟨x, y, hx, hxy, hy⟩ := h (naturalIndex u v)
  rw [naturalIndex_mod, naturalIndex_div, hstrat] at hxy
  rw [naturalIndex_mod, naturalIndex_div] at hy
  have hscale := fastScale_pos (naturalIndex u v)
  rw [naturalIndex_mod, naturalIndex_div] at hscale
  refine ⟨x, hx, ?_⟩
  rw [hxy, outputScale, ← mul_sub, abs_mul, abs_of_pos hscale]
  exact mul_le_mul_of_nonneg_left hy hscale.le

/-- Settles O37: the block has no numbers, so no output is one. -/
theorem fdctOfNonFiniteSample : Obligations.FdctOfNonFiniteSample := by
  intro s c i v hp hq hw hv hnone
  exact ⟨_, _, exec_fdct hp hq hw, fun k =>
    ⟨_, transformBlock_of_none (blockValues_of_notFinite hv hnone) .., rfl⟩⟩

/-! ### The exact transform (40_dct.md R96) -/

/-- The factor of row or column `x` at frequency `u`. -/
noncomputable def cosAt (u x : ℕ) : ℝ := Real.cos ((2 * x + 1) * u * Real.pi / 16)

theorem dctReal_eq (f : ℕ → ℝ) (u v : ℕ) : dctReal f u v = 0.25 * dctNorm u v *
    ∑ y ∈ Finset.range 8, ∑ x ∈ Finset.range 8, f (y * 8 + x) * cosAt u x * cosAt v y := rfl

@[simp] theorem cosAt_zero (x : ℕ) : cosAt 0 x = 1 := by simp [cosAt]

/-- The cosines of one frequency cancel: times `2*sin(u*pi/16)` their sum telescopes. -/
theorem sum_cosAt {u : ℕ} (h0 : 0 < u) (h : u < 16) : ∑ x ∈ Finset.range 8, cosAt u x = 0 := by
  have hu : (u : ℝ) < 16 := by exact_mod_cast h
  have hu0 : (0 : ℝ) < u := by exact_mod_cast h0
  have hsin : 0 < Real.sin (u * Real.pi / 16) := by
    apply Real.sin_pos_of_pos_of_lt_pi
    · positivity
    · nlinarith [Real.pi_pos]
  have hstep (x : ℕ) : 2 * Real.sin (u * Real.pi / 16) * cosAt u x =
      Real.sin (2 * (x + 1 : ℕ) * (u * Real.pi / 16)) - Real.sin (2 * x * (u * Real.pi / 16)) := by
    have h1 : 2 * (x + 1 : ℕ) * (u * Real.pi / 16) = (2 * x + 1) * u * Real.pi / 16 + u * Real.pi / 16 := by
      push_cast
      ring
    have h2 : 2 * x * (u * Real.pi / 16) = (2 * x + 1) * u * Real.pi / 16 - u * Real.pi / 16 := by ring
    rw [h1, h2, Real.sin_add, Real.sin_sub, cosAt]
    ring
  have hsum : 2 * Real.sin (u * Real.pi / 16) * ∑ x ∈ Finset.range 8, cosAt u x = 0 := by
    rw [Finset.mul_sum, Finset.sum_congr rfl fun x _ => hstep x,
      Finset.sum_range_sub fun x => Real.sin (2 * (x : ℕ) * (u * Real.pi / 16)),
      show 2 * ((8 : ℕ) : ℝ) * (u * Real.pi / 16) = u * Real.pi by push_cast; ring, Real.sin_nat_mul_pi]
    simp
  exact (mul_eq_zero.1 hsum).resolve_left (mul_pos two_pos hsin).ne'

/-- A constant block has no coefficient but the one at index 0. -/
theorem dctReal_of_constant {f : ℕ → ℝ} {a : ℝ} (hf : ∀ i, i < 64 → f i = a) {u v : ℕ} (hu : u < 8) (hv : v < 8) :
    dctReal f u v = if u = 0 ∧ v = 0 then 8 * a else 0 := by
  have hsum : ∑ y ∈ Finset.range 8, ∑ x ∈ Finset.range 8, f (y * 8 + x) * cosAt u x * cosAt v y =
      a * (∑ y ∈ Finset.range 8, cosAt v y) * ∑ x ∈ Finset.range 8, cosAt u x := by
    rw [mul_assoc, Finset.sum_mul_sum, Finset.mul_sum]
    refine Finset.sum_congr rfl fun y hy => ?_
    rw [Finset.mul_sum]
    refine Finset.sum_congr rfl fun x hx => ?_
    rw [hf _ (by have := Finset.mem_range.1 hx; have := Finset.mem_range.1 hy; omega)]
    ring
  rw [dctReal_eq, hsum]
  split
  case isTrue h =>
    rw [h.1, h.2]
    norm_num [dctNorm]
    ring
  case isFalse h =>
    obtain hu0 | hv0 : 0 < u ∨ 0 < v := by omega
    · rw [sum_cosAt hu0 (by omega), mul_zero, mul_zero]
    · rw [sum_cosAt hv0 (by omega), mul_zero, zero_mul, mul_zero]

/-- The factor of one frequency in `N(u,v)`. -/
noncomputable def freqNorm (u : ℕ) : ℝ := if u = 0 then 1 / Real.sqrt 2 else 1

theorem freqNorm_pos (u : ℕ) : 0 < freqNorm u := by
  unfold freqNorm
  split <;> positivity

theorem dctNorm_eq (u v : ℕ) : dctNorm u v = freqNorm u * freqNorm v := by
  have hroot : (Real.sqrt 2)⁻¹ * (Real.sqrt 2)⁻¹ = 1 / 2 := by
    rw [← mul_inv, Real.mul_self_sqrt zero_le_two, one_div]
  by_cases hu : u = 0 <;> by_cases hv : v = 0 <;> simp [dctNorm, freqNorm, hu, hv, hroot]

/-- The basis vector of each frequency has the same length. -/
theorem freqNorm_sq_mul_sum_sq {u : ℕ} (hu : u < 8) :
    freqNorm u ^ 2 * ∑ x ∈ Finset.range 8, cosAt u x ^ 2 = 4 := by
  by_cases h0 : u = 0
  · norm_num [h0, freqNorm]
  · have hsq (x : ℕ) : cosAt u x ^ 2 = 1 / 2 + cosAt (2 * u) x / 2 := by
      rw [cosAt, Real.cos_sq, cosAt, show 2 * ((2 * (x : ℝ) + 1) * u * Real.pi / 16) =
        (2 * x + 1) * (2 * u : ℕ) * Real.pi / 16 by push_cast; ring]
    simp only [hsq, Finset.sum_add_distrib, ← Finset.sum_div, sum_cosAt (u := 2 * u) (by omega) (by omega)]
    norm_num [freqNorm, h0]

/-- The magnitudes of one frequency, by the Cauchy-Schwarz inequality. -/
theorem sq_freqNorm_mul_sum_abs_le {u : ℕ} (hu : u < 8) :
    (freqNorm u * ∑ x ∈ Finset.range 8, |cosAt u x|) ^ 2 ≤ 32 := by
  have hcs := sq_sum_le_card_mul_sum_sq (s := Finset.range 8) (f := fun x => |cosAt u x|)
  simp only [sq_abs, Finset.card_range] at hcs
  calc (freqNorm u * ∑ x ∈ Finset.range 8, |cosAt u x|) ^ 2
      = freqNorm u ^ 2 * (∑ x ∈ Finset.range 8, |cosAt u x|) ^ 2 := mul_pow ..
    _ ≤ freqNorm u ^ 2 * ((8 : ℕ) * ∑ x ∈ Finset.range 8, cosAt u x ^ 2) := by gcongr
    _ = 8 * (freqNorm u ^ 2 * ∑ x ∈ Finset.range 8, cosAt u x ^ 2) := by push_cast; ring
    _ = 32 := by rw [freqNorm_sq_mul_sum_sq hu]; norm_num

/-- Samples of magnitude at most 128 give coefficients of magnitude at most 1024. -/
theorem abs_dctReal_le {f : ℕ → ℝ} (hf : ∀ i, i < 64 → |f i| ≤ 128) {u v : ℕ} (hu : u < 8) (hv : v < 8) :
    |dctReal f u v| ≤ 1024 := by
  have hsum : |∑ y ∈ Finset.range 8, ∑ x ∈ Finset.range 8, f (y * 8 + x) * cosAt u x * cosAt v y| ≤
      128 * ((∑ y ∈ Finset.range 8, |cosAt v y|) * ∑ x ∈ Finset.range 8, |cosAt u x|) := by
    rw [Finset.sum_mul_sum, Finset.mul_sum]
    refine (Finset.abs_sum_le_sum_abs _ _).trans (Finset.sum_le_sum fun y hy => ?_)
    rw [Finset.mul_sum]
    refine (Finset.abs_sum_le_sum_abs _ _).trans (Finset.sum_le_sum fun x hx => ?_)
    have hfx := hf (y * 8 + x) (by have := Finset.mem_range.1 hx; have := Finset.mem_range.1 hy; omega)
    rw [abs_mul, abs_mul, mul_assoc, mul_comm |cosAt v y|]
    gcongr
  have hN : 0 ≤ 0.25 * dctNorm u v := by
    rw [dctNorm_eq]
    exact mul_nonneg (by norm_num) (mul_pos (freqNorm_pos u) (freqNorm_pos v)).le
  rw [dctReal_eq, abs_mul, abs_of_nonneg hN]
  refine (mul_le_mul_of_nonneg_left hsum hN).trans ?_
  rw [dctNorm_eq]
  nlinarith [two_mul_le_add_sq (freqNorm u * ∑ x ∈ Finset.range 8, |cosAt u x|)
    (freqNorm v * ∑ y ∈ Finset.range 8, |cosAt v y|), sq_freqNorm_mul_sum_abs_le hu, sq_freqNorm_mul_sum_abs_le hv]

/-- Settles O38: with tolerance 0 each output is the scaled reference value itself. -/
theorem fdctExactProperties : Obligations.FdctExactProperties := by
  intro s c f hp hq heps hb
  obtain ⟨b, draws, hexec, h⟩ := exec_fdct_of_blockIs hp hq heps.ge hb
  have hexact (k : Fin 64) : ∃ x : Alg, b[k] = some (.real x) ∧
      x.toReal = outputScale s.strat (k.val % 8) (k.val / 8) * dctReal f (k.val % 8) (k.val / 8) := by
    obtain ⟨x, y, hx, hxy, hy⟩ := h k
    rw [heps, Rat.cast_zero, abs_nonpos_iff, sub_eq_zero] at hy
    exact ⟨x, hx, hy ▸ hxy⟩
  have hrow (k : Fin 64) : k.val % 8 < 8 := Nat.mod_lt _ (by decide)
  have hcol (k : Fin 64) : k.val / 8 < 8 := by omega
  refine ⟨b, draws, hexec, fun a hconst k => ?_, fun hstrat hbound k => ?_⟩
  · obtain ⟨x, hx, hxy⟩ := hexact k
    refine ⟨x, hx, ?_⟩
    rw [hxy, dctReal_of_constant hconst (hrow k) (hcol k)]
    by_cases hk : k.val = 0
    · simpa [hk] using outputScale_zero_mul s.strat a
    · rw [if_neg (by omega), if_neg hk, mul_zero]
  · obtain ⟨x, hx, hxy⟩ := hexact k
    refine ⟨x, hx, ?_⟩
    rw [hxy, hstrat, outputScale, one_mul]
    exact abs_dctReal_le hbound (hrow k) (hcol k)

end Sys2Proof.Machine
end

section
/-! SUPPORT. The quantisation tables (41_quant_tables.md): the presets, what `CFG` stores, and that no later command but
`RESET` writes the configuration or the tables (R106, 70_reset_and_hazards.md R247). -/

namespace Sys2Proof.Machine

/-! ### The presets -/

/-- Settles O17: the cases of the definition, and R103 from `preset_ne_zero`. -/
theorem presetSelection : Obligations.PresetSelection := by
  refine ⟨rfl, rfl, rfl, fun level _ h2 h3 => by rw [preset, if_neg h2, if_neg h3], fun level cl i => ⟨?_, ?_⟩⟩
  · exact Nat.pos_of_ne_zero fun h0 => preset_ne_zero level cl i (BitVec.eq_of_toNat_eq h0)
  · exact Nat.le_of_lt_succ (preset level cl i).isLt

/-! ### What `CFG` stores -/

/-- `ZZMAP` loses no natural index (42_quantizer_zigzag.md R110). -/
theorem zzInv_zzMap (i : Fin 64) : zzInv (zzMap i) = i := by
  revert i
  decide

theorem exec_cfg (level : Half) (strat : Strategy) {s : State} (hp : s.phase = .idle) (hq : s.qvalid = false) :
    exec (.cfg level strat) s = .next (answered (configure level strat s)) :=
  exec_accepted rfl ⟨hp, hq⟩

theorem qtabOf_zzMap (level : Half) (cl : Fin 2) (i : Fin 64) :
    (qtabOf level cl)[zzMap i] = some (preset level cl i) := by
  rw [qtabOf, tabulate_getElem_fin, zzInv_zzMap]

theorem fscaleOf_getElem (level : Half) (cl : Fin 2) (i : Fin 64) :
    (fscaleOf level cl)[i] = some (.real (fusedScale i (preset level cl i))) :=
  tabulate_getElem_fin _ i

/-- Settles O18: the tables are those of `configure`; no divisor is zero, so an entry of the fused scale table is the
reciprocal that R104 prints. -/
theorem cfgLoadsTables : Obligations.CfgLoadsTables := by
  intro s level strat hp hq
  refine ⟨_, _, exec_cfg level strat hp hq, fun cl i => ?_, fun hdirect => ?_, fun hfast cl x y => ?_⟩
  · rw [tabulate_getElem_fin, qtabOf_zzMap]
  · rw [hdirect, if_neg nofun]
  · refine ⟨fusedScale (naturalIndex x y) (preset level cl (naturalIndex x y)), ?_, ?_⟩
    · rw [if_pos hfast, tabulate_getElem_fin]
      exact fscaleOf_getElem level cl (naturalIndex x y)
    · rw [toReal_fusedScale _ (preset_ne_zero level cl _), naturalIndex_mod, naturalIndex_div, one_div]
      rfl

/-! ### What is frozen -/

/-- A piece stays as it is under a command that does not write it, or that the phase table refuses. -/
theorem exec_same {i : Instr} {s t : State} (hi : i ≠ .reset) (h : exec i s = .next t) {p : Piece}
    (hp : mnemonic i ∈ p.writers → ¬ AcceptedByTable i s) (hphase : p ≠ .phase) (hfault : p ≠ .faultRegisters) :
    p.same s t := by
  have hentry (r : Raise) : p.same s (respond .fault (enterFault r s)) :=
    (p.same_respond ..).2 ((p.same_enterFault hphase hfault ..).2 (p.same_refl s))
  obtain ⟨-, -, he⟩ | ⟨-, -, he⟩ | ⟨-, -, -, he⟩ | ⟨-, ha, he⟩ := exec_cases i s
  · cases he.symm.trans h
    exact (p.same_respond .fault s s).2 (p.same_refl s)
  · cases he.symm.trans h
    exact hentry ⟨.illcmd, i.upper⟩
  · cases he.symm.trans h
    exact hentry ⟨.seq, i.upper⟩
  · exact runOf_same hi (he.symm.trans h) (fun hmem => hp hmem ha) hphase hfault

theorem eq_hbuild_of_mnemonic {i : Instr} (h : mnemonic i = "HBUILD") : i = .hbuild := by
  cases i <;> simp [mnemonic] at h ⊢

/-- `CFG`, the one writer of the quantisation tables, is refused once they are valid (46_session_commands.md R160). -/
theorem not_accepted_of_qvalid {i : Instr} {s : State} (hq : s.qvalid = true) (hi : mnemonic i ∈ ["CFG"]) :
    ¬ AcceptedByTable i s := by
  obtain ⟨level, strat, rfl⟩ := eq_cfg_of_mnemonic (List.mem_singleton.1 hi)
  exact fun ⟨_, hinvalid⟩ => Bool.noConfusion (hq.symm.trans hinvalid)

/-- `HBUILD`, the one writer of the Huffman tables, is refused once they are valid (46_session_commands.md R160). -/
theorem not_accepted_of_hvalid {i : Instr} {s : State} (hv : s.hvalid = true) (hi : mnemonic i ∈ ["HBUILD"]) :
    ¬ AcceptedByTable i s := by
  cases eq_hbuild_of_mnemonic (List.mem_singleton.1 hi)
  exact fun ⟨_, hinvalid⟩ => Bool.noConfusion (hv.symm.trans hinvalid)

/-- Settles O19: the valid flag makes the phase table refuse the only command that writes the table. -/
theorem tablesFrozen : Obligations.TablesFrozen := by
  intro i s t h hi
  refine ⟨fun hq => ?_, fun hv => ?_⟩
  · have hrefused : mnemonic i ∈ ["CFG"] → ¬ AcceptedByTable i s := not_accepted_of_qvalid hq
    have hqvalid : t.qvalid = s.qvalid := exec_same (p := .qvalid) hi h hrefused nofun nofun
    exact ⟨exec_same (p := .level) hi h hrefused nofun nofun, exec_same (p := .strat) hi h hrefused nofun nofun,
      exec_same (p := .qtab) hi h hrefused nofun nofun, exec_same (p := .fscale) hi h hrefused nofun nofun,
      hqvalid.trans hq⟩
  · have hrefused : mnemonic i ∈ ["HBUILD"] → ¬ AcceptedByTable i s := not_accepted_of_hvalid hv
    have hhvalid : t.hvalid = s.hvalid := exec_same (p := .hvalid) hi h hrefused nofun nofun
    exact ⟨exec_same (p := .ehuf) hi h hrefused nofun nofun, hhvalid.trans hv⟩

end Sys2Proof.Machine
end

section
/-! SUPPORT. The exact floor (00_scope.md R7): the floor function of `Alg` is the floor of the real number. -/

namespace Sys2Proof.Alg

/-! ### The floor -/

theorem sign_pos_iff {x : Alg} : 0 < x.sign ↔ 0 < x.toReal := by
  rw [sign_eq]
  obtain h | h | h := lt_trichotomy x.toReal 0
  · simp [sign_neg h, h.le]
  · simp [h]
  · simp [sign_pos h, h]

theorem lt_iff {x y : Alg} : lt x y = true ↔ x.toReal < y.toReal := by
  rw [lt, decide_eq_true_iff, sign_pos_iff, toReal_sub, sub_pos]

theorem abs_intCast_mul_cosC_le (n : ℤ) (k : ℕ) : |(n : ℝ) * cosC k| ≤ n.natAbs := by
  rw [abs_mul, Nat.cast_natAbs, Int.cast_abs]
  exact mul_le_of_le_one_right (abs_nonneg _) (Real.abs_cos_le_one _)

/-- No cosine exceeds 1, so the numerator is at most the sum that `magnitude` takes. -/
theorem abs_numer_le (x : Alg) : |x.numer| ≤ (x.terms.foldl (fun a kb => a + kb.2.natAbs) 0 : ℕ) := by
  simp only [numer, terms, List.foldl, Nat.cast_add]
  iterate 7 refine (abs_add_le _ _).trans (add_le_add ?_ (abs_intCast_mul_cosC_le _ _))
  simp

theorem abs_toReal_lt_magnitude (x : Alg) : |x.toReal| < x.magnitude := by
  rw [toReal_eq_numer_div, abs_div, Nat.abs_cast, magnitude]
  refine (div_le_div_of_nonneg_right x.abs_numer_le x.den.cast_nonneg).trans_lt ?_
  rw [← Nat.floor_div_eq_div (K := ℝ), Nat.cast_add_one]
  exact Nat.lt_floor_add_one _

/-- The halving finds the floor of a number in its interval. -/
theorem floorSearch_eq {x : Alg} (fuel : ℕ) {lo : ℤ} (hlo : (lo : ℝ) ≤ x.toReal) (hhi : x.toReal < lo + 2 ^ fuel) :
    x.floorSearch fuel lo = ⌊x.toReal⌋ := by
  induction fuel generalizing lo with
  | zero => exact (Int.floor_eq_iff.2 ⟨hlo, by simpa using hhi⟩).symm
  | succ fuel ih =>
    simp only [floorSearch]
    split
    case isTrue h =>
      rw [le_iff, toReal_ofInt] at h
      refine ih h ?_
      push_cast
      rw [pow_succ] at hhi
      linarith
    case isFalse h =>
      rw [le_iff, toReal_ofInt, not_le] at h
      exact ih hlo (by exact_mod_cast h)

/-- Each of the three ways gives the floor: the quotient of integers, the guess that the exact comparison confirms, and
the search, whose interval holds the number by `abs_toReal_lt_magnitude`. -/
theorem floor_eq (x : Alg) : x.floor = ⌊x.toReal⌋ := by
  unfold Alg.floor
  split_ifs with hrat
  · rw [toReal_eq_numer_div, numer_of_isRational hrat, Int.floor_div_natCast, Int.floor_intCast]
  · dsimp only
    split
    case isTrue hguess =>
      rw [Bool.and_eq_true, le_iff, lt_iff, toReal_ofInt, toReal_ofInt] at hguess
      exact (Int.floor_eq_iff.2 ⟨hguess.1, by exact_mod_cast hguess.2⟩).symm
    case isFalse =>
      obtain ⟨hlo, hhi⟩ := abs_lt.1 x.abs_toReal_lt_magnitude
      have hfuel : (2 * x.magnitude : ℝ) < 2 ^ (Nat.log2 (2 * x.magnitude) + 1) := by exact_mod_cast Nat.lt_log2_self
      exact floorSearch_eq _ (by push_cast; exact hlo.le) (by push_cast; linarith)

theorem ceil_eq (x : Alg) : x.ceil = ⌈x.toReal⌉ := by
  rw [ceil, floor_eq, toReal_neg, Int.floor_neg, neg_neg]

theorem toReal_half : (ofFrac 1 2).toReal = 0.5 := by
  rw [(ofFrac_denotes 1 two_pos).toReal_eq]
  norm_num

theorem toReal_addHalf (x : Alg) : x.addHalf.toReal = x.toReal + 0.5 := by rw [addHalf, toReal_add, toReal_half]

theorem toReal_subHalf (x : Alg) : x.subHalf.toReal = x.toReal - 0.5 := by rw [subHalf, toReal_sub, toReal_half]

end Sys2Proof.Alg
end

section
/-! SUPPORT. The two roundings of the quantiser (42_quantizer_zigzag.md R112, R113, R116) and the range of what they
give (R114). -/

namespace Sys2Proof.Machine

/-! ### The roundings -/

/-- The direct rounding is the one R112 prints. -/
theorem roundDirect_eq (q : Alg) : roundDirect q = roundAway q.toReal := by
  simp only [roundDirect, roundAway, ← not_lt, ite_not, Alg.sign_neg_iff, Alg.ceil_eq, Alg.floor_eq, Alg.toReal_subHalf,
    Alg.toReal_addHalf]

theorem toReal_biased (q : Alg) : (Alg.add q (Alg.ofInt bias)).addHalf.toReal = q.toReal + 16384 + 0.5 := by
  rw [Alg.toReal_addHalf, Alg.toReal_add, Alg.toReal_ofInt, bias, Int.cast_ofNat]

/-- The fast rounding is the one R113 prints, and R114's refusal below the biased range. -/
theorem roundFast_eq (q : Alg) :
    roundFast q = if q.toReal + 16384 + 0.5 < 0 then none else some (roundBiased q.toReal) := by
  simp only [roundFast, Alg.sign_neg_iff, Alg.floor_eq, toReal_biased]
  rfl

/-- The bias is an integer, so it leaves the rounding to nearest, ties upwards. -/
theorem roundBiased_eq (r : ℝ) : roundBiased r = ⌊r + 0.5⌋ := by
  rw [roundBiased, add_right_comm, show (16384 : ℝ) = ((16384 : ℤ) : ℝ) by norm_num, Int.floor_add_intCast,
    add_sub_cancel_right]

/-- R116: but at the negative ties the roundings agree. -/
theorem roundBiased_eq_roundAway {r : ℝ} (htie : ∀ n : ℕ, r ≠ -(n + 0.5)) : roundBiased r = roundAway r := by
  rw [roundBiased_eq, roundAway]
  split
  case isTrue => rfl
  case isFalse hneg =>
    have hle : (⌊r + 0.5⌋ : ℝ) ≤ r + 0.5 := Int.floor_le _
    have hlt : r + 0.5 < ⌊r + 0.5⌋ + 1 := Int.lt_floor_add_one _
    have hnonpos : ⌊r + 0.5⌋ ≤ 0 := by
      have : (⌊r + 0.5⌋ : ℝ) < 1 := by linarith
      exact Int.lt_add_one_iff.1 (by exact_mod_cast this)
    have hne : (⌊r + 0.5⌋ : ℝ) ≠ r + 0.5 := fun h => htie ⌊r + 0.5⌋.natAbs (by
      rw [Nat.cast_natAbs, abs_of_nonpos hnonpos, Int.cast_neg]
      linarith)
    refine (Int.ceil_eq_iff.2 ⟨?_, by linarith⟩).symm
    linarith [hle.lt_of_ne hne]

/-- R116: at a negative tie the direct rounding goes away from zero. -/
theorem roundAway_negative_tie (n : ℕ) : roundAway (-(n + 0.5)) = -(n + 1) := by
  have hn : (0 : ℝ) ≤ n := n.cast_nonneg
  rw [roundAway, if_neg (by linarith), show (-(n + 0.5) - 0.5 : ℝ) = ((-(n + 1) : ℤ) : ℝ) by push_cast; ring,
    Int.ceil_intCast]

/-- R116: at a negative tie the fast rounding is one higher. -/
theorem roundBiased_negative_tie (n : ℕ) : roundBiased (-(n + 0.5)) = -n := by
  rw [roundBiased_eq, show (-(n + 0.5) + 0.5 : ℝ) = ((-n : ℤ) : ℝ) by push_cast; ring, Int.floor_intCast]

theorem roundFast_of_nonneg {q : Alg} (h : 0 ≤ q.toReal + 16384 + 0.5) : roundFast q = some (roundBiased q.toReal) := by
  rw [roundFast_eq, if_neg h.not_gt]

/-- Settles O41: both roundings on the real number, then the ties. -/
theorem roundingRules : Obligations.RoundingRules := by
  refine fun q => ⟨roundDirect_eq q, roundFast_of_nonneg, fun hlow => by rw [roundFast_eq, if_pos hlow],
    fun h htie => ?_, fun n hn htie => ?_⟩
  · rw [roundFast_of_nonneg h, roundDirect_eq, roundBiased_eq_roundAway htie]
  · have hlow : 0 ≤ q.toReal + 16384 + 0.5 := by
      have : (n : ℝ) ≤ 16384 := by exact_mod_cast hn
      linarith
    rw [roundFast_of_nonneg hlow, roundDirect_eq, htie, roundAway_negative_tie, roundBiased_negative_tie]
    exact ⟨rfl, rfl⟩

/-! ### The range of a result -/

theorem fitsHalf_of_range {r : ℤ} (h : -32768 ≤ r ∧ r ≤ 32767) : ∃ z : Half, fitsHalf r = some z ∧ z.toInt = r := by
  refine ⟨_, if_pos h, ?_⟩
  rw [BitVec.toInt_ofInt]
  exact Int.bmod_eq_of_le (by omega) (by omega)

/-- What an element's path makes of the quotient it sees; `none` raises `F_QRANGE`. -/
def quantised (strat : Strategy) (q : Alg) : Option Half :=
  match strat with
  | .direct => fitsHalf (roundDirect q)
  | .fast => (roundFast q).bind fitsHalf

theorem quantised_of_ok {strat : Strategy} {q : Alg} (h : QuotientOk strat q.toReal) :
    ∃ z : Half, quantised strat q = some z ∧ z.toInt = roundBy strat q.toReal := by
  obtain ⟨hlow, hrange⟩ := h
  cases strat with
  | direct =>
    rw [quantised, roundDirect_eq]
    exact fitsHalf_of_range hrange
  | fast =>
    rw [quantised, roundFast_of_nonneg (hlow rfl)]
    exact fitsHalf_of_range hrange

theorem quantised_of_not_ok {strat : Strategy} {q : Alg} (h : ¬ QuotientOk strat q.toReal) :
    quantised strat q = none := by
  cases strat with
  | direct =>
    rw [quantised, roundDirect_eq]
    exact if_neg fun hrange => h ⟨nofun, hrange⟩
  | fast =>
    rw [quantised, roundFast_eq]
    split
    case isTrue => rfl
    case isFalse hlow => exact if_neg fun hrange => h ⟨fun _ => not_lt.1 hlow, hrange⟩

end Sys2Proof.Machine
end

section
/-! SUPPORT. `QZZ` (42_quantizer_zigzag.md): the zig-zag order (R110), the reference quotient of an element (R112,
R113), the block that the stage writes (R111) and the fault of its first element without a quantised value (R114). -/

namespace Sys2Proof.Machine

/-! ### The zig-zag order -/

theorem zzMap_zzInv (k : Fin 64) : zzMap (zzInv k) = k := by
  revert k
  decide

theorem zzMap_naturalIndex (x y : Fin 8) : (zzMap (naturalIndex x y)).val = zigzagWalk x.val y.val := by
  revert x y
  decide

/-- Settles O40: the walk cell by cell, and the two inverses. -/
theorem zigzagIsTheWalk : Obligations.ZigzagIsTheWalk :=
  ⟨zzMap_naturalIndex, fun k => ⟨zzMap_zzInv k, zzInv_zzMap k⟩⟩

theorem toZigzag_zzMap {α : Type} (b : Vector α 64) (i : Fin 64) : (toZigzag b)[zzMap i] = b[i] := by
  rw [toZigzag, tabulate_getElem_fin]
  simp only [zzInv_zzMap]

/-! ### The quotients -/

/-- `q` is the reference quotient at natural index `i`, `none` where the coefficient or the scale entry is not a finite
number, and the entries it is taken from are written. -/
def ReferenceIs (s : State) (c : Fin 3) (i : Fin 64) (q : Option ℝ) : Prop :=
  ∃ v : NumValue, s.coef[c][i] = some v ∧
    (s.strat = .direct → ∃ d : Byte, d ≠ 0 ∧ s.qtab[cls c][zzMap i] = some d ∧
      q = (v.value s.params.fmt).map fun x => x.toReal / (d.toNat : ℝ)) ∧
    (s.strat = .fast → ∃ g : NumValue, s.fscale[cls c][i] = some g ∧
      q = (v.value s.params.fmt).bind fun x => (g.value s.params.fmt).map fun y => x.toReal * y.toReal)

/-- An element is quantised from the exact number that its reference quotient is. -/
theorem quantBlock_getElem {s : State} {c : Fin 3} {i : Fin 64} {q : Option ℝ} (h : ReferenceIs s c i q) :
    ∃ a : Option Alg, a.map Alg.toReal = q ∧
      (quantBlock s c)[i] = a.bind fun x => quantised s.strat (quotient s.params (s.draws + i.val) x) := by
  obtain ⟨v, hv, hdirect, hfast⟩ := h
  rw [quantBlock, tabulate_getElem_fin]
  cases hs : s.strat with
  | direct =>
    obtain ⟨d, hd, htab, rfl⟩ := hdirect hs
    have hpos : 0 < d.toNat := Nat.pos_of_ne_zero fun h0 => hd (BitVec.eq_of_toNat_eq h0)
    refine ⟨(v.value s.params.fmt).map fun x => x.divNat d.toNat, ?_, ?_⟩
    · simp [Function.comp_def, Alg.toReal_divNat _ hpos]
    · simp only [hv, htab, quantDirect]
      cases v.value s.params.fmt with
      | none => rfl
      | some x => exact if_neg hd
  | fast =>
    obtain ⟨g, hg, rfl⟩ := hfast hs
    refine ⟨(v.value s.params.fmt).bind fun x => (g.value s.params.fmt).map fun y => Alg.mul x y, ?_, ?_⟩
    · simp [Function.comp_def, Alg.toReal_mul]
    · simp only [hv, hg, quantFast]
      cases v.value s.params.fmt with
      | none => rfl
      | some x =>
        cases g.value s.params.fmt with
        | none => rfl
        | some y => rfl

/-- The deviation of a quotient lies within `EPS_Q` (R115). -/
theorem toReal_quotient {p : Params} (heps : 0 ≤ p.epsQ) (n : ℕ) (x : Alg) :
    ∃ e : ℝ, |e| ≤ (p.epsQ : ℝ) ∧ (quotient p n x).toReal = x.toReal + e :=
  ⟨_, Alg.abs_deviated_sub_le heps (Config.quotientDraw n) x, (add_sub_cancel _ _).symm⟩

section
variable {s : State} {c : Fin 3} {i : Fin 64}

theorem quantBlock_of_ok {r : ℝ} (heps : 0 ≤ s.params.epsQ) (h : ReferenceIs s c i (some r))
    (hok : ∀ e : ℝ, |e| ≤ (s.params.epsQ : ℝ) → QuotientOk s.strat (r + e)) :
    ∃ (z : Half) (e : ℝ), |e| ≤ (s.params.epsQ : ℝ) ∧ (quantBlock s c)[i] = some z ∧
      z.toInt = roundBy s.strat (r + e) := by
  obtain ⟨a, ha, hentry⟩ := quantBlock_getElem h
  obtain ⟨x, rfl, rfl⟩ := Option.map_eq_some_iff.1 ha
  obtain ⟨e, he, hq⟩ := toReal_quotient heps (s.draws + i.val) x
  obtain ⟨z, hz, hround⟩ := quantised_of_ok (hq ▸ hok e he)
  exact ⟨z, e, he, hentry.trans hz, hround.trans (by rw [hq])⟩

theorem quantBlock_of_not_ok {q : Option ℝ} (heps : 0 ≤ s.params.epsQ) (h : ReferenceIs s c i q)
    (hbad : ∀ r, q = some r → ∀ e : ℝ, |e| ≤ (s.params.epsQ : ℝ) → ¬ QuotientOk s.strat (r + e)) :
    (quantBlock s c)[i] = none := by
  obtain ⟨a, rfl, hentry⟩ := quantBlock_getElem h
  cases a with
  | none => exact hentry
  | some x =>
    obtain ⟨e, he, hq⟩ := toReal_quotient heps (s.draws + i.val) x
    exact hentry.trans (quantised_of_not_ok (hq ▸ hbad _ rfl e he))

end

/-! ### The command -/

theorem allWritten_of_eq_some {α : Type} {n : ℕ} {b : Vector (Option α) n} (h : ∀ i : Fin n, ∃ v, b[i] = some v) :
    allWritten b := fun i h0 => by
  obtain ⟨v, hv⟩ := h i
  cases h0.symm.trans hv

/-- With a reference quotient at every index nothing that the stage reads was never written. -/
theorem written_of_referenceIs {s : State} {c : Fin 3} {q : Fin 64 → Option ℝ} (h : ∀ i, ReferenceIs s c i (q i)) :
    firstBot s.coef[c] = none ∧ quantTableBot s c = none := by
  choose v hv hdirect hfast using h
  refine ⟨(firstBot_eq_none _).2 (allWritten_of_eq_some fun i => ⟨v i, hv i⟩), ?_⟩
  unfold quantTableBot
  cases hs : s.strat with
  | direct =>
    refine Option.map_eq_none_iff.2 ((firstBot_eq_none _).2 (allWritten_of_eq_some fun k => ?_))
    obtain ⟨d, -, hd, -⟩ := hdirect (zzInv k) hs
    exact ⟨d, zzMap_zzInv k ▸ hd⟩
  | fast =>
    refine Option.map_eq_none_iff.2 ((firstBot_eq_none _).2 (allWritten_of_eq_some fun i => ?_))
    obtain ⟨g, hg, -⟩ := hfast i hs
    exact ⟨g, hg⟩

theorem exec_qzz {s : State} {c : Fin 3} (hp : s.phase ≠ .faulted) (hq : s.qvalid = true) :
    exec (.qzz (byteOf c.val)) s = finish (qzzStage c s) := by
  rw [exec_accepted (i := .qzz (byteOf c.val)) (componentOk_byteOf c) ⟨hp, hq⟩, runOf, component_byteOf]

/-- What is left of the stage's cases then: the first element without a value faults, or the block is written. -/
theorem qzzStage_of_referenceIs {s : State} {c : Fin 3} {q : Fin 64 → Option ℝ} (h : ∀ i, ReferenceIs s c i (q i)) :
    (∃ i, firstBot (quantBlock s c) = some i ∧ qzzStage c s =
      .error (enterFault ⟨.qrange, infoBytes 0x11 (byteOf c.val) (byteOf i)⟩ { s with draws := s.draws + 64 })) ∨
    (firstBot (quantBlock s c) = none ∧
      qzzStage c s = .ok { s with zz := s.zz.set c.val (toZigzag (quantBlock s c)), draws := s.draws + 64 }) := by
  obtain ⟨hcoef, htab⟩ := written_of_referenceIs h
  obtain ⟨i, hbot, -⟩ | ⟨r, -, hbot, -⟩ | ⟨i, -, -, hquant, he⟩ | ⟨-, -, hquant, he⟩ := qzzStage_cases c s
  · cases hbot.symm.trans hcoef
  · cases hbot.symm.trans htab
  · exact .inl ⟨i, hquant, he⟩
  · exact .inr ⟨hquant, he⟩

/-- `QZZ` on either path: every entry is the rounding of its quotient up to `EPS_Q`, at its zig-zag position. -/
theorem exec_qzz_of_ok {s : State} {c : Fin 3} {r : Fin 64 → ℝ} (hp : s.phase ≠ .faulted) (hq : s.qvalid = true)
    (heps : 0 ≤ s.params.epsQ) (href : ∀ i, ReferenceIs s c i (some (r i)))
    (hok : ∀ (i : Fin 64) (e : ℝ), |e| ≤ (s.params.epsQ : ℝ) → QuotientOk s.strat (r i + e)) :
    ∃ (b : Block Half) (draws : ℕ),
      exec (.qzz (byteOf c.val)) s = .next (answered { s with zz := s.zz.set c.val b, draws := draws }) ∧
      ∀ i : Fin 64, ∃ (z : Half) (e : ℝ), |e| ≤ (s.params.epsQ : ℝ) ∧ b[zzMap i] = some z ∧
        z.toInt = roundBy s.strat (r i + e) := by
  have hentry (i : Fin 64) := quantBlock_of_ok heps (href i) (hok i)
  have hquant : firstBot (quantBlock s c) = none := (firstBot_eq_none _).2 (allWritten_of_eq_some fun i => by
    obtain ⟨z, -, -, hz, -⟩ := hentry i
    exact ⟨z, hz⟩)
  obtain ⟨i, hsome, -⟩ | ⟨-, he⟩ := qzzStage_of_referenceIs href
  · cases hsome.symm.trans hquant
  · refine ⟨toZigzag (quantBlock s c), s.draws + 64, ?_, fun i => by rw [toZigzag_zzMap]; exact hentry i⟩
    rw [exec_qzz hp hq, he]
    rfl

/-- Settles O42: the reference quotient is the coefficient over its divisor. -/
theorem qzzDirect : Obligations.QzzDirect := by
  intro s c f d hp hq hs heps hcoef ⟨hne, hd⟩ hok
  rw [hs] at hd
  have href (i : Fin 64) : ReferenceIs s c i (some (f i.val / ((d i).toNat : ℝ))) := by
    obtain ⟨v, x, hv, hx, hf⟩ := hcoef i
    exact ⟨v, hv, fun _ => ⟨d i, hne i, hd i, by rw [hx, ← hf]; rfl⟩, fun h => by cases hs.symm.trans h⟩
  simpa only [hs, roundBy] using exec_qzz_of_ok hp hq heps href (hs.symm ▸ hok)

/-- Settles O43: the reference quotient is the coefficient times its fused scale. -/
theorem qzzFast : Obligations.QzzFast := by
  intro s c f g hp hq hs heps hcoef hscale hok
  have href (i : Fin 64) : ReferenceIs s c i (some (f i.val * g i.val)) := by
    obtain ⟨v, x, hv, hx, hf⟩ := hcoef i
    obtain ⟨w, y, hw, hy, hg⟩ := hscale i
    exact ⟨v, hv, fun h => (by cases hs.symm.trans h), fun _ => ⟨w, hw, by rw [hx, hy, ← hf, ← hg]; rfl⟩⟩
  simpa only [hs, roundBy] using exec_qzz_of_ok hp hq heps href (hs.symm ▸ hok)

/-! ### The range fault -/

/-- The information word of R215. -/
theorem infoBytes_qzz (c : Fin 3) (i : Fin 64) :
    infoBytes 0x11 (byteOf c.val) (byteOf i.val) = BitVec.ofNat 32 (0x110000 + c.val * 256 + i.val) := by
  revert c i
  decide

/-- Settles O44: below `i` every element has a value and `i` has none, so `i` is the first entry that is missing. -/
theorem qzzRangeFaults : Obligations.QzzRangeFaults := by
  intro s c i q hp hq heps _ href hbelow hbad
  have hquant : firstBot (quantBlock s c) = some i.val := by
    refine (firstBot_eq_some _ _).2 ⟨i.isLt, quantBlock_of_not_ok heps (href i) hbad, fun j hj h0 => ?_⟩
    obtain ⟨r, hr, hok⟩ := hbelow ⟨j, hj.trans i.isLt⟩ hj
    obtain ⟨z, -, -, hz, -⟩ := quantBlock_of_ok heps (hr ▸ href _) hok
    cases h0.symm.trans hz
  obtain ⟨k, hsome, he⟩ | ⟨hnone, -⟩ := qzzStage_of_referenceIs href
  · cases hsome.symm.trans hquant
    refine ⟨s.draws + 64, ?_⟩
    rw [exec_qzz hp hq, he, infoBytes_qzz]
    rfl
  · cases hnone.symm.trans hquant

end Sys2Proof.Machine
end

section
/-! SUPPORT. The canonical code assignment (43_huffman_builder.md R122): the lists of its three steps in closed form, the
length at which the codes run out, and the first value that occurs again. -/

namespace Sys2Proof.Machine

/-! ### Runs laid end to end -/

theorem length_flatMap_range {α : Type} (f : ℕ → List α) (k : ℕ) :
    ((List.range k).flatMap f).length = ∑ i ∈ Finset.range k, (f i).length := by
  induction k with
  | zero => rfl
  | succ k ih => simp [List.range_succ, Finset.sum_range_succ, ih]

/-- Entry `m` of run `j` stands behind the lower runs. -/
theorem getElem?_flatMap_range {α : Type} (f : ℕ → List α) {j k m : ℕ} (hj : j < k) (hm : m < (f j).length) :
    ((List.range k).flatMap f)[(∑ i ∈ Finset.range j, (f i).length) + m]? = (f j)[m]? := by
  induction k with
  | zero => omega
  | succ k ih =>
    have hlen := length_flatMap_range f
    rw [List.range_succ, List.flatMap_append, List.flatMap_singleton]
    obtain hjk | rfl := Nat.lt_succ_iff_lt_or_eq.1 hj
    · have hmono := Finset.sum_le_sum_of_subset (f := fun i => (f i).length)
        (Finset.range_subset_range.2 (Nat.succ_le_of_lt hjk))
      rw [Finset.sum_range_succ] at hmono
      rw [List.getElem?_append_left (by rw [hlen]; omega), ih hjk]
    · rw [List.getElem?_append_right (by rw [hlen]; omega), hlen, Nat.add_sub_cancel_left]

/-! ### Step 1: the code lengths -/

theorem length_sizeList (l : ℕ) (counts : List ℕ) : (sizeList l counts).length = counts.sum := by
  induction counts generalizing l with
  | nil => rfl
  | cons n rest ih => simp [sizeList, ih]

theorem le_of_mem_sizeList {x l : ℕ} {counts : List ℕ} (h : x ∈ sizeList l counts) : l ≤ x := by
  induction counts generalizing l with
  | nil => cases h
  | cons n rest ih =>
    obtain h | h := List.mem_append.1 h
    · exact (List.eq_of_mem_replicate h).ge
    · exact (Nat.le_succ l).trans (ih h)

theorem sizeList_pairwise_le (l : ℕ) (counts : List ℕ) : (sizeList l counts).Pairwise (· ≤ ·) := by
  induction counts generalizing l with
  | nil => exact .nil
  | cons n rest ih =>
    refine List.pairwise_append.2 ⟨List.pairwise_replicate_of_refl, ih _, fun a ha b hb => ?_⟩
    rw [List.eq_of_mem_replicate ha]
    exact (Nat.le_succ l).trans (le_of_mem_sizeList hb)

/-! ### Step 2: the codes -/

/-- From code 0 the length to start at does not matter. -/
theorem assignCodes_zero (si si' : ℕ) (sizes : List ℕ) : assignCodes 0 si sizes = assignCodes 0 si' sizes := by
  cases sizes <;> simp [assignCodes]

/-- Past length `l` the next code has one bit more. -/
theorem assignCodes_next {l code : ℕ} {sizes : List ℕ} (h : ∀ x ∈ sizes, l < x) :
    assignCodes code l sizes = assignCodes (2 * code) (l + 1) sizes := by
  cases sizes with
  | nil => rfl
  | cons x rest =>
    have hx : l < x := h x (List.mem_cons_self ..)
    have hshift : code <<< (x - l) = (2 * code) <<< (x - (l + 1)) := by
      rw [show x - l = (x - (l + 1)) + 1 by omega, Nat.shiftLeft_eq, Nat.shiftLeft_eq, pow_succ]
      ring
    simp only [assignCodes, hshift]

/-- `n` symbols of one length take `n` codes in a row, or the codes of that length run out. -/
theorem assignCodes_replicate {l code : ℕ} (n : ℕ) (rest : List ℕ) (hc : code ≤ 2 ^ l) :
    assignCodes code l (List.replicate n l ++ rest) =
      if code + n ≤ 2 ^ l then (assignCodes (code + n) l rest).map (List.range' code n ++ ·) else .error l := by
  induction n generalizing code with
  | zero => cases h : assignCodes code l rest <;> simp [hc, h, Except.map]
  | succ n ih =>
    simp only [List.replicate_succ, List.cons_append, assignCodes, Nat.sub_self, Nat.shiftLeft_zero]
    split
    · rw [if_neg (by omega)]
    · rw [ih (by omega), show code + 1 + n = code + (n + 1) by omega]
      split
      · cases assignCodes (code + (n + 1)) l rest <;> simp [Except.map, List.range'_succ]
      · rfl

/-- What the first symbol of the list adds to the codes of the others. -/
theorem assignCodes_cons_eq_ok {code si l : ℕ} {rest codes : List ℕ} (h : assignCodes code si (l :: rest) = .ok codes) :
    ∃ cs, assignCodes (code * 2 ^ (l - si) + 1) l rest = .ok cs ∧ codes = code * 2 ^ (l - si) :: cs := by
  simp only [assignCodes, Nat.shiftLeft_eq] at h
  split at h
  · cases h
  · cases hrest : assignCodes (code * 2 ^ (l - si) + 1) l rest with
    | error e => simp [hrest, Except.map] at h
    | ok cs =>
      rw [hrest] at h
      cases h
      exact ⟨cs, rfl, rfl⟩

/-- The code `x.2` of length `x.1` and all its extensions to the length of `y` are used up below `y`. -/
def CodePrecedes (x y : ℕ × ℕ) : Prop := x.1 ≤ y.1 ∧ (x.2 + 1) * 2 ^ (y.1 - x.1) ≤ y.2

/-- Codes of rising lengths lie above the next free code they start from, and each is used up below the later ones. -/
theorem assignCodes_codePrecedes {sizes codes : List ℕ} {code si : ℕ} (h : assignCodes code si sizes = .ok codes)
    (hs : (si :: sizes).Pairwise (· ≤ ·)) :
    (∀ x ∈ sizes.zip codes, code * 2 ^ (x.1 - si) ≤ x.2) ∧ (sizes.zip codes).Pairwise CodePrecedes := by
  induction sizes generalizing code si codes with
  | nil => simp
  | cons l rest ih =>
    obtain ⟨cs, hrest, rfl⟩ := assignCodes_cons_eq_ok h
    obtain ⟨hsi, hs⟩ := List.pairwise_cons.1 hs
    have hl : ∀ x ∈ rest, l ≤ x := fun x => List.rel_of_pairwise_cons hs
    obtain ⟨hle, hpair⟩ := ih hrest hs
    simp only [List.zip_cons_cons, List.forall_mem_cons, List.pairwise_cons]
    refine ⟨⟨le_rfl, fun x hx => ?_⟩, fun x hx => ⟨hl x.1 (List.of_mem_zip hx).1, hle x hx⟩, hpair⟩
    have hsl : si ≤ l := hsi l (List.mem_cons_self ..)
    have hlx := hl x.1 (List.of_mem_zip hx).1
    calc code * 2 ^ (x.1 - si) = code * 2 ^ (l - si) * 2 ^ (x.1 - l) := by
          rw [mul_assoc, ← pow_add, show l - si + (x.1 - l) = x.1 - si by omega]
      _ ≤ (code * 2 ^ (l - si) + 1) * 2 ^ (x.1 - l) := Nat.mul_le_mul_right _ (Nat.le_succ _)
      _ ≤ x.2 := hle x hx

/-! ### The first repeated value -/

/-- The bits of `seen` are the values that have occurred. -/
def Marks (seen : ℕ) (earlier : List Byte) : Prop := ∀ v : Byte, seen.testBit v.toNat = true ↔ v ∈ earlier

theorem Marks.zero : Marks 0 [] := fun v => by simp

theorem Marks.insert {seen : ℕ} {earlier : List Byte} (h : Marks seen earlier) (v : Byte) :
    Marks (seen ||| 1 <<< v.toNat) (earlier ++ [v]) := fun w => by
  rw [Nat.testBit_or, Bool.or_eq_true, h w, List.mem_append, List.mem_singleton, Nat.one_shiftLeft, Nat.testBit_two_pow,
    decide_eq_true_iff, ← BitVec.toNat_inj, eq_comm]

/-- Values without a repeat are passed over. -/
theorem firstRepeat_append {seen : ℕ} {earlier vs : List Byte} (h : Marks seen earlier) (hn : (earlier ++ vs).Nodup)
    (rest : List Byte) :
    ∃ seen', Marks seen' (earlier ++ vs) ∧ firstRepeat seen (vs ++ rest) = firstRepeat seen' rest := by
  induction vs generalizing seen earlier with
  | nil => exact ⟨seen, by rwa [List.append_nil], rfl⟩
  | cons v vs ih =>
    have hv : ¬ seen.testBit v.toNat = true := by
      rw [h v]
      exact fun hmem => (List.disjoint_of_nodup_append hn) hmem (List.mem_cons_self ..)
    rw [List.append_cons] at hn ⊢
    obtain ⟨seen', hseen, hrest⟩ := ih (h.insert v) hn
    exact ⟨seen', hseen, by rw [List.cons_append, firstRepeat, if_neg hv, hrest]⟩

theorem firstRepeat_eq_none {vs : List Byte} (hn : vs.Nodup) : firstRepeat 0 vs = none := by
  obtain ⟨seen, -, h⟩ := firstRepeat_append .zero hn []
  rwa [List.append_nil] at h

/-- The first value that is among the values before it. -/
theorem firstRepeat_eq_some {vs rest : List Byte} {v : Byte} (hn : vs.Nodup) (hv : v ∈ vs) :
    firstRepeat 0 (vs ++ v :: rest) = some v := by
  obtain ⟨seen, hseen, h⟩ := firstRepeat_append .zero hn (v :: rest)
  rw [h, firstRepeat, if_pos ((hseen v).2 hv)]

/-! ### Step 3: the entries -/

theorem assignments_getElem?_eq_some {vals : List Byte} {sizes codes : List ℕ} {i : ℕ} {a : Assigned} :
    (assignments vals sizes codes)[i]? = some a ↔
      vals[i]? = some a.val ∧ sizes[i]? = some a.size ∧ codes[i]? = some a.code := by
  simp only [assignments, List.getElem?_map, Option.map_eq_some_iff, List.getElem?_zip_eq_some]
  constructor
  · rintro ⟨x, h, rfl⟩
    exact h
  · exact fun h => ⟨(a.val, a.size, a.code), h, rfl⟩

/-- An entry that has a length comes from a code assigned to its symbol. -/
theorem exists_assigned_of_entryFor {codes : List Assigned} {s : Byte} (h : (entryFor codes s).si ≠ 0) :
    ∃ a ∈ codes, a.val = s ∧ entryFor codes s = ⟨Fin.ofNat 17 a.size, BitVec.ofNat 16 a.code⟩ := by
  cases hf : codes.find? (fun a => a.val == s) with
  | none => simp [entryFor, hf] at h
  | some a =>
    exact ⟨a, List.mem_of_find?_eq_some hf, by simpa using List.find?_some hf, by simp only [entryFor, hf]⟩

/-- The first code assigned to a symbol is its entry. -/
theorem entryFor_of_getElem? {codes : List Assigned} {i : ℕ} {a : Assigned} (h : codes[i]? = some a)
    (hfirst : ∀ j b, j < i → codes[j]? = some b → b.val ≠ a.val) :
    entryFor codes a.val = ⟨Fin.ofNat 17 a.size, BitVec.ofNat 16 a.code⟩ := by
  obtain ⟨hi, rfl⟩ := List.getElem?_eq_some_iff.1 h
  have hf : codes.find? (fun b => b.val == codes[i].val) = some codes[i] :=
    List.find?_eq_some_iff_getElem.2 ⟨beq_self_eq_true _, i, hi, rfl, fun j hj => by
      simpa using hfirst j _ hj (List.getElem?_eq_getElem (hj.trans hi))⟩
  simp only [entryFor, hf]

theorem entryFor_of_forall_ne {codes : List Assigned} {s : Byte} (h : ∀ a ∈ codes, a.val ≠ s) :
    entryFor codes s = ⟨0, 0⟩ := by
  have hf : codes.find? (fun a => a.val == s) = none := List.find?_eq_none.2 fun a ha => by simpa using h a ha
  simp only [entryFor, hf]

end Sys2Proof.Machine
end

section
/-! SUPPORT. A specification's own lists in the terms of the claims (43_huffman_builder.md R120, R122, R125), and what
`BUILD` makes of a specification, well formed or not. -/

namespace Sys2Proof.Machine

namespace HuffSpec

variable (h : HuffSpec)

/-! ### The counts -/

theorem used_succ (j : ℕ) : h.used (j + 1) = 2 * h.used j + h.count (j + 1) := by
  simp only [used, Finset.sum_range_succ, Nat.sub_self, pow_zero, mul_one, Finset.mul_sum, Nat.add_right_cancel_iff]
  refine Finset.sum_congr rfl fun i hi => ?_
  have hij := Finset.mem_range.1 hi
  rw [show j + 1 - (i + 1) = (j - (i + 1)) + 1 by omega, pow_succ]
  ring

/-- A bound on the codes used up, at length 0 too. -/
theorem used_le_two_pow {j : ℕ} (hused : ∀ l, 1 ≤ l → l ≤ j → h.used l ≤ 2 ^ l) : h.used j ≤ 2 ^ j := by
  obtain rfl | hpos := Nat.eq_zero_or_pos j
  · exact Nat.zero_le _
  · exact hused j hpos le_rfl

theorem length_counts : h.counts.length = 16 := by simp [counts]

theorem drop_counts {j : ℕ} (hj : j < 16) : h.counts.drop j = h.count (j + 1) :: h.counts.drop (j + 1) := by
  have hlt : j < h.counts.length := by rwa [length_counts]
  rw [List.drop_eq_getElem_cons hlt, count, Nat.add_sub_cancel, List.getD_eq_getElem _ _ hlt]

theorem drop_counts_all : h.counts.drop 16 = [] := List.drop_eq_nil_of_le h.length_counts.le

/-! ### The lists of the construction -/

/-- The values that count: the first `n` of `VAL`. -/
def symbols : List Byte := h.vals.toList.take h.counts.sum

/-- Their code lengths. -/
def sizes : List ℕ := sizeList 1 h.counts

/-- The lengths of the symbols of length at most `j`. -/
def sizesUpTo (j : ℕ) : List ℕ := (List.range j).flatMap fun i => List.replicate (h.count (i + 1)) (i + 1)

/-- The canonical codes of the symbols of length at most `j`: at each length `l` the codes from `2 * used (l - 1)` on. -/
def codesUpTo (j : ℕ) : List ℕ := (List.range j).flatMap fun i => List.range' (2 * h.used i) (h.count (i + 1))

theorem sizes_eq_append {j : ℕ} (hj : j ≤ 16) : h.sizes = h.sizesUpTo j ++ sizeList (j + 1) (h.counts.drop j) := by
  induction j with
  | zero => rfl
  | succ j ih =>
    rw [ih (by omega), drop_counts h (by omega), sizeList, ← List.append_assoc]
    simp [sizesUpTo, List.range_succ]

theorem sizes_eq : h.sizes = h.sizesUpTo 16 := by
  rw [sizes_eq_append h le_rfl, drop_counts_all, sizeList, List.append_nil]

theorem length_sizes : h.sizes.length = h.counts.sum := length_sizeList ..

/-- The symbols of length `j + 1` take the codes from `2 * used j` on, unless the codes of that length run out. -/
theorem assignCodes_drop {j : ℕ} (hj : j < 16) (hused : h.used j ≤ 2 ^ j) :
    assignCodes (2 * h.used j) (j + 1) (sizeList (j + 1) (h.counts.drop j)) =
      if h.used (j + 1) ≤ 2 ^ (j + 1) then
        (assignCodes (2 * h.used (j + 1)) (j + 2) (sizeList (j + 2) (h.counts.drop (j + 1)))).map
          (List.range' (2 * h.used j) (h.count (j + 1)) ++ ·)
      else .error (j + 1) := by
  have hstart : 2 * h.used j ≤ 2 ^ (j + 1) := by rw [pow_succ]; omega
  rw [h.drop_counts hj, sizeList, assignCodes_replicate _ _ hstart, ← h.used_succ,
    assignCodes_next fun x hx => le_of_mem_sizeList hx]

/-- Where no length up to `j` runs out of codes, the symbols up to length `j` take their canonical codes. -/
theorem assignCodes_sizes {j : ℕ} (hj : j ≤ 16) (hused : ∀ l, 1 ≤ l → l ≤ j → h.used l ≤ 2 ^ l) (si : ℕ) :
    assignCodes 0 si h.sizes =
      (assignCodes (2 * h.used j) (j + 1) (sizeList (j + 1) (h.counts.drop j))).map (h.codesUpTo j ++ ·) := by
  induction j with
  | zero =>
    rw [assignCodes_zero si 1]
    change assignCodes 0 1 h.sizes = (assignCodes 0 1 h.sizes).map ([] ++ ·)
    cases assignCodes 0 1 h.sizes <;> rfl
  | succ j ih =>
    have hprev (l : ℕ) (h1 : 1 ≤ l) (hl : l ≤ j) : h.used l ≤ 2 ^ l := hused l h1 (hl.trans (Nat.le_succ j))
    rw [ih (by omega) hprev, h.assignCodes_drop hj (h.used_le_two_pow hprev), if_pos (hused (j + 1) (by omega) le_rfl)]
    cases assignCodes (2 * h.used (j + 1)) (j + 2) (sizeList (j + 2) (h.counts.drop (j + 1))) <;>
      simp [Except.map, codesUpTo, List.range_succ]

theorem assignCodes_of_kraft (hk : h.Kraft) (si : ℕ) : assignCodes 0 si h.sizes = .ok (h.codesUpTo 16) := by
  rw [h.assignCodes_sizes le_rfl hk, drop_counts_all]
  simp [sizeList, assignCodes, Except.map]

/-- The first length whose codes run out is the one answered. -/
theorem assignCodes_of_used_gt {l : ℕ} (h1 : 1 ≤ l) (h16 : l ≤ 16) (hgt : 2 ^ l < h.used l)
    (hlow : ∀ l', 1 ≤ l' → l' < l → h.used l' ≤ 2 ^ l') (si : ℕ) : assignCodes 0 si h.sizes = .error l := by
  obtain ⟨j, rfl⟩ := Nat.exists_eq_add_of_le' h1
  have hprev (l : ℕ) (h1 : 1 ≤ l) (hl : l ≤ j) : h.used l ≤ 2 ^ l := hlow l h1 (Nat.lt_succ_of_le hl)
  rw [h.assignCodes_sizes (by omega) hprev, h.assignCodes_drop h16 (h.used_le_two_pow hprev), if_neg (by omega)]
  rfl

/-! ### The symbols -/

variable {h}

theorem Fits.length_symbols (hf : h.Fits) : h.symbols.length = h.counts.sum := by
  unfold Fits at hf
  simpa [symbols] using hf

theorem Fits.getElem?_symbols (hf : h.Fits) {k : ℕ} (hk : k < h.counts.sum) : h.symbols[k]? = some (h.value k) := by
  have hlt : k < h.vals.toList.length := by
    unfold Fits at hf
    rw [Vector.length_toList]
    omega
  rw [symbols, List.getElem?_take_of_lt hk, value, List.getD_eq_getElem _ _ hlt, List.getElem?_eq_getElem hlt]

theorem Fits.mem_symbols (hf : h.Fits) {v : Byte} : v ∈ h.symbols ↔ ∃ k, k < h.counts.sum ∧ h.value k = v := by
  rw [List.mem_iff_getElem?]
  constructor
  · rintro ⟨k, hk⟩
    have hlt : k < h.counts.sum := hf.length_symbols ▸ (List.getElem?_eq_some_iff.1 hk).1
    exact ⟨k, hlt, Option.some.inj ((hf.getElem?_symbols hlt).symm.trans hk)⟩
  · rintro ⟨k, hlt, rfl⟩
    exact ⟨k, hf.getElem?_symbols hlt⟩

/-- Values without a repeat below `n`, position by position. -/
theorem Fits.nodup_take_symbols (hf : h.Fits) {n : ℕ} (hn : n ≤ h.counts.sum) :
    (h.symbols.take n).Nodup ↔ ∀ j k, j < k → k < n → h.value j ≠ h.value k := by
  have hlen : (h.symbols.take n).length = n := by rw [List.length_take, hf.length_symbols, Nat.min_eq_left hn]
  have hget {k : ℕ} (hk : k < n) : (h.symbols.take n)[k]? = some (h.value k) := by
    rw [List.getElem?_take_of_lt hk, hf.getElem?_symbols (hk.trans_le hn)]
  rw [List.nodup_iff_getElem?_ne_getElem?, hlen]
  refine forall₄_congr fun j k hjk hk => ?_
  rw [hget hk, hget (hjk.trans hk), Ne, Option.some_inj]

theorem Fits.nodup_symbols (hf : h.Fits) : h.symbols.Nodup ↔ h.Distinct := by
  rw [← List.take_of_length_le hf.length_symbols.le, hf.nodup_take_symbols le_rfl, Distinct]

/-- The first value that occurs before is the one answered. -/
theorem Fits.firstRepeat_symbols (hf : h.Fits) {k : ℕ} (hk : k < h.counts.sum)
    (hrep : ∃ j, j < k ∧ h.value j = h.value k) (hlow : ∀ j' k', j' < k' → k' < k → h.value j' ≠ h.value k') :
    firstRepeat 0 h.symbols = some (h.value k) := by
  obtain ⟨j, hjk, hj⟩ := hrep
  have hlt : k < h.symbols.length := hf.length_symbols ▸ hk
  have hv : h.symbols[k] = h.value k := Option.some.inj ((List.getElem?_eq_getElem hlt).symm.trans (hf.getElem?_symbols hk))
  rw [← List.take_append_drop k h.symbols, List.drop_eq_getElem_cons hlt, hv]
  refine firstRepeat_eq_some ((hf.nodup_take_symbols hk.le).2 hlow) (List.mem_of_getElem? (i := j) ?_)
  rw [List.getElem?_take_of_lt hjk, hf.getElem?_symbols (hjk.trans hk), hj]

end HuffSpec

/-! ### The construction -/

section
variable {h : HuffSpec} {codes : List ℕ} (t : Fin 4)

/-- The codes of a length run out. -/
theorem build_of_codes_error {l : ℕ} (hl : assignCodes 0 1 h.sizes = .error l) :
    build t h = .error ⟨.huffspec, infoBytes (byteOf t.val) 1 (byteOf l)⟩ := by
  rw [assignCodes_zero _ (h.sizes.headD 0), HuffSpec.sizes] at hl
  simp only [build, hl]

/-- A value occurs again. -/
theorem build_of_repeat {v : Byte} (hcodes : assignCodes 0 1 h.sizes = .ok codes)
    (hv : firstRepeat 0 h.symbols = some v) : build t h = .error ⟨.huffspec, infoBytes (byteOf t.val) 2 v⟩ := by
  rw [assignCodes_zero _ (h.sizes.headD 0), HuffSpec.sizes] at hcodes
  rw [HuffSpec.symbols, ← h.length_sizes, HuffSpec.sizes] at hv
  simp only [build, hcodes, hv]

/-- The table of a specification that passes both checks. -/
def tableOfCodes (h : HuffSpec) (codes : List ℕ) : Vector HuffCode 256 :=
  tabulate fun s => entryFor (assignments h.symbols h.sizes codes) (BitVec.ofNat 8 s.val)

theorem build_of_codes (hcodes : assignCodes 0 1 h.sizes = .ok codes) (hv : firstRepeat 0 h.symbols = none) :
    build t h = .ok (tableOfCodes h codes) := by
  rw [assignCodes_zero _ (h.sizes.headD 0), HuffSpec.sizes] at hcodes
  rw [tableOfCodes, HuffSpec.symbols, ← h.length_sizes, HuffSpec.sizes] at *
  simp only [build, hcodes, hv]

theorem exists_codes_of_build {t : Fin 4} {e : Vector HuffCode 256} (he : build t h = .ok e) :
    ∃ codes, assignCodes 0 1 h.sizes = .ok codes ∧ e = tableOfCodes h codes := by
  cases hcodes : assignCodes 0 1 h.sizes with
  | error l => cases (build_of_codes_error t hcodes).symm.trans he
  | ok codes =>
    cases hv : firstRepeat 0 h.symbols with
    | some v => cases (build_of_repeat t hcodes hv).symm.trans he
    | none => exact ⟨codes, rfl, Except.ok.inj (he.symm.trans (build_of_codes t hcodes hv))⟩

/-- A well-formed specification has a table. -/
theorem build_of_sound (hf : h.Fits) (hk : h.Kraft) (hd : h.Distinct) :
    build t h = .ok (tableOfCodes h (h.codesUpTo 16)) :=
  build_of_codes t (h.assignCodes_of_kraft hk 1) (firstRepeat_eq_none (hf.nodup_symbols.2 hd))

end

/-! ### All four tables -/

theorem overflow_eq_none {t : Fin 4} {h : HuffSpec} : overflow t h = none ↔ h.Fits := by
  rw [overflow, ite_eq_right_iff, HuffSpec.Fits, ← Nat.not_lt]
  exact forall_congr' fun _ => iff_of_false nofun id

theorem firstOverflow_eq_none {hs : Vector HuffSpec 4} : firstOverflow hs = none ↔ ∀ t : Fin 4, hs[t].Fits := by
  simp only [firstOverflow, List.findSome?_eq_none_iff, List.mem_finRange, forall_const, overflow_eq_none]

theorem buildAll_of_ok {hs : Vector HuffSpec 4} {e : Fin 4 → Vector HuffCode 256} (hf : ∀ t : Fin 4, hs[t].Fits)
    (he : ∀ t : Fin 4, build t hs[t] = .ok (e t)) : buildAll hs = .ok (.ofFn fun t => written (e t)) := by
  have h0 : build 0 hs[0] = .ok (e 0) := he 0
  have h1 : build 1 hs[1] = .ok (e 1) := he 1
  have h2 : build 2 hs[2] = .ok (e 2) := he 2
  have h3 : build 3 hs[3] = .ok (e 3) := he 3
  simp only [buildAll, firstOverflow_eq_none.2 hf, h0, h1, h2, h3, Except.bind, Except.map]
  rfl

/-- The lowest table that has a fault decides. -/
theorem buildAll_of_error {hs : Vector HuffSpec 4} {t : Fin 4} {r : Raise} (hf : ∀ t : Fin 4, hs[t].Fits)
    (hlow : ∀ t' : Fin 4, t'.val < t.val → ∃ e, build t' hs[t'] = .ok e) (hr : build t hs[t] = .error r) :
    buildAll hs = .error r := by
  match t with
  | 0 =>
    have hr : build 0 hs[0] = .error r := hr
    simp only [buildAll, firstOverflow_eq_none.2 hf, hr, Except.bind]
  | 1 =>
    obtain ⟨e0, h0 : build 0 hs[0] = .ok e0⟩ := hlow 0 (by decide)
    have hr : build 1 hs[1] = .error r := hr
    simp only [buildAll, firstOverflow_eq_none.2 hf, h0, hr, Except.bind]
  | 2 =>
    obtain ⟨e0, h0 : build 0 hs[0] = .ok e0⟩ := hlow 0 (by decide)
    obtain ⟨e1, h1 : build 1 hs[1] = .ok e1⟩ := hlow 1 (by decide)
    have hr : build 2 hs[2] = .error r := hr
    simp only [buildAll, firstOverflow_eq_none.2 hf, h0, h1, hr, Except.bind]
  | 3 =>
    obtain ⟨e0, h0 : build 0 hs[0] = .ok e0⟩ := hlow 0 (by decide)
    obtain ⟨e1, h1 : build 1 hs[1] = .ok e1⟩ := hlow 1 (by decide)
    obtain ⟨e2, h2 : build 2 hs[2] = .ok e2⟩ := hlow 2 (by decide)
    have hr : build 3 hs[3] = .error r := hr
    simp only [buildAll, firstOverflow_eq_none.2 hf, h0, h1, h2, hr, Except.bind, Except.map]

theorem fits_of_buildAll {hs : Vector HuffSpec 4} {tabs : HuffTables} (h : buildAll hs = .ok tabs) (t : Fin 4) :
    hs[t].Fits := by
  refine firstOverflow_eq_none.1 ?_ t
  cases hf : firstOverflow hs with
  | none => rfl
  | some r => simp [buildAll, hf] at h

/-- If no fault is raised, each table is built: a lowest one with a fault would have decided. -/
theorem exists_build_of_buildAll {hs : Vector HuffSpec 4} {tabs : HuffTables} (h : buildAll hs = .ok tabs) (t : Fin 4) :
    ∃ e, build t hs[t] = .ok e ∧ tabs[t] = written e := by
  have hf := fits_of_buildAll h
  have hbuilt (n : ℕ) (hn : n < 4) : ∃ e, build ⟨n, hn⟩ hs[n] = .ok e := by
    induction n using Nat.strong_induction_on with
    | _ n ih =>
      cases hb : build ⟨n, hn⟩ hs[n] with
      | ok e => exact ⟨e, rfl⟩
      | error r => cases (buildAll_of_error hf (fun t' ht => ih t'.val ht t'.isLt) hb).symm.trans h
  choose e he using fun t : Fin 4 => hbuilt t.val t.isLt
  cases (buildAll_of_ok hf he).symm.trans h
  exact ⟨e t, he t, by simp⟩

end Sys2Proof.Machine
end

section
/-! SUPPORT. What `HBUILD` answers for every contents of `HSPEC` (43_huffman_builder.md R120 to R125). -/

namespace Sys2Proof.Machine

theorem exec_hbuild {s : State} (hp : s.phase = .idle) (hv : s.hvalid = false) :
    exec .hbuild s = finish (hbuildStage s) :=
  exec_accepted (i := .hbuild) rfl ⟨hp, hv⟩

theorem exec_hbuild_of_ok {s : State} {tabs : HuffTables} (hp : s.phase = .idle) (hv : s.hvalid = false)
    (h : buildAll s.hspec = .ok tabs) :
    exec .hbuild s = .next (answered { s with ehuf := tabs, hvalid := true }) := by
  rw [exec_hbuild hp hv, hbuildStage, h]
  rfl

theorem exec_hbuild_of_error {s : State} {r : Raise} (hp : s.phase = .idle) (hv : s.hvalid = false)
    (h : buildAll s.hspec = .error r) : exec .hbuild s = .next (faultEntry s r.code r.info) := by
  rw [exec_hbuild hp hv, hbuildStage, h]
  rfl

/-- `HBUILD` sets `HVALID` only with all four tables built. -/
theorem buildAll_of_exec_hbuild {s u : State} (hp : s.phase = .idle) (hv : s.hvalid = false)
    (h : exec .hbuild s = .next u) (hu : u.hvalid = true) : buildAll s.hspec = .ok u.ehuf := by
  cases hb : buildAll s.hspec with
  | error r =>
    cases (exec_hbuild_of_error hp hv hb).symm.trans h
    cases hv.symm.trans hu
  | ok tabs =>
    cases (exec_hbuild_of_ok hp hv hb).symm.trans h
    rfl

/-! ### The canonical codes -/

section
variable {h : HuffSpec}

theorem getElem?_written (e : Vector HuffCode 256) (v : Byte) : (written e)[v.toNat] = some e[v.toNat] := by
  simp [written]

theorem tableOfCodes_getElem (codes : List ℕ) (v : Byte) :
    (tableOfCodes h codes)[v.toNat] = entryFor (assignments h.symbols h.sizes codes) v := by
  rw [tableOfCodes, tabulate_getElem, BitVec.ofNat_toNat, BitVec.setWidth_eq]

/-- Symbol number `m` of length `l`: its length and its canonical code. -/
theorem getElem?_sizes_codes {l m : ℕ} (h1 : 1 ≤ l) (h16 : l ≤ 16) (hm : m < h.count l) :
    h.sizes[h.before l + m]? = some l ∧ (h.codesUpTo 16)[h.before l + m]? = some (2 * h.used (l - 1) + m) := by
  obtain ⟨j, rfl⟩ := Nat.exists_eq_add_of_le' h1
  have hs := getElem?_flatMap_range (fun i => List.replicate (h.count (i + 1)) (i + 1)) (j := j) (k := 16) (m := m) h16
    (by simpa using hm)
  have hc := getElem?_flatMap_range (fun i => List.range' (2 * h.used i) (h.count (i + 1))) (j := j) (k := 16) (m := m) h16
    (by simpa using hm)
  simp only [List.length_replicate, List.length_range'] at hs hc
  rw [List.getElem?_replicate_of_lt hm] at hs
  rw [List.getElem?_range' hm, one_mul] at hc
  exact ⟨h.sizes_eq ▸ hs, hc⟩

/-- No code of a built table is cut short. -/
theorem codeFields_of_lt {size code : ℕ} (hs : size ≤ 16) (hc : code < 2 ^ size) :
    (Fin.ofNat 17 size).val = size ∧ (BitVec.ofNat 16 code).toNat = code :=
  ⟨Nat.mod_eq_of_lt (by omega), Nat.mod_eq_of_lt (hc.trans_le (Nat.pow_le_pow_right two_pos hs))⟩

/-- The listed symbols have their canonical codes. -/
theorem tableOfCodes_listed (hf : h.Fits) (hk : h.Kraft) (hd : h.Distinct) {l m : ℕ} (h1 : 1 ≤ l) (h16 : l ≤ 16)
    (hm : m < h.count l) {e : HuffCode} (he : (tableOfCodes h (h.codesUpTo 16))[(h.value (h.before l + m)).toNat] = e) :
    e.si.val = l ∧ e.co.toNat = 2 * h.used (l - 1) + m := by
  obtain ⟨hsize, hcode⟩ := getElem?_sizes_codes h1 h16 hm
  have hlt : h.before l + m < h.counts.sum := h.length_sizes ▸ (List.getElem?_eq_some_iff.1 hsize).1
  have hentry := entryFor_of_getElem? (i := h.before l + m)
    (a := ⟨h.value (h.before l + m), l, 2 * h.used (l - 1) + m⟩)
    (assignments_getElem?_eq_some.2 ⟨hf.getElem?_symbols hlt, hsize, hcode⟩) fun j b hj hb hval => by
      have hval' := (hf.getElem?_symbols (hj.trans hlt)).symm.trans (assignments_getElem?_eq_some.1 hb).1
      exact hd j _ hj hlt ((Option.some.inj hval').trans hval)
  have hused : 2 * h.used (l - 1) + h.count l = h.used l := by
    rw [← Nat.sub_add_cancel h1, h.used_succ, Nat.add_sub_cancel]
  have hfits : 2 * h.used (l - 1) + m < 2 ^ l := lt_of_lt_of_le (by omega) (hk l h1 h16)
  rw [tableOfCodes_getElem, hentry] at he
  subst he
  exact codeFields_of_lt h16 hfits

/-- The other symbols have none. -/
theorem tableOfCodes_unlisted (hf : h.Fits) (codes : List ℕ) {v : Byte}
    (hv : ∀ k, k < h.counts.sum → h.value k ≠ v) : (tableOfCodes h codes)[v.toNat] = ⟨0, 0⟩ := by
  rw [tableOfCodes_getElem]
  refine entryFor_of_forall_ne fun a ha hav => ?_
  obtain ⟨i, hi⟩ := List.mem_iff_getElem?.1 ha
  obtain ⟨k, hk, hkv⟩ := hf.mem_symbols.1 (List.mem_of_getElem? (assignments_getElem?_eq_some.1 hi).1)
  exact hv k hk (hkv.trans hav)

/-! ### No code begins another -/

/-- Of two codes neither begins the other, whichever is the longer. -/
theorem CodePrecedes.div_ne {x y : ℕ × ℕ} (hxy : CodePrecedes x y) :
    (x.1 ≤ y.1 → y.2 / 2 ^ (y.1 - x.1) ≠ x.2) ∧ (y.1 ≤ x.1 → x.2 / 2 ^ (x.1 - y.1) ≠ y.2) := by
  obtain ⟨hle, hcode⟩ := hxy
  refine ⟨fun _ => ?_, fun hge => ?_⟩
  · have := (Nat.le_div_iff_mul_le (Nat.two_pow_pos _)).2 hcode
    omega
  · rw [le_antisymm hge hle, Nat.sub_self, pow_zero] at hcode ⊢
    omega

/-- A symbol that has a code has one of the codes assigned, uncut, at a place where the symbol stands. -/
theorem exists_code_of_si_ne_zero {codes : List ℕ} (hcodes : assignCodes 0 1 h.sizes = .ok codes) {v : Byte}
    {e : HuffCode} (he : (tableOfCodes h codes)[v.toNat] = e) (hsi : e.si ≠ 0) :
    ∃ i : ℕ, h.symbols[i]? = some v ∧ (h.sizes.zip codes)[i]? = some (e.si.val, e.co.toNat) := by
  rw [tableOfCodes_getElem] at he
  subst he
  obtain ⟨a, ha, rfl, he⟩ := exists_assigned_of_entryFor hsi
  obtain ⟨i, hi⟩ := List.mem_iff_getElem?.1 ha
  obtain ⟨hval, hsize, hcode⟩ := assignments_getElem?_eq_some.1 hi
  obtain ⟨hs, hc⟩ := assignments_fit h.symbols hcodes a ha
  obtain ⟨hs, hc⟩ := codeFields_of_lt (Nat.le_of_lt_succ hs) hc
  exact ⟨i, hval, List.getElem?_zip_eq_some.2 (by rw [he, hs, hc]; exact ⟨hsize, hcode⟩)⟩

theorem tableOfCodes_div_ne {codes : List ℕ} (hcodes : assignCodes 0 1 h.sizes = .ok codes) {v v' : Byte}
    (hne : v ≠ v') {e e' : HuffCode} (he : (tableOfCodes h codes)[v.toNat] = e)
    (he' : (tableOfCodes h codes)[v'.toNat] = e') (hsi : 1 ≤ e.si.val) (hle : e.si.val ≤ e'.si.val) :
    e'.co.toNat / 2 ^ (e'.si.val - e.si.val) ≠ e.co.toNat := by
  obtain ⟨i, hv, hi⟩ := exists_code_of_si_ne_zero hcodes he (Fin.ne_of_gt hsi)
  obtain ⟨i', hv', hi'⟩ := exists_code_of_si_ne_zero hcodes he' (Fin.ne_of_gt (hsi.trans hle))
  have hpair := (assignCodes_codePrecedes hcodes
    (List.pairwise_cons.2 ⟨fun _ => le_of_mem_sizeList, sizeList_pairwise_le 1 _⟩)).2
  obtain ⟨hlt, hx⟩ := List.getElem?_eq_some_iff.1 hi
  obtain ⟨hlt', hx'⟩ := List.getElem?_eq_some_iff.1 hi'
  obtain hii | rfl | hii := Nat.lt_trichotomy i i'
  · exact (hx ▸ hx' ▸ List.pairwise_iff_getElem.1 hpair i i' hlt hlt' hii).div_ne.1 hle
  · cases hne (Option.some.inj (hv.symm.trans hv'))
  · exact (hx ▸ hx' ▸ List.pairwise_iff_getElem.1 hpair i' i hlt' hlt hii).div_ne.2 hle

end

/-! ### The obligations -/

/-- Settles O20: every table is that of its canonical codes. -/
theorem hbuildBuildsCanonicalCodes : Obligations.HbuildBuildsCanonicalCodes := by
  intro s hp hv hs
  have hb := buildAll_of_ok (fun t => (hs t).1) fun t => build_of_sound t (hs t).1 (hs t).2.1 (hs t).2.2
  refine ⟨_, exec_hbuild_of_ok hp hv hb, fun t => ?_⟩
  obtain ⟨hf, hk, hd⟩ := hs t
  simp only [Fin.getElem_fin, Vector.getElem_ofFn, getElem?_written]
  refine ⟨fun l m h1 h16 hm => ⟨_, rfl, tableOfCodes_listed hf hk hd h1 h16 hm rfl⟩, fun v hvs => ?_⟩
  exact congrArg some (tableOfCodes_unlisted hf _ hvs)

/-- Settles O24: each table comes from codes that were assigned in rising order. -/
theorem huffmanCodesPrefixFree : Obligations.HuffmanCodesPrefixFree := by
  intro s u hp hv hexec hu t k k' e e' he he'
  have hb := buildAll_of_exec_hbuild hp hv hexec hu
  have hbounded := buildAll_ensures_bounded s.hspec
  rw [hb] at hbounded
  obtain ⟨e₁, he₁, hlt⟩ := hbounded t k
  cases he₁.symm.trans he
  refine ⟨hlt, fun hne hsi hle => ?_⟩
  obtain ⟨tab, hbuild, htab⟩ := exists_build_of_buildAll hb t
  obtain ⟨codes, hcodes, rfl⟩ := exists_codes_of_build hbuild
  have hentry {k : Fin 256} {e : HuffCode} (he : u.ehuf[t][k] = some e) :
      (tableOfCodes s.hspec[t] codes)[(byteOf k.val).toNat] = e := by
    have hk : (byteOf k.val).toNat = k.val := Nat.mod_eq_of_lt k.isLt
    simpa [htab, written, hk] using he
  refine tableOfCodes_div_ne hcodes (fun h => hne ?_) (hentry he) (hentry he') hsi hle
  rw [← index256_byteOf k, h, index256_byteOf]

theorem toNat_append_byte {n : ℕ} (a : BitVec n) (b : Byte) : (a ++ b).toNat = a.toNat * 256 + b.toNat := by
  rw [BitVec.toNat_append, ← Nat.shiftLeft_add_eq_or_of_lt b.isLt, Nat.shiftLeft_eq]

theorem toNat_infoBytes (a b c : Byte) : (infoBytes a b c).toNat = a.toNat * 65536 + b.toNat * 256 + c.toNat := by
  have h : ((0 : Byte) ++ a ++ b ++ c).toNat = ((0 * 256 + a.toNat) * 256 + b.toNat) * 256 + c.toNat := by
    simp only [toNat_append_byte, BitVec.ofNat_eq_ofNat, BitVec.toNat_ofNat, Nat.zero_mod]
  refine Eq.trans h ?_
  omega

/-- The information word of R213. -/
theorem infoBytes_huffspec (t : Fin 4) (kind x : Byte) :
    infoBytes (byteOf t.val) kind x = BitVec.ofNat 32 (t.val * 65536 + kind.toNat * 256 + x.toNat) := by
  have ht : (byteOf t.val).toNat = t.val := Nat.mod_eq_of_lt (by omega)
  rw [← ht, ← toNat_infoBytes, BitVec.ofNat_toNat, BitVec.setWidth_eq, ht]

/-- Settles O23: the tables below `t` have no fault, and `t` has this one first. -/
theorem hbuildUnsoundSpecFaults : Obligations.HbuildUnsoundSpecFaults := by
  intro s t hp hv hf hlow
  have hbuild (t' : Fin 4) (ht : t'.val < t.val) : ∃ e, build t' s.hspec[t'] = .ok e :=
    ⟨_, build_of_sound t' (hf t') (hlow t' ht).1 (hlow t' ht).2⟩
  refine ⟨fun l h1 h16 hgt hfirst => ?_, fun k hk hlt hrep hfirst => ?_⟩
  · have hr := build_of_codes_error t (s.hspec[t].assignCodes_of_used_gt h1 h16 hgt hfirst 1)
    have hl : (byteOf l).toNat = l := Nat.mod_eq_of_lt (by omega)
    rw [exec_hbuild_of_error hp hv (buildAll_of_error hf hbuild hr), infoBytes_huffspec, hl]
    rfl
  · have hr := build_of_repeat t (s.hspec[t].assignCodes_of_kraft hk 1) ((hf t).firstRepeat_symbols hlt hrep hfirst)
    rw [exec_hbuild_of_error hp hv (buildAll_of_error hf hbuild hr), infoBytes_huffspec]
    rfl

/-! ### The standard specifications -/

theorem standardHspec_total (t : Fin 4) : standardHspec[t].counts.sum = if t.val % 2 = 0 then 12 else 162 := by
  revert t
  decide +kernel

theorem standardHspec_sound (t : Fin 4) :
    standardHspec[t].Fits ∧ standardHspec[t].Kraft ∧ standardHspec[t].Distinct := by
  have hfits : standardHspec[t].Fits := by
    unfold HuffSpec.Fits
    rw [standardHspec_total]
    split <;> omega
  have hused : ∀ (t : Fin 4) (l : Fin 17), standardHspec[t].used l.val ≤ 2 ^ l.val := by decide +kernel
  have hnodup : ∀ t : Fin 4, standardHspec[t].symbols.Nodup := by decide +kernel
  exact ⟨hfits, fun l _ h16 => hused t ⟨l, Nat.lt_succ_of_le h16⟩, hfits.nodup_symbols.1 (hnodup t)⟩

/-- The symbols of the DC and of the AC code. -/
theorem mem_standardHspec_symbols : ∀ (t : Fin 4) (v : Byte), v ∈ standardHspec[t].symbols ↔
    if t.val % 2 = 0 then v.toNat ≤ 11 else v = 0x00 ∨ v = 0xF0 ∨ (1 ≤ v.toNat % 16 ∧ v.toNat % 16 ≤ 10) := by
  decide +kernel

theorem huffCode_eq {e e' : HuffCode} (hsi : e.si.val = e'.si.val) (hco : e.co.toNat = e'.co.toNat) : e = e' := by
  cases e
  cases e'
  cases Fin.ext hsi
  cases BitVec.eq_of_toNat_eq hco
  rfl

/-- `v` is symbol number `m` of its length, and `e` is the canonical code at that place. -/
def HuffSpec.Lists (h : HuffSpec) (m : ℕ) (v : Byte) (e : HuffCode) : Prop :=
  (1 ≤ e.si.val ∧ m < h.count e.si.val) ∧ h.value (h.before e.si.val + m) = v ∧
    e.co.toNat = 2 * h.used (e.si.val - 1) + m

theorem standardHspec_lists : standardHspec[(0 : Fin 4)].Lists 0 0x00 ⟨2, 0⟩ ∧
    standardHspec[(1 : Fin 4)].Lists 0 0x00 ⟨4, 10⟩ ∧ standardHspec[(1 : Fin 4)].Lists 3 0xF0 ⟨11, 2041⟩ ∧
    standardHspec[(3 : Fin 4)].Lists 0 0x00 ⟨2, 0⟩ := by
  unfold HuffSpec.Lists
  decide +kernel

/-- Settles O21: the spot checks are canonical codes at the places where the standard lists name their symbols. -/
theorem standardTables : Obligations.StandardTables := by
  refine ⟨fun t => ?_, mem_standardHspec_symbols, ?_⟩
  · obtain ⟨hf, hk, hd⟩ := standardHspec_sound t
    exact ⟨hf, hk, hd, standardHspec_total t⟩
  obtain ⟨ehuf, hexec, hcodes⟩ := hbuildBuildsCanonicalCodes State.reset rfl rfl standardHspec_sound
  have code {t : Fin 4} {m : ℕ} {v : Byte} {e : HuffCode} (h : standardHspec[t].Lists m v e) :
      ehuf[t][v.toNat] = some e := by
    obtain ⟨⟨h1, hm⟩, rfl, hco⟩ := h
    obtain ⟨e', he', hsi', hco'⟩ := (hcodes t).1 e.si.val m h1 (Nat.le_of_lt_succ e.si.isLt) hm
    cases huffCode_eq hsi' (hco'.trans hco.symm)
    exact he'
  obtain ⟨hdc, heob, hzrl, hchroma⟩ := standardHspec_lists
  refine ⟨_, hexec, rfl, code hdc, code heob, code hzrl, code hchroma, (hcodes 1).2 0x0B fun k hk hv => ?_⟩
  have hmem := (standardHspec_sound 1).1.mem_symbols.2 ⟨k, hk, hv⟩
  exact absurd ((mem_standardHspec_symbols 1 0x0B).1 hmem) (by decide)

end Sys2Proof.Machine
end

section
/-! SUPPORT. Magnitude and category (44_entropy_coder.md R131, R132): the model's pair is the claims' own notions. -/

namespace Sys2Proof.Machine

theorem bitlen_eq_size (a : ℕ) : bitlen a = a.size := by
  unfold bitlen
  split
  case isTrue h => rw [h, Nat.size_zero]
  case isFalse h => exact le_antisymm (Nat.lt_size.2 (Nat.log2_self_le h)) (Nat.size_le.2 Nat.lt_log2_self)

theorem category_le_iff {v : ℤ} {n : ℕ} : category v ≤ n ↔ v.natAbs < 2 ^ n := Nat.size_le

theorem category_pos_iff {v : ℤ} : 0 < category v ↔ v ≠ 0 := Nat.size_pos.trans Int.natAbs_pos

/-- The raw bits of a negative value stand `2^cat - 1` above it. -/
theorem rawBits_cast (v : ℤ) : (rawBits v : ℤ) = if v < 0 then v + (2 ^ category v : ℕ) - 1 else v := by
  have hlt := category_le_iff.1 (le_refl (category v))
  have hpow : (2 : ℤ) ^ category v = (2 ^ category v : ℕ) := by push_cast; rfl
  unfold rawBits
  rw [hpow]
  split <;> omega

theorem rawBits_lt (v : ℤ) : rawBits v < 2 ^ category v := by
  have hlt := category_le_iff.1 (le_refl (category v))
  have hraw := rawBits_cast v
  split at hraw <;> omega

theorem magcat_eq (v : ℤ) : magcat v = (rawBits v, category v) := by
  have hlt : (rawBits v : ℤ) < (2 ^ category v : ℕ) := Int.ofNat_lt.2 (rawBits_lt v)
  have hmod : (if v < 0 then v - 1 else v) % (2 ^ category v : ℕ) = (rawBits v : ℤ) := by
    rw [← Int.emod_eq_of_lt (Int.natCast_nonneg _) hlt, rawBits_cast]
    split
    case isTrue => rw [add_sub_right_comm, Int.add_emod_right]
    case isFalse => rfl
  unfold magcat
  rw [bitlen_eq_size]
  exact Prod.ext ((congrArg Int.toNat hmod).trans (Int.toNat_natCast _)) rfl

/-- Settles O45: the widths are bounds on the magnitude. -/
theorem magnitudeAndCategory : Obligations.MagnitudeAndCategory := by
  unfold Obligations.MagnitudeAndCategory
  simp only [magcat_eq]
  refine ⟨fun v hv => ?_, rfl, fun v hlo hhi => ?_, fun v hlo hhi => ?_⟩
  · have hpos := category_pos_iff.2 hv
    refine ⟨category v, rfl, hpos, Nat.lt_size.1 (Nat.sub_one_lt hpos.ne'), Nat.lt_size_self _, fun h => ?_,
      fun h => ?_⟩
    · rw [rawBits_cast, if_neg h.not_gt]
    · rw [rawBits_cast, if_pos h, Nat.cast_pow, Nat.cast_two]
  · have hcat : category v ≤ 16 := category_le_iff.2 (by omega)
    exact ⟨hcat, (rawBits_lt v).trans_le (Nat.pow_le_pow_right (by decide) hcat)⟩
  · have h15 : category v ≤ 15 ↔ v.natAbs < 2 ^ 15 := category_le_iff
    have h16 : category v ≤ 16 ↔ v.natAbs < 2 ^ 16 := category_le_iff
    omega

end Sys2Proof.Machine
end

section
/-! SUPPORT. The packer as a stream of bits (45_bit_packer.md R151 to R153): `PUTBITS` appends its group to the stream
and keeps the packer's invariants. -/

namespace Sys2Proof.Machine

/-! ### The register -/

/-- The top `n` bits of a register, most significant first. -/
def topBits (n : ℕ) (acc : Word) : List Bool := (List.range n).map fun k => acc.getMsbD k

/-- No bit is set below the top `n` (45_bit_packer.md R153 item 2). -/
def ClearBelow (n : ℕ) (acc : Word) : Prop := ∀ k, n ≤ k → acc.getMsbD k = false

theorem topBits_eq_bitsOf {n : ℕ} (hn : n ≤ 32) (acc : Word) : topBits n acc = bitsOf n (acc.toNat >>> (32 - n)) := by
  refine List.map_congr_left fun k hk => ?_
  have hk := List.mem_range.1 hk
  rw [Nat.testBit_shiftRight, BitVec.testBit_toNat, BitVec.getMsbD_eq_getLsbD, decide_eq_true (by omega), Bool.true_and,
    show 32 - n + (n - 1 - k) = 32 - 1 - k by omega]

theorem topBits_byte (acc : Word) : topBits 8 acc = bitsOf 8 (acc.extractLsb' 24 8).toNat := by
  rw [topBits_eq_bitsOf (by decide)]
  refine List.map_congr_left fun k hk => ?_
  rw [BitVec.testBit_toNat, BitVec.getLsbD_extractLsb', decide_eq_true (by omega), Bool.true_and,
    Nat.testBit_shiftRight, BitVec.testBit_toNat]

theorem topBits_add (m n : ℕ) (acc : Word) : topBits (m + n) acc = topBits m acc ++ topBits n (acc <<< m) := by
  simp only [topBits, List.range_add, List.map_append, List.map_map, BitVec.getMsbD_shiftLeft, Function.comp_def,
    Nat.add_comm]

theorem clearBelow_iff (n : ℕ) (acc : Word) : ClearBelow n acc ↔ acc.toNat % 2 ^ (32 - n) = 0 := by
  constructor
  · refine fun h => Nat.zero_of_testBit_eq_false fun i => ?_
    rw [Nat.testBit_mod_two_pow, BitVec.testBit_toNat, Bool.and_eq_false_imp]
    intro hi
    have hi := of_decide_eq_true hi
    have hbit := h (32 - 1 - i) (by omega)
    rwa [BitVec.getMsbD_eq_getLsbD, decide_eq_true (by omega), Bool.true_and, Nat.sub_sub_self (by omega)] at hbit
  · intro h k hk
    have hbit := Nat.testBit_mod_two_pow acc.toNat (32 - n) (32 - 1 - k)
    rw [h, Nat.zero_testBit, BitVec.testBit_toNat] at hbit
    rw [BitVec.getMsbD_eq_getLsbD, Bool.and_eq_false_imp]
    intro hk32
    have hk32 := of_decide_eq_true hk32
    rwa [decide_eq_true (by omega), Bool.true_and, eq_comm] at hbit

theorem ClearBelow.shiftLeft {m n : ℕ} {acc : Word} (h : ClearBelow (m + n) acc) : ClearBelow n (acc <<< m) :=
  fun k hk => by
    rw [BitVec.getMsbD_shiftLeft]
    exact h _ (by omega)

/-- A group of `n` bits placed below the top `m`, as `putBits` places it. -/
def groupBelow (m n v : ℕ) : Word := BitVec.ofNat 32 (v % 2 ^ n) <<< (32 - m - n)

theorem getMsbD_groupBelow {m n : ℕ} (h : m + n ≤ 32) (v k : ℕ) :
    (groupBelow m n v).getMsbD k = (decide (m ≤ k ∧ k < m + n) && v.testBit (m + n - 1 - k)) := by
  rw [groupBelow, BitVec.getMsbD_shiftLeft, BitVec.getMsbD_eq_getLsbD, BitVec.getLsbD_ofNat, Nat.testBit_mod_two_pow,
    show 32 - 1 - (k + (32 - m - n)) = m + n - 1 - k by omega]
  by_cases hk : m ≤ k ∧ k < m + n
  · rw [decide_eq_true hk, decide_eq_true (by omega), decide_eq_true (by omega), decide_eq_true (by omega)]
    simp only [Bool.true_and]
  · rw [decide_eq_false hk]
    by_cases hn : k + (32 - m - n) < 32
    · rw [decide_eq_false (p := m + n - 1 - k < n) (by omega)]
      simp only [Bool.false_and, Bool.and_false]
    · rw [decide_eq_false hn]
      simp only [Bool.false_and]

theorem ClearBelow.or_groupBelow {m n : ℕ} (h : m + n ≤ 32) {acc : Word} (hclear : ClearBelow m acc) (v : ℕ) :
    ClearBelow (m + n) (acc ||| groupBelow m n v) := fun k hk => by
  rw [BitVec.getMsbD_or, hclear k (by omega), getMsbD_groupBelow h, decide_eq_false (by omega), Bool.false_and,
    Bool.false_or]

theorem topBits_or_groupBelow {m n : ℕ} (h : m + n ≤ 32) {acc : Word} (hclear : ClearBelow m acc) (v : ℕ) :
    topBits (m + n) (acc ||| groupBelow m n v) = topBits m acc ++ bitsOf n v := by
  rw [topBits_add]
  congr 1
  · refine List.map_congr_left fun k hk => ?_
    have hk := List.mem_range.1 hk
    rw [BitVec.getMsbD_or, getMsbD_groupBelow h, decide_eq_false (by omega), Bool.false_and, Bool.or_false]
  · refine List.map_congr_left fun k hk => ?_
    have hk := List.mem_range.1 hk
    rw [BitVec.getMsbD_shiftLeft, BitVec.getMsbD_or, hclear _ (by omega), getMsbD_groupBelow h,
      decide_eq_true (by omega), Bool.true_and, Bool.false_or, show m + n - 1 - (k + m) = n - 1 - k by omega]

/-! ### The output bytes -/

theorem wellStuffed_cons {b : Byte} (hb : b ≠ 0xFF) (rest : List Byte) :
    wellStuffed (b :: rest) = wellStuffed rest := by
  cases rest with
  | nil => exact bne_iff_ne.2 hb
  | cons x rest => exact if_neg hb

theorem unstuff_cons {b : Byte} (hb : b ≠ 0xFF) (rest : List Byte) : unstuff (b :: rest) = b :: unstuff rest := by
  cases rest with
  | nil => rfl
  | cons x rest => exact if_neg hb

/-- Nothing behind a stuffed output is read together with its last byte. -/
theorem append_of_wellStuffed {xs : List Byte} (h : wellStuffed xs = true) (ys : List Byte) :
    wellStuffed (xs ++ ys) = wellStuffed ys ∧ unstuff (xs ++ ys) = unstuff xs ++ unstuff ys := by
  induction xs using wellStuffed.induct with
  | case1 => exact ⟨rfl, rfl⟩
  | case2 b =>
    have hb : b ≠ 0xFF := bne_iff_ne.1 h
    exact ⟨wellStuffed_cons hb ys, unstuff_cons hb ys⟩
  | case3 x rest ih =>
    obtain ⟨hx, hrest⟩ := Bool.and_eq_true_iff.1 h
    obtain ⟨hstuffed, hunstuff⟩ := ih hrest
    exact ⟨(congrArg (_ && ·) hstuffed).trans (by rw [hx, Bool.true_and]), congrArg (0xFF :: ·) hunstuff⟩
  | case4 b x rest hb ih =>
    rw [wellStuffed_cons hb] at h
    obtain ⟨hstuffed, hunstuff⟩ := ih h
    rw [List.cons_append, wellStuffed_cons hb, unstuff_cons hb, unstuff_cons hb]
    exact ⟨hstuffed, congrArg (b :: ·) hunstuff⟩

theorem wellStuffed_stuffed (b : Byte) : wellStuffed (stuffed b) = true := by
  unfold stuffed
  split
  case isTrue h => rw [h]; rfl
  case isFalse h => simpa [wellStuffed] using h

theorem unstuff_stuffed (b : Byte) : unstuff (stuffed b) = [b] := by
  unfold stuffed
  split
  case isTrue h => rw [h]; rfl
  case isFalse h => rfl

/-- The bits of the data bytes of `OUT`. -/
def dataBits (out : List Byte) : List Bool := (unstuff out).flatMap fun b => bitsOf 8 b.toNat

theorem dataBits_append_stuffed {out : List Byte} (h : wellStuffed out = true) (b : Byte) :
    dataBits (out ++ stuffed b) = dataBits out ++ bitsOf 8 b.toNat := by
  simp only [dataBits, (append_of_wellStuffed h _).2, unstuff_stuffed, List.flatMap_append, List.flatMap_singleton]

/-! ### The stream -/

theorem streamOf_eq {p : Packer} (h : p.cur.toNat ≤ 32) : streamOf p = dataBits p.out ++ topBits p.cur.toNat p.acc := by
  rw [topBits_eq_bitsOf h]
  rfl

/-- The extraction loop moves the top `k` bytes of the register to the output and leaves the `n` bits below them. -/
theorem drain_stream {k n : ℕ} {acc : Word} {out : List Byte} (hclear : ClearBelow (8 * k + n) acc)
    (hout : wellStuffed out = true) :
    ClearBelow n (drain k acc out).1 ∧ wellStuffed (drain k acc out).2 = true ∧
      dataBits (drain k acc out).2 ++ topBits n (drain k acc out).1 = dataBits out ++ topBits (8 * k + n) acc := by
  induction k generalizing acc out with
  | zero =>
    rw [Nat.mul_zero, Nat.zero_add] at *
    exact ⟨hclear, hout, rfl⟩
  | succ k ih =>
    rw [show 8 * (k + 1) + n = 8 + (8 * k + n) by ring] at hclear ⊢
    have hstuffed := (append_of_wellStuffed hout _).1.trans (wellStuffed_stuffed (acc.extractLsb' 24 8))
    obtain ⟨hclear', hout', hstream⟩ := ih hclear.shiftLeft hstuffed
    refine ⟨hclear', hout', hstream.trans ?_⟩
    rw [dataBits_append_stuffed hout, topBits_add 8, topBits_byte, List.append_assoc]

theorem putBits_stream {p : Packer} (hp : PackerOk p) {n : ℕ} (hn : n ≤ 16) (v : ℕ) :
    PackerOk (putBits n v p) ∧ streamOf (putBits n v p) = streamOf p ++ bitsOf n v := by
  obtain rfl | hn0 := eq_or_ne n 0
  · exact ⟨hp, (List.append_nil _).symm⟩
  obtain ⟨hcur, hacc, hout⟩ := hp
  have hclear := (clearBelow_iff _ _).2 hacc
  have hfit : p.cur.toNat + n ≤ 32 := by omega
  obtain ⟨hclear', hout', hstream⟩ := drain_stream (k := (p.cur.toNat + n) / 8) (n := (p.cur.toNat + n) % 8)
    (by rw [Nat.div_add_mod]; exact hclear.or_groupBelow hfit v) hout
  rw [Nat.div_add_mod, topBits_or_groupBelow hfit hclear, ← List.append_assoc, ← streamOf_eq (by omega)] at hstream
  have hput : putBits n v p = ⟨(drain ((p.cur.toNat + n) / 8) (p.acc ||| groupBelow p.cur.toNat n v) p.out).1,
      BitVec.ofNat 6 ((p.cur.toNat + n) % 8),
      (drain ((p.cur.toNat + n) / 8) (p.acc ||| groupBelow p.cur.toNat n v) p.out).2⟩ := if_neg hn0
  have hcur' : (putBits n v p).cur.toNat = (p.cur.toNat + n) % 8 := by
    rw [hput]
    exact Nat.mod_eq_of_lt (by omega)
  refine ⟨⟨by omega, ?_, by rw [hput]; exact hout'⟩, ?_⟩
  · rw [hcur', hput]
    exact (clearBelow_iff _ _).1 hclear'
  · rw [streamOf_eq (by omega), hcur', hput]
    exact hstream

end Sys2Proof.Machine
end

section
/-! SUPPORT. `ENC` as the coding of a list of items (44_entropy_coder.md R130 to R136, 30_encoding.md R70 to R76): the
machine's loops code the items of their block in stream order. -/

namespace Sys2Proof.Machine

/-! ### One item -/

theorem emitSym_of_code {tabs : HuffTables} {t : Fin 4} {sym : ℕ} (hs : sym < 256) {e : HuffCode}
    (he : tabs[t][sym] = some e) (hsi : e.si ≠ 0) (p : Packer) :
    emitSym tabs t (byteOf sym) p = .ok (putBits e.si.val e.co.toNat p) := by
  simp only [emitSym, toNat_byteOf hs, he, if_neg hsi]

theorem emitSym_of_zerolen {tabs : HuffTables} {t : Fin 4} {sym : ℕ} (hs : sym < 256) {e : HuffCode}
    (he : tabs[t][sym] = some e) (hsi : e.si = 0) (p : Packer) :
    emitSym tabs t (byteOf sym) p = .error ⟨.zerolen, infoBytes 0 (byteOf t.val) (byteOf sym)⟩ := by
  simp only [emitSym, toNat_byteOf hs, he, if_pos hsi]

/-- One item of component `c`: its symbol and its raw bits, or the fault of R136 before the symbol is looked up. -/
def codeItem (tabs : HuffTables) (c : Fin 3) (p : Packer) (it : Item) : Except Raise Packer :=
  if it.table.val % 2 = 1 ∧ 15 < it.cat then .error ⟨.cat, infoBytes 0 (byteOf c.val) (byteOf it.pos)⟩
  else (emitSym tabs it.table (byteOf it.sym) p).map fun q => putBits it.cat it.raw q

variable (tabs : HuffTables) (c : Fin 3) (p : Packer)

theorem codeItem_of_tooLarge {it : Item} (h : it.tooLarge) :
    codeItem tabs c p it = .error ⟨.cat, infoBytes 0 (byteOf c.val) (byteOf it.pos)⟩ := if_pos h

theorem codeItem_of_not_tooLarge {it : Item} (h : ¬ it.tooLarge) :
    codeItem tabs c p it = (emitSym tabs it.table (byteOf it.sym) p).map fun q => putBits it.cat it.raw q := if_neg h

theorem codeItem_of_zerolen {tabs : HuffTables} {it : Item} (h : ¬ it.tooLarge) (hs : it.sym < 256) {e : HuffCode}
    (he : tabs[it.table][it.sym] = some e) (hsi : e.si = 0) :
    codeItem tabs c p it = .error ⟨.zerolen, infoBytes 0 (byteOf it.table.val) (byteOf it.sym)⟩ := by
  rw [codeItem_of_not_tooLarge _ _ _ h, emitSym_of_zerolen hs he hsi]
  rfl

/-- An item with a code is its code and its raw bits, one group after the other. -/
theorem codeItem_of_codable {tabs : HuffTables} {it : Item} (h : it.codable tabs) :
    ∃ e : HuffCode, codeItem tabs c p it = .ok (putBits it.cat it.raw (putBits e.si.val e.co.toNat p)) ∧
      it.bits tabs = bitsOf e.si.val e.co.toNat ++ bitsOf it.cat it.raw := by
  obtain ⟨hsmall, hs, e, he, hsi⟩ := h
  refine ⟨e, ?_, ?_⟩
  · rw [codeItem_of_not_tooLarge _ _ _ hsmall, emitSym_of_code hs he hsi]
    rfl
  · simp only [Item.bits, Nat.mod_eq_of_lt hs, he]

/-- A symbol with no raw bits, in either code. -/
theorem codeItem_symbol (t : Fin 4) (sym pos : ℕ) :
    codeItem tabs c p ⟨t, sym, 0, 0, pos⟩ = emitSym tabs t (byteOf sym) p := by
  rw [codeItem_of_not_tooLarge _ _ _ fun h => Nat.not_lt_zero 15 h.2]
  exact congrFun Except.map_id _

/-! ### A list of items -/

/-- The items of a list in order, up to the first that faults. -/
def codeItems (its : List Item) (p : Packer) : Except Raise Packer := its.foldlM (codeItem tabs c) p

theorem codeItems_cons (it : Item) (its : List Item) :
    codeItems tabs c (it :: its) p = (codeItem tabs c p it).bind (codeItems tabs c its) := rfl

theorem codeItems_append (its its' : List Item) :
    codeItems tabs c (its ++ its') p = (codeItems tabs c its p).bind (codeItems tabs c its') := List.foldlM_append

theorem codeItems_singleton (it : Item) : codeItems tabs c [it] p = codeItem tabs c p it := by
  rw [codeItems_cons]
  cases codeItem tabs c p it <;> rfl

/-- Items with codes are all coded; from a packer in order, where no group is too long, they extend the stream by their
bits. -/
theorem codeItems_of_codable {tabs : HuffTables} {its : List Item} (h : ∀ it ∈ its, it.codable tabs) :
    ∃ q, codeItems tabs c its p = .ok q ∧ (PackerOk p → (∀ it ∈ its, it.cat ≤ 16) →
      PackerOk q ∧ streamOf q = streamOf p ++ its.flatMap (Item.bits tabs)) := by
  induction its generalizing p with
  | nil => exact ⟨p, rfl, fun hp _ => ⟨hp, (List.append_nil _).symm⟩⟩
  | cons it its ih =>
    obtain ⟨hit, hits⟩ := List.forall_mem_cons.1 h
    obtain ⟨e, hcode, hbits⟩ := codeItem_of_codable c p hit
    obtain ⟨q, hq, hstream⟩ := ih (putBits it.cat it.raw (putBits e.si.val e.co.toNat p)) hits
    refine ⟨q, by rw [codeItems_cons, hcode]; exact hq, fun hp hcat => ?_⟩
    obtain ⟨hcat, hcats⟩ := List.forall_mem_cons.1 hcat
    obtain ⟨hp₁, hs₁⟩ := putBits_stream hp (Nat.le_of_lt_succ e.si.isLt) e.co.toNat
    obtain ⟨hp₂, hs₂⟩ := putBits_stream hp₁ hcat it.raw
    obtain ⟨hq, hs⟩ := hstream hp₂ hcats
    refine ⟨hq, ?_⟩
    rw [hs, hs₂, hs₁, List.flatMap_cons, hbits]
    simp only [List.append_assoc]

/-- The first item that faults decides. -/
theorem codeItems_of_error {tabs : HuffTables} {before after : List Item} {it : Item} {r : Raise}
    (h : ∀ it ∈ before, it.codable tabs) (hr : ∀ q, codeItem tabs c q it = .error r) :
    codeItems tabs c (before ++ it :: after) p = .error r := by
  obtain ⟨q, hq, -⟩ := codeItems_of_codable c p h
  rw [codeItems_append, hq]
  change codeItems tabs c (it :: after) q = _
  rw [codeItems_cons, hr]
  rfl

/-! ### The machine's loops -/

theorem dcTable_even (c : Fin 3) : (dcTable c).val % 2 = 0 := by
  unfold dcTable
  split <;> rfl

theorem acTable_odd (c : Fin 3) : (acTable c).val % 2 = 1 := by
  unfold acTable
  split <;> rfl

theorem encodeDc_eq (diff : ℤ) : encodeDc tabs (dcTable c) diff p = codeItem tabs c p (dcItem c diff) := by
  have h : ¬ (dcItem c diff).tooLarge := fun h => absurd ((dcTable_even c).symm.trans h.1) (by decide)
  rw [codeItem_of_not_tooLarge _ _ _ h, encodeDc, magcat_eq]
  rfl

theorem emitZrls_eq (k n : ℕ) :
    emitZrls tabs (acTable c) n p = codeItems tabs c (List.replicate n ⟨acTable c, 0xF0, 0, 0, k⟩) p := by
  induction n generalizing p with
  | zero => rfl
  | succ n ih =>
    rw [List.replicate_succ, codeItems_cons, codeItem_symbol, ← funext ih]
    rfl

theorem emitCoefficient_eq (k run : ℕ) (v : ℤ) : emitCoefficient tabs c (acTable c) k run v p =
    codeItem tabs c p ⟨acTable c, run * 16 + category v, category v, rawBits v, k⟩ := by
  simp only [emitCoefficient, codeItem, magcat_eq, acTable_odd, true_and]

theorem codeItems_coefficientItems (z : List ℤ) (k0 k : ℕ) : codeItems tabs c (coefficientItems c z k0 k) p =
    (emitZrls tabs (acTable c) ((k - k0 - 1) / 16) p).bind
      (emitCoefficient tabs c (acTable c) k ((k - k0 - 1) % 16) (z.getD k 0)) := by
  rw [coefficientItems, codeItems_append, ← emitZrls_eq]
  congr 1
  funext q
  rw [codeItems_singleton, emitCoefficient_eq]

/-- The items of the coefficients at positions `ks` when `k0` is the position of the item before them. -/
def runItems (c : Fin 3) (z : List ℤ) (k0 : ℕ) (ks : List ℕ) : List Item :=
  ((k0 :: ks).zip ks).flatMap fun q => coefficientItems c z q.1 q.2

theorem runItems_cons (z : List ℤ) (k0 k : ℕ) (ks : List ℕ) :
    runItems c z k0 (k :: ks) = coefficientItems c z k0 k ++ runItems c z k ks := rfl

/-- The loop from position `k` on codes the non-zero coefficients there, `k0` being the position of the item before. -/
theorem encodeRuns_eq (z : List ℤ) {k0 k n : ℕ} (hk : k0 < k) (hlen : z.length = k + n) :
    encodeRuns tabs c (acTable c) k (k - k0 - 1) (z.drop k) p =
      codeItems tabs c (runItems c z k0 ((List.range' k n).filter fun j => z.getD j 0 ≠ 0)) p := by
  induction n generalizing k0 k p with
  | zero =>
    rw [List.drop_of_length_le (by omega)]
    rfl
  | succ n ih =>
    have hget : z.getD k 0 = z[k] := List.getD_eq_getElem _ _ _
    rw [List.drop_eq_getElem_cons (by omega), ← hget, List.range'_succ, encodeRuns]
    by_cases hv : z.getD k 0 = 0
    · rw [if_pos hv, List.filter_cons_of_neg (by simpa using hv), ← ih _ (by omega) (by omega)]
      congr 1
      omega
    · rw [if_neg hv, List.filter_cons_of_pos (by simpa using hv), runItems_cons, codeItems_append,
        codeItems_coefficientItems]
      have hrest (q : Packer) := ih q (Nat.lt_add_one k) (by omega)
      simp only [Nat.add_sub_cancel_left, Nat.sub_self] at hrest
      cases emitZrls tabs (acTable c) ((k - k0 - 1) / 16) p with
      | error r => rfl
      | ok q => exact congrArg (Except.bind _) (funext hrest)

/-! ### Up to the last non-zero coefficient -/

theorem upToLast_cons (v : ℤ) (rest : List ℤ) :
    upToLast (v :: rest) = if v = 0 ∧ upToLast rest = [] then [] else v :: upToLast rest := by
  cases h : upToLast rest <;> simp [upToLast, h]

theorem encodeRuns_upToLast (ta : Fin 4) (z : List ℤ) (k run : ℕ) :
    encodeRuns tabs c ta k run (upToLast z) p = encodeRuns tabs c ta k run z p := by
  induction z generalizing k run p with
  | nil => rfl
  | cons v rest ih =>
    rw [upToLast_cons]
    split
    case isTrue h =>
      obtain ⟨hv, hrest⟩ := h
      rw [hv, encodeRuns, encodeRuns, if_pos rfl, ← ih, hrest]
      rfl
    case isFalse => simp only [encodeRuns, ih]

theorem length_upToLast_eq_iff {z : List ℤ} {n : ℕ} (hlen : z.length = n + 1) :
    (upToLast z).length = n + 1 ↔ z.getD n 0 ≠ 0 := by
  induction z generalizing n with
  | nil => cases hlen
  | cons v rest ih =>
    have hrest : rest.length = n := Nat.succ.inj hlen
    rw [upToLast_cons]
    cases n with
    | zero =>
      obtain rfl := List.eq_nil_of_length_eq_zero hrest
      by_cases hv : v = 0 <;> simp [upToLast, hv]
    | succ n =>
      rw [List.getD_cons_succ, ← ih hrest]
      by_cases hnil : upToLast rest = []
      · split <;> simp [hnil]
      · rw [if_neg fun h => hnil h.2, List.length_cons, Nat.add_left_inj]

theorem mem_nonZero_iff {z : List ℤ} {k : ℕ} : k ∈ nonZero z ↔ (1 ≤ k ∧ k < 64) ∧ z.getD k 0 ≠ 0 := by
  simp [nonZero]

theorem encodeAc_eq {z : List ℤ} (hlen : z.length = 64) :
    encodeAc tabs c (acTable c) z.tail p = codeItems tabs c (acItems c z) p := by
  have hruns : encodeRuns tabs c (acTable c) 1 0 (upToLast z.tail) p =
      codeItems tabs c (runItems c z 0 (nonZero z)) p := by
    rw [encodeRuns_upToLast, ← List.drop_one]
    exact encodeRuns_eq tabs c p z (n := 63) Nat.zero_lt_one hlen
  have hlast : (upToLast z.tail).length = 63 ↔ 63 ∈ nonZero z := by
    rw [length_upToLast_eq_iff (by rw [List.length_tail, hlen]), mem_nonZero_iff]
    simp
  change (encodeRuns ..).bind _ = codeItems tabs c (runItems c z 0 (nonZero z) ++ ite _ _ _) p
  rw [hruns, codeItems_append]
  congr 1
  funext q
  by_cases h : 63 ∈ nonZero z
  · rw [if_pos h, if_pos (hlast.2 h)]
    rfl
  · rw [if_neg h, if_neg (mt hlast.1 h), codeItems_singleton, codeItem_symbol]
    rfl

theorem length_coefficients (b : Block Half) : (coefficients b).length = 64 := by
  rw [coefficients, List.length_map, Vector.length_toList]

theorem coefficients_of_written {b : Block Half} {z : Fin 64 → Half} (h : ∀ k : Fin 64, b[k] = some (z k)) :
    coefficients b = List.ofFn fun k => (z k).toInt := by
  refine List.ext_getElem (by rw [length_coefficients, List.length_ofFn]) fun k hk _ => ?_
  rw [length_coefficients] at hk
  have hz : b[k] = some (z ⟨k, hk⟩) := h ⟨k, hk⟩
  simp only [coefficients, List.getElem_map, Vector.getElem_toList, List.getElem_ofFn]
  exact congrArg (fun e : Option Half => (e.getD 0).toInt) hz

/-- The machine codes the items of its block, in order. -/
theorem encodeBlock_eq (s : State) : encodeBlock s c =
    codeItems s.ehuf c (blockItems c (coefficients s.zz[c]) s.pred[c].toInt) s.packer := by
  have hhead : (coefficients s.zz[c]).headD 0 = (coefficients s.zz[c]).getD 0 0 := by
    cases coefficients s.zz[c] <;> rfl
  rw [blockItems, codeItems_cons, ← encodeDc_eq, ← hhead, encodeBlock]
  congr 1
  funext q
  exact encodeAc_eq _ c q (length_coefficients _)

/-! ### The items of a block -/

theorem of_mem_acItems {z : List ℤ} {it : Item} (h : it ∈ acItems c z) : it.table = acTable c ∧ it.pos < 64 := by
  obtain h | h := List.mem_append.1 h
  · obtain ⟨⟨k0, k⟩, hmem, h⟩ := List.mem_flatMap.1 h
    have hk := (mem_nonZero_iff.1 (List.of_mem_zip hmem).2).1.2
    obtain h | h := List.mem_append.1 h
    · obtain rfl := List.eq_of_mem_replicate h
      exact ⟨rfl, hk⟩
    · obtain rfl := List.mem_singleton.1 h
      exact ⟨rfl, hk⟩
  · split at h
    · cases h
    · obtain rfl := List.mem_singleton.1 h
      exact ⟨rfl, Nat.lt_succ_self 63⟩

theorem pos_lt_of_mem_blockItems {z : List ℤ} {pred : ℤ} {it : Item} (h : it ∈ blockItems c z pred) : it.pos < 64 := by
  obtain rfl | h := List.mem_cons.1 h
  · exact Nat.zero_lt_succ 63
  · exact (of_mem_acItems c h).2

/-- The groups of a block whose items have codes have at most 16 bits (R132). -/
theorem cat_le_of_mem_blockItems {tabs : HuffTables} {z : Fin 64 → Half} {pred : Half} {it : Item}
    (h : it ∈ blockItems c (List.ofFn fun k => (z k).toInt) pred.toInt) (hcode : it.codable tabs) : it.cat ≤ 16 := by
  obtain rfl | h := List.mem_cons.1 h
  · refine category_le_iff.2 ?_
    have hhead : (List.ofFn fun k => (z k).toInt).getD 0 0 = (z 0).toInt := rfl
    have hz := (z 0).toInt_lt
    have hz' := (z 0).le_toInt
    have hp := pred.toInt_lt
    have hp' := pred.le_toInt
    rw [hhead]
    omega
  · by_contra hcat
    exact hcode.1 ⟨(of_mem_acItems c h).1 ▸ acTable_odd c, by omega⟩

end Sys2Proof.Machine
end

section
/-! SUPPORT. What `ENC` answers (44_entropy_coder.md R130): its items in order, up to the first that cannot be coded. -/

namespace Sys2Proof.Machine

theorem exec_enc {s : State} {c : Fin 3} (hp : s.phase = .image) (hc : s.nextc = c) :
    exec (.enc (byteOf c.val)) s = finish (encStage c s) := by
  have hnext : (byteOf c.val).toNat = s.nextc.val := by rw [toNat_byteOf (by omega), hc]
  rw [exec_accepted (i := .enc (byteOf c.val)) (componentOk_byteOf c) ⟨hp, hnext⟩, runOf, component_byteOf]

section
variable {s : State} {c : Fin 3} {z : Fin 64 → Half} (hz : ∀ k : Fin 64, s.zz[c][k] = some (z k))
include hz

theorem encodeBlock_of_written : encodeBlock s c =
    codeItems s.ehuf c (blockItems c (List.ofFn fun k => (z k).toInt) s.pred[c].toInt) s.packer := by
  rw [encodeBlock_eq, coefficients_of_written hz]

theorem firstBot_of_written : firstBot s.zz[c] = none :=
  (firstBot_eq_none _).2 (allWritten_of_eq_some fun k => ⟨z k, hz k⟩)

variable (hp : s.phase = .image) (hc : s.nextc = c)
include hp hc

theorem exec_enc_of_ok {p : Packer} (h : encodeBlock s c = .ok p) :
    exec (.enc (byteOf c.val)) s = .next (answered (encoded c p s)) := by
  rw [exec_enc hp hc, encStage, firstBot_of_written hz]
  simp only [h]
  rfl

theorem exec_enc_of_error {r : Raise} (hr : r.code ≠ .uninit) (h : encodeBlock s c = .error r) :
    exec (.enc (byteOf c.val)) s = .next (respond .fault (enterFault r (loseStream s))) := by
  rw [exec_enc hp hc, encStage, firstBot_of_written hz]
  simp only [h, afterEncFault, if_neg hr]
  rfl

/-- The first item that faults decides the fault of the command. -/
theorem exec_enc_of_codeItem_error {before after : List Item} {it : Item} {r : Raise} (hr : r.code ≠ .uninit)
    (hitems : blockItems c (List.ofFn fun k => (z k).toInt) s.pred[c].toInt = before ++ it :: after)
    (hbefore : ∀ it' ∈ before, it'.codable s.ehuf) (h : ∀ q, codeItem s.ehuf c q it = .error r) :
    ∃ (out : List Byte) (acc : Word) (cur : BitVec 6) (pred : Vector Half 3) (draws : ℕ),
      exec (.enc (byteOf c.val)) s = .next { faultEntry s r.code r.info with
        out := out, acc := acc, cur := cur, pred := pred, draws := draws } := by
  refine ⟨_, _, _, _, _, exec_enc_of_error hz hp hc hr ?_⟩
  rw [encodeBlock_of_written hz, hitems]
  exact codeItems_of_error c s.packer hbefore h

end

/-- Settles O46: every item extends the stream by its bits, and the rest is what `encoded` writes. -/
theorem encAppendsBlock : Obligations.EncAppendsBlock := by
  intro s c z hp hc hpacker hz hcode
  obtain ⟨p, hitems, hstream⟩ := codeItems_of_codable c s.packer hcode
  obtain ⟨hok, hbits⟩ := hstream hpacker fun it hit => cat_le_of_mem_blockItems c hit (hcode it hit)
  have hb : encodeBlock s c = .ok p := (encodeBlock_of_written hz).trans hitems
  have hout : Extends s.packer (.ok p) := hb ▸ encodeBlock_extends s c
  obtain ⟨more, hmore⟩ := hout
  have hz0 : s.zz[c][0] = some (z 0) := hz 0
  have hnext : s.nextc + 1 = Fin.ofNat 3 (c.val + 1) := hc ▸ rfl
  refine ⟨p, ?_, hok, ⟨more, hmore.symm⟩, hbits⟩
  rw [exec_enc_of_ok hz hp hc hb, encoded, hz0, hnext]
  rfl

/-- The information words of R214 and R216. -/
theorem infoBytes_low {a b : ℕ} (ha : a < 256) (hb : b < 256) :
    infoBytes 0 (byteOf a) (byteOf b) = BitVec.ofNat 32 (a * 256 + b) := by
  refine BitVec.eq_of_toNat_eq ?_
  rw [toNat_infoBytes, toNat_byteOf ha, toNat_byteOf hb, BitVec.toNat_ofNat, Nat.mod_eq_of_lt (by omega)]
  simp

/-- Settles O47: an item that is too large faults before its symbol is looked up, else a length 0 there does. -/
theorem encFirstUncodableItemFaults : Obligations.EncFirstUncodableItemFaults := by
  intro s c z before after it hp hc hz hitems hbefore
  refine ⟨fun hlarge => ?_, fun hsmall k hk ⟨co, hco⟩ => ?_⟩
  · have hmem : it ∈ before ++ it :: after := List.mem_append_right _ List.mem_cons_self
    rw [← hitems] at hmem
    have hpos := pos_lt_of_mem_blockItems c hmem
    rw [← infoBytes_low (by omega) (by omega)]
    exact exec_enc_of_codeItem_error hz hp hc FaultCode.noConfusion hitems hbefore fun q =>
      codeItem_of_tooLarge s.ehuf c q hlarge
  · have hs : it.sym < 256 := hk ▸ k.isLt
    have he : s.ehuf[it.table][it.sym] = some ⟨0, co⟩ := by simpa [hk] using hco
    rw [← infoBytes_low (by omega) hs]
    exact exec_enc_of_codeItem_error hz hp hc FaultCode.noConfusion hitems hbefore fun q =>
      codeItem_of_zerolen c q hsmall hs he rfl

end Sys2Proof.Machine
end

section
/-! SUPPORT. `PUTBITS` (45_bit_packer.md R150 to R153): the registers it leaves, and the stream it extends. -/

namespace Sys2Proof.Machine

/-! ### The extraction loop -/

/-- The loop in closed form: the top `k` bytes go to the output and leave the register. -/
theorem drain_eq (k : ℕ) (acc : Word) (out : List Byte) :
    drain k acc out =
      (acc <<< (8 * k), out ++ (List.range k).flatMap fun j => stuffed ((acc <<< (8 * j)).extractLsb' 24 8)) := by
  induction k generalizing acc out with
  | zero => simp [drain]
  | succ k ih =>
    have hshift (j : ℕ) : acc <<< 8 <<< (8 * j) = acc <<< (8 * (j + 1)) := by
      rw [← BitVec.shiftLeft_add, Nat.mul_succ, Nat.add_comm]
    rw [drain_succ, ih, List.range_succ_eq_map, List.flatMap_cons, List.flatMap_map, List.append_assoc]
    simp only [hshift, Nat.mul_zero, BitVec.shiftLeft_zero]

theorem length_stuffed_le (b : Byte) : (stuffed b).length ≤ 2 := by
  unfold stuffed
  split <;> simp

/-- The loop adds at most two bytes a turn. -/
theorem drain_out_le (k : ℕ) (acc : Word) (out : List Byte) :
    ∃ more, (drain k acc out).2 = out ++ more ∧ more.length ≤ 2 * k := by
  refine ⟨_, by rw [drain_eq], ?_⟩
  rw [List.length_flatMap]
  refine (List.sum_le_card_nsmul _ 2 fun n hn => ?_).trans (by simp [Nat.mul_comm])
  obtain ⟨j, -, rfl⟩ := List.mem_map.1 hn
  exact length_stuffed_le _

/-- The byte of the register that the loop's turn `j` finds on top. -/
theorem topByte_shiftLeft {j : ℕ} (hj : j < 4) (x : Word) :
    (x <<< (8 * j)).extractLsb' 24 8 = BitVec.ofNat 8 (x.toNat / 256 ^ (3 - j)) := by
  apply BitVec.eq_of_toNat_eq
  simp only [BitVec.extractLsb'_toNat, BitVec.toNat_shiftLeft, BitVec.toNat_ofNat, Nat.shiftRight_eq_div_pow,
    Nat.shiftLeft_eq]
  interval_cases j <;> omega

theorem stuffed_ofNat (m : ℕ) :
    stuffed (BitVec.ofNat 8 m) = if m % 256 = 255 then [0xFF, 0x00] else [BitVec.ofNat 8 m] := by
  have hff : BitVec.ofNat 8 m = 0xFF ↔ m % 256 = 255 := by rw [← BitVec.toNat_inj, BitVec.toNat_ofNat]; rfl
  unfold stuffed
  simp only [hff]
  split
  case isTrue h => rw [hff.2 h]
  case isFalse => rfl

/-! ### The registers -/

theorem putBits_of_ne_zero {n : ℕ} (hn : n ≠ 0) (v : ℕ) (p : Packer) :
    putBits n v p = ⟨(drain ((p.cur.toNat + n) / 8) (p.acc ||| groupBelow p.cur.toNat n v) p.out).1,
      BitVec.ofNat 6 ((p.cur.toNat + n) % 8),
      (drain ((p.cur.toNat + n) / 8) (p.acc ||| groupBelow p.cur.toNat n v) p.out).2⟩ := if_neg hn

theorem toNat_groupBelow {m n : ℕ} (h : m + n ≤ 32) (v : ℕ) :
    (groupBelow m n v).toNat = v % 2 ^ n * 2 ^ (32 - m - n) := by
  have hlt : v % 2 ^ n * 2 ^ (32 - m - n) < 2 ^ 32 := calc
    v % 2 ^ n * 2 ^ (32 - m - n) < 2 ^ n * 2 ^ (32 - m - n) :=
      Nat.mul_lt_mul_of_pos_right (Nat.mod_lt _ (Nat.two_pow_pos n)) (Nat.two_pow_pos _)
    _ = 2 ^ (n + (32 - m - n)) := (pow_add ..).symm
    _ ≤ 2 ^ 32 := Nat.pow_le_pow_right Nat.two_pos (by omega)
  rw [groupBelow, BitVec.toNat_shiftLeft, BitVec.toNat_ofNat, Nat.shiftLeft_eq, Nat.mod_mul_mod, Nat.mod_eq_of_lt hlt]

/-- `PUTBITS` as R151 and R152 print it, on numbers. -/
theorem putBits_registers {p : Packer} {n : ℕ} (hn : n ≠ 0) (hfit : p.cur.toNat + n ≤ 32) (v : ℕ) {x : ℕ}
    (hx : x = p.acc.toNat ||| v % 2 ^ n * 2 ^ (32 - p.cur.toNat - n)) :
    putBits n v p = ⟨BitVec.ofNat 32 (x * 256 ^ ((p.cur.toNat + n) / 8)), BitVec.ofNat 6 ((p.cur.toNat + n) % 8),
      p.out ++ (List.range ((p.cur.toNat + n) / 8)).flatMap fun j =>
        if x / 256 ^ (3 - j) % 256 = 255 then [0xFF, 0x00] else [BitVec.ofNat 8 (x / 256 ^ (3 - j))]⟩ := by
  have hreg : (p.acc ||| groupBelow p.cur.toNat n v).toNat = x := by rw [BitVec.toNat_or, toNat_groupBelow hfit, hx]
  rw [putBits_of_ne_zero hn, drain_eq, Packer.mk.injEq]
  refine ⟨BitVec.eq_of_toNat_eq ?_, rfl, congrArg (p.out ++ ·) (List.flatMap_congr fun j hj => ?_)⟩
  · rw [BitVec.toNat_shiftLeft, BitVec.toNat_ofNat, hreg, Nat.shiftLeft_eq, pow_mul]
    rfl
  · have hj := List.mem_range.1 hj
    rw [topByte_shiftLeft (by omega), stuffed_ofNat, hreg]

/-! ### The command -/

theorem exec_putbits {s : State} {n : Byte} (hp : s.phase = .image) (hn : n.toNat ≤ 16) (v : Half) :
    exec (.putbits n v) s = .next (answered (s.withPacker (putBits n.toNat v.toNat s.packer))) :=
  exec_accepted (i := .putbits n v) (decide_eq_true hn) hp

/-- Settles O48: the group is a number below two to its place, and the loop is read off byte by byte. -/
theorem putbitsRegisters : Obligations.PutbitsRegisters := by
  intro s n v hp hn hcur
  rw [exec_putbits hp hn]
  refine ⟨fun h0 => by rw [h0]; rfl, fun h0 => ?_⟩
  have hne : n.toNat ≠ 0 := fun h => h0 (BitVec.eq_of_toNat_eq h)
  have hfit : s.packer.cur.toNat + n.toNat ≤ 32 := Nat.add_le_add hcur hn |>.trans (by decide)
  rw [putBits_registers hne hfit v.toNat rfl]
  rfl

/-- Settles O49: the stream is extended by `putBits_stream`, the output by at most two bytes each of two turns. -/
theorem putbitsAppendsToStream : Obligations.PutbitsAppendsToStream := by
  intro s n v hp hn hpacker
  obtain ⟨hok, hstream⟩ := putBits_stream hpacker hn v.toNat
  refine ⟨putBits n.toNat v.toNat s.packer, exec_putbits hp hn v, hok, ?_, hstream⟩
  obtain h0 | h0 := eq_or_ne n.toNat 0
  · exact ⟨[], by rw [h0, putBits_zero, packer_out, List.append_nil], Nat.zero_le 4⟩
  · rw [putBits_of_ne_zero h0]
    obtain ⟨more, hmore, hlen⟩ := drain_out_le ((s.packer.cur.toNat + n.toNat) / 8)
      (s.packer.acc ||| groupBelow s.packer.cur.toNat n.toNat v.toNat) s.packer.out
    obtain ⟨hcur, -, -⟩ := hpacker
    exact ⟨more, hmore, by omega⟩

end Sys2Proof.Machine
end

section
/-! SUPPORT. The packer's invariants along every step (45_bit_packer.md R152, R153): `PUTBITS` keeps them whatever the
width of its group, so `ENC` does item by item, and no other run than `START`'s and `END`'s touches the packer. -/

namespace Sys2Proof.Machine

/-! ### Groups of bits -/

/-- `ClearBelow.or_groupBelow` for a group of any width: one that reaches past the register leaves no bit below it. -/
theorem ClearBelow.or_group {m : ℕ} {acc : Word} (hclear : ClearBelow m acc) (n v : ℕ) :
    ClearBelow (m + n) (acc ||| groupBelow m n v) := by
  by_cases hfit : m + n ≤ 32
  · exact hclear.or_groupBelow hfit v
  · exact fun k hk => BitVec.getMsbD_of_ge _ k (by omega)

theorem PackerOk.putBits {p : Packer} (hp : PackerOk p) (n v : ℕ) : PackerOk (putBits n v p) := by
  obtain rfl | hn := eq_or_ne n 0
  · exact hp
  obtain ⟨-, hacc, hout⟩ := hp
  have hclear := ((clearBelow_iff _ _).2 hacc).or_group n v
  rw [← Nat.div_add_mod (p.cur.toNat + n) 8] at hclear
  obtain ⟨hclear', hout', -⟩ := drain_stream hclear hout
  have hcur : (BitVec.ofNat 6 ((p.cur.toNat + n) % 8)).toNat = (p.cur.toNat + n) % 8 := Nat.mod_eq_of_lt (by omega)
  rw [putBits_of_ne_zero hn]
  refine ⟨?_, ?_, hout'⟩
  · rw [hcur]
    omega
  · rw [hcur]
    exact (clearBelow_iff _ _).1 hclear'

theorem PackerOk.pad1 {p : Packer} (hp : PackerOk p) : PackerOk (pad1 p) := by
  unfold Machine.pad1
  split
  · exact hp
  · exact hp.putBits _ _

/-! ### The entropy coder -/

theorem emitSym_packerOk {p : Packer} (hp : PackerOk p) (tabs : HuffTables) (t : Fin 4) (sym : Byte) :
    Ensures PackerOk (emitSym tabs t sym p) := by
  unfold emitSym
  split
  · exact FaultCode.noConfusion
  split
  · exact FaultCode.noConfusion
  · exact hp.putBits _ _

theorem codeItem_packerOk {p : Packer} (hp : PackerOk p) (tabs : HuffTables) (c : Fin 3) (it : Item) :
    Ensures PackerOk (codeItem tabs c p it) := by
  unfold codeItem
  split
  · exact FaultCode.noConfusion
  · exact (emitSym_packerOk hp ..).map fun q hq => hq.putBits _ _

theorem codeItems_packerOk {p : Packer} (hp : PackerOk p) (tabs : HuffTables) (c : Fin 3) (its : List Item) :
    Ensures PackerOk (codeItems tabs c its p) := by
  induction its generalizing p with
  | nil => exact hp
  | cons it its ih =>
    rw [codeItems_cons]
    exact (codeItem_packerOk hp ..).bind fun q hq => ih hq

/-- The block's items in order, by `encodeBlock_eq`. -/
theorem encodeBlock_packerOk {s : State} (hs : PackerOk s.packer) (c : Fin 3) :
    Ensures PackerOk (encodeBlock s c) := by
  rw [encodeBlock_eq]
  exact codeItems_packerOk hs ..

/-! ### Writes elsewhere -/

/-- What the invariant speaks of is not among the pieces `ps`. -/
def SparesPacker (ps : List Piece) : Prop := .accumulator ∉ ps ∧ .out ∉ ps ∧ .phase ∉ ps

theorem PackerInv.of_writesOnly {ps : List Piece} {s t : State} (hs : PackerInv s) (hw : WritesOnly ps s t)
    (hps : SparesPacker ps) : PackerInv t := by
  obtain ⟨hacc, hout, hphase⟩ := hps
  obtain ⟨ha, hc⟩ : t.acc = s.acc ∧ t.cur = s.cur := hw.same .accumulator hacc
  have ho : t.out = s.out := hw.same .out hout
  have hp : t.phase = s.phase := hw.same .phase hphase
  unfold PackerInv State.packer
  rw [ha, hc, ho, hp]
  exact hs

/-- The invariant is not asked for in `FAULTED`. -/
theorem packerInv_enterFault (r : Raise) (s : State) : PackerInv (enterFault r s) := fun h => absurd rfl h

theorem AnsweredWriting.packerInv {ps : List Piece} {s t : State} (h : AnsweredWriting ps s t) (hs : PackerInv s)
    (hps : SparesPacker ps) : PackerInv t := by
  obtain ⟨u, hw, ⟨r, rfl⟩ | ⟨r, rfl⟩⟩ := h
  · have hu := hs.of_writesOnly hw hps
    exact hu
  · exact packerInv_enterFault r u

/-! ### Stages that complete -/

/-- The stage keeps the packer's invariants wherever it completes. -/
def Stage.KeepsPacker (f : Stage) : Prop := ∀ s t : State, f s = .ok t → PackerInv s → PackerInv t

theorem Stage.KeepsPacker.andThen {f g : Stage} (hf : f.KeepsPacker) (hg : g.KeepsPacker) :
    (f.andThen g).KeepsPacker := by
  intro s t h hs
  obtain ⟨u, hu, ht⟩ := (andThen_eq_ok ..).1 h
  exact hg u t ht (hf s u hu hs)

/-- A stage that writes neither the packer nor the phase. -/
theorem StageWrites.keepsPacker {ps : List Piece} {f : Stage} (hf : StageWrites ps f) (hps : SparesPacker ps) :
    f.KeepsPacker := by
  intro s t h hs
  obtain ⟨u, hu, hw⟩ | ⟨r, u, hu, -⟩ := hf s <;> cases hu.symm.trans h
  exact hs.of_writesOnly hw hps

theorem encStage_keepsPacker (c : Fin 3) : (encStage c).KeepsPacker := by
  intro s t h hs
  obtain ⟨k, -, he⟩ | ⟨r, -, -, he⟩ | ⟨p, -, hp, he⟩ := encStage_cases c s <;> cases he.symm.trans h
  intro hphase
  have hok := encodeBlock_packerOk (hs hphase) c
  rw [hp] at hok
  exact hok

theorem blkStage_keepsPacker (c : Fin 3) : (blkStage c).KeepsPacker :=
  .andThen ((fdctStage_writes c).keepsPacker (by simp [SparesPacker]))
    (.andThen ((qzzStage_writes c).keepsPacker (by simp [SparesPacker])) (encStage_keepsPacker c))

theorem mcuStage_keepsPacker : mcuStage.KeepsPacker :=
  .andThen (blkStage_keepsPacker 0) (.andThen (blkStage_keepsPacker 1) (blkStage_keepsPacker 2))

/-- A command that runs a stage: either the stage completes or `FAULTED` is entered. -/
theorem finish_packerInv {ps : List Piece} {f : Stage} (hw : StageWrites ps f) (hf : f.KeepsPacker) {s t : State}
    (h : finish (f s) = .next t) (hs : PackerInv s) : PackerInv t := by
  obtain ⟨u, hu, -⟩ | ⟨r, u, hu, -⟩ := hw s <;> rw [hu] at h <;> cases h
  · exact hf s u hu hs
  · exact packerInv_enterFault r u

/-! ### Steps -/

theorem packerInv_reset : PackerInv State.reset :=
  have ⟨_, hpacker, _⟩ := invariantsAtReset
  hpacker

theorem closeImage_packerOk (pad : Bool) {s : State} (hs : PackerOk s.packer) : PackerOk (closeImage pad s).packer := by
  cases pad with
  | false => exact hs
  | true => exact hs.pad1

/-- `START` empties the packer, `END`, `PUTBITS` and the coding stages push groups of bits, no other run writes it. -/
theorem packerInv_keptByStep : KeptByStep PackerInv where
  port _ _ hs := hs
  respond _ _ hs := hs
  reset _ _ := packerInv_reset
  image _ _ hs := hs
  fault r s _ _ := packerInv_enterFault r s
  run i s t hi ha h hs := by
    cases i
    case start =>
      cases h
      exact fun _ => packerInv_reset nofun
    case endImage pad =>
      obtain ⟨himage, -⟩ := ha
      have hok := closeImage_packerOk pad (hs (by simp [himage]))
      cases h
      exact fun _ => hok
    case putbits n v =>
      cases h
      exact fun hphase => (hs hphase).putBits _ _
    case enc c => exact finish_packerInv (encStage_writes _) (encStage_keepsPacker _) h hs
    case blk c => exact finish_packerInv (blkStage_writes _) (blkStage_keepsPacker _) h hs
    case mcu => exact finish_packerInv mcuStage_writes mcuStage_keepsPacker h hs
    case ld buf c k value =>
      cases buf <;> exact (runOf_writes hi h).packerInv hs (by simp [SparesPacker, writtenBy])
    all_goals exact (runOf_writes hi h).packerInv hs (by simp [SparesPacker, writtenBy])

/-- Settles O56, by `packerInv_keptByStep`. -/
theorem stepKeepsPackerInv : Obligations.StepKeepsPackerInv := fun _ _ hs h => packerInv_keptByStep.step h hs

end Sys2Proof.Machine
end

section
/-! SUPPORT. The phase machine (46_session_commands.md R160, R161): what the phase table refuses, the phase an
accepted command leaves, the transitions, and the record of responses along every step (R181). -/

namespace Sys2Proof.Machine

/-! ### Phases -/

/-- A command that neither opens nor closes an image leaves the phase, unless it takes a fault. -/
theorem AnsweredWriting.phase_cases {ps : List Piece} {s t : State} (h : AnsweredWriting ps s t) (hps : .phase ∉ ps) :
    t.phase = s.phase ∨ (t.phase = .faulted ∧ t.responses = .fault :: s.responses) := by
  obtain ⟨u, hw, ⟨r, rfl⟩ | ⟨r, rfl⟩⟩ := h
  · exact .inl (hw.same .phase hps)
  · exact .inr ⟨rfl, by simp [hw.responses]⟩

/-- A command's own run leaves the phase of the third column of R160, unless it takes a fault. -/
theorem runOf_phase {i : Instr} {s t : State} (h : runOf i s = .next t) :
    t.phase = phaseAfter i s.phase ∨ (t.phase = .faulted ∧ t.responses = .fault :: s.responses) := by
  cases i with
  | reset | start =>
    cases h
    exact .inl rfl
  | endImage pad =>
    cases h
    exact .inl rfl
  | ld buf c k value => cases buf <;> exact (runOf_writes (by nofun) h).phase_cases (by simp [writtenBy])
  | blk c | mcu => exact (runOf_writes (by nofun) h).phase_cases (by simp [writtenBy, blkPieces])
  | _ => exact (runOf_writes (by nofun) h).phase_cases (by simp [writtenBy])

/-- `phaseAfter` is one of the transitions of R161. -/
theorem phaseAfter_cases {i : Instr} {s : State} (ha : AcceptedByTable i s) :
    phaseAfter i s.phase = s.phase ∨ (s.phase = .idle ∧ i = .start ∧ phaseAfter i s.phase = .image) ∨
      (s.phase = .image ∧ (∃ pad, i = .endImage pad) ∧ phaseAfter i s.phase = .idle) ∨
      (i = .reset ∧ phaseAfter i s.phase = .idle) := by
  cases i with
  | reset => exact .inr (.inr (.inr ⟨rfl, rfl⟩))
  | start => exact .inr (.inl ⟨ha.1, rfl, rfl⟩)
  | endImage pad => exact .inr (.inr (.inl ⟨ha.1, ⟨pad, rfl⟩, rfl⟩))
  | _ => exact .inl rfl

/-- A response `FAULT` with phase `FAULTED`: a fault taken, or the phase was `FAULTED` before. -/
theorem tookFault_or_same {s t : State} (hp : t.phase = .faulted) (hr : t.responses = .fault :: s.responses) :
    t.phase = s.phase ∨ TookFault s t := by
  by_cases hs : s.phase = .faulted
  · exact .inl (hp.trans hs.symm)
  · exact .inr ⟨hs, hp, hr⟩

/-- Every transition that a command makes: that of an accepted command, none, or a fault. -/
theorem exec_phase_cases {i : Instr} {s t : State} (h : exec i s = .next t) :
    (AcceptedByTable i s ∧ t.phase = phaseAfter i s.phase) ∨ t.phase = s.phase ∨ TookFault s t := by
  obtain ⟨-, -, he⟩ | ⟨hs, -, he⟩ | ⟨hs, -, -, he⟩ | ⟨-, ha, he⟩ := exec_cases i s
  · cases he.symm.trans h
    exact .inr (.inl rfl)
  · cases he.symm.trans h
    exact .inr (.inr ⟨hs, rfl, rfl⟩)
  · cases he.symm.trans h
    exact .inr (.inr ⟨hs, rfl, rfl⟩)
  · exact (runOf_phase (he.symm.trans h)).imp (fun hp => ⟨ha, hp⟩) fun ⟨hp, hr⟩ => tookFault_or_same hp hr

/-- No command is accepted into `FAULTED`. -/
theorem phaseAfter_ne_faulted (i : Instr) {p : Phase} (hp : p ≠ .faulted) : phaseAfter i p ≠ .faulted := by
  cases i with
  | reset | start => nofun
  | endImage pad => nofun
  | _ => exact hp

/-! ### The phase table -/

theorem step_illegal_faulted {s : State} {w : CommandWord} {rest : List HostMove} (hp : s.phase = .faulted)
    (hport : s.port = .command w :: rest) (hw : ¬ LegalWord w) :
    step s = .next { s with port := rest, responses := .fault :: s.responses } := by
  cases hdec : decode w with
  | ok i => exact absurd ((exists_decode_eq_ok_iff w).1 ⟨i, hdec⟩) hw
  | error e =>
    rw [step_illegal hport hdec, issueIllegal, if_pos hp]
    rfl

theorem exec_tile_of_no_image {s : State} (hp : s.phase ≠ .faulted) (himg : s.imgvalid = false) (mx my : Half) :
    exec (.tile mx my) s = .next (faultEntry s .precond 0) := by
  rw [exec_accepted (i := .tile mx my) rfl hp, runOf, runTile, if_pos himg, takeFault_eq]

/-- Settles O7: the order of checks, then the third column for what a command's own run leaves. -/
theorem phaseTable : Obligations.PhaseTable := by
  intro i s
  refine ⟨fun hp hw ha => ?_, fun hp ha => ?_, fun w rest => step_illegal_faulted, fun t hw ha h hr => ?_,
    fun mx my hp himg => exec_tile_of_no_image hp himg mx my⟩
  · rw [exec_eq_issue, issue_refused _ hw hp ha, takeFault_eq]
    rfl
  · rw [exec_eq_issue, issue_faulted _ hp ha]
    rfl
  · obtain hphase | ⟨-, hfault⟩ := runOf_phase ((exec_accepted hw ha).symm.trans h)
    · exact hphase
    · exact absurd (by rw [hfault]; rfl) hr

/-- Outside `FAULTED` the response `FAULT` and the phase `FAULTED` go together. -/
theorem fault_answered_iff {i : Instr} {s t : State} (h : exec i s = .next t) (hs : s.phase ≠ .faulted) :
    t.responses.head? = some .fault ↔ t.phase = .faulted := by
  obtain ⟨u, r, hu, hrec, hfault, -, -⟩ := AnswersOnce.exec i s
  cases hu.symm.trans h
  rw [hrec, List.head?_cons, Option.some_inj]
  refine ⟨hfault, fun ht => ?_⟩
  obtain ⟨-, hp⟩ | hp | ⟨-, -, hr⟩ := exec_phase_cases h
  · exact absurd (hp.symm.trans ht) (phaseAfter_ne_faulted i hs)
  · exact absurd (hp.symm.trans ht) hs
  · exact (List.cons.inj (hrec.symm.trans hr)).1

theorem exec_start {s : State} (hp : s.phase = .idle) (hq : s.qvalid = true) (hv : s.hvalid = true) :
    exec .start s = .next (answered (openImage s)) :=
  exec_accepted (i := .start) rfl ⟨hp, hq, hv⟩

theorem exec_endImage {s : State} (pad : Bool) (hp : s.phase = .image) (hc : s.nextc = 0) :
    exec (.endImage pad) s = .next (answered (closeImage pad s)) :=
  exec_accepted (i := .endImage pad) rfl ⟨hp, hc⟩

/-- Settles O8: every transition is one of `phaseAfter` or a fault, and the three commands that move the phase make
theirs. -/
theorem phaseTransitions : Obligations.PhaseTransitions := by
  refine ⟨fun i s t h => ?_, fun i s t => fault_answered_iff, fun s => ⟨_, exec_reset s, rfl⟩,
    fun s hp hq hv => ⟨_, exec_start hp hq hv, rfl, rfl, rfl, rfl⟩, fun s pad hp hc => ⟨_, exec_endImage pad hp hc, ?_⟩⟩
  · obtain ⟨ha, hp⟩ | hp | hfault := exec_phase_cases h
    · rw [hp]
      exact (phaseAfter_cases ha).imp_right (.imp_right (.imp_right .inr))
    · exact .inl hp
    · exact .inr (.inr (.inr (.inl hfault)))
  · cases pad <;> exact ⟨rfl, rfl, rfl, rfl, rfl, rfl⟩

/-! ### The record -/

/-- The record has grown by at most one response. -/
def RecordGrows (s t : State) : Prop := ∃ more : List Response, more.length ≤ 1 ∧ t.responses = more ++ s.responses

theorem RecordGrows.of_same {s t : State} (h : t.responses = s.responses) : RecordGrows s t := ⟨[], Nat.zero_le 1, h⟩

theorem RecordGrows.of_answer {s t : State} {r : Response} (h : t.responses = r :: s.responses) : RecordGrows s t :=
  ⟨[r], Nat.le_refl 1, h⟩

theorem issueIllegal_recordGrows {w : CommandWord} {s t : State} (h : issueIllegal w s = .next t) :
    RecordGrows s t := by
  unfold issueIllegal at h
  split at h <;> cases h <;> exact .of_answer rfl

theorem supplyImage_recordGrows {cells : List Host.Cell} {s t : State} (h : supplyImage cells s = .next t) :
    RecordGrows s t := by
  unfold supplyImage at h
  split at h <;> cases h
  exact .of_same rfl

/-- Whatever the host's move is, the record loses nothing. -/
theorem step_recordGrows {s t : State} (h : step s = .next t) : RecordGrows s t := by
  cases hport : s.port with
  | nil =>
    cases (step_waiting hport).symm.trans h
    exact .of_same rfl
  | cons move rest =>
    cases move with
    | command w =>
      cases hdec : decode w with
      | ok i =>
        obtain ⟨u, r, hu, hrec, -⟩ := AnswersOnce.exec i { s with port := rest }
        cases hu.symm.trans ((step_decoded hport hdec).symm.trans h)
        exact .of_answer hrec
      | error e =>
        have hgrows := issueIllegal_recordGrows ((step_illegal hport hdec).symm.trans h)
        exact hgrows
    | resetInput =>
      cases (step_resetInput hport).symm.trans h
      exact .of_same rfl
    | supplyImage cells =>
      have hgrows := supplyImage_recordGrows ((step_supplyImage hport).symm.trans h)
      exact hgrows

/-- Settles O12: what was in the record stays behind what is added. -/
theorem recordKeepsEveryFault : Obligations.RecordKeepsEveryFault := by
  intro s t h
  obtain ⟨more, hlen, hrec⟩ := step_recordGrows h
  refine ⟨⟨more, hlen, hrec⟩, fun hf => ?_⟩
  rw [RunFaulted, hrec]
  exact List.mem_append_right more hf

end Sys2Proof.Machine
end

section
/-! SUPPORT. Session control and data movement (46_session_commands.md R171, R172, R175): what `START` and `END`
leave, the padding of the last byte (45_bit_packer.md R155), and the entry that `LD` writes. -/

namespace Sys2Proof.Machine

/-! ### `START` -/

/-- Settles O15: `openImage` where the phase table accepts, and its refusal by the order of checks. -/
theorem startOpensImage : Obligations.StartOpensImage := by
  refine fun s => ⟨exec_start, fun hp hno => ?_⟩
  have hrefused : ¬ AcceptedByTable .start s := by
    rintro ⟨hidle, hq, hv⟩
    simp [hidle, hq, hv] at hno
  rw [exec_eq_issue, issue_refused _ rfl hp hrefused, takeFault_eq]
  rfl

/-! ### `END` -/

theorem bitsOf_ones (n : ℕ) : bitsOf n (2 ^ n - 1) = List.replicate n true := by
  refine List.ext_getElem (by simp [bitsOf]) fun k hk _ => ?_
  simp only [bitsOf, List.length_map, List.length_range] at hk
  simp only [bitsOf, List.getElem_map, List.getElem_range, List.getElem_replicate, Nat.testBit_two_pow_sub_one,
    decide_eq_true_eq]
  omega

/-- With no bit pending the register is empty (45_bit_packer.md R153). -/
theorem PackerOk.acc_eq_zero {p : Packer} (hp : PackerOk p) (hcur : p.cur = 0) : p.acc = 0 := by
  obtain ⟨-, hacc, -⟩ := hp
  rw [hcur] at hacc
  exact BitVec.eq_of_toNat_eq ((Nat.mod_eq_of_lt p.acc.isLt).symm.trans hacc)

theorem putBits_cur {p : Packer} {n : ℕ} (hn : n ≠ 0) (v : ℕ) :
    (putBits n v p).cur = BitVec.ofNat 6 ((p.cur.toNat + n) % 8) := by
  rw [putBits_of_ne_zero hn]

/-- `PAD1` completes the last partial byte with 1 bits, after which nothing is pending (R155). -/
theorem pad1_stream {p : Packer} (hp : PackerOk p) :
    (pad1 p).cur = 0 ∧ streamOf (pad1 p) = streamOf p ++ List.replicate ((8 - p.cur.toNat) % 8) true := by
  obtain ⟨hcur, -, -⟩ := id hp
  by_cases h0 : p.cur = 0
  · rw [pad1, if_pos h0]
    exact ⟨h0, by simp [h0]⟩
  · have hne : p.cur.toNat ≠ 0 := fun h => h0 (BitVec.eq_of_toNat_eq h)
    have hfull : p.cur.toNat + (8 - p.cur.toNat) = 8 := by omega
    rw [pad1, if_neg h0]
    refine ⟨by rw [putBits_cur (by omega), hfull]; rfl, ?_⟩
    rw [(putBits_stream hp (by omega) _).2, bitsOf_ones, Nat.mod_eq_of_lt (by omega)]

/-- Settles O16: `END pad=0` writes the phase alone, and `END pad=1` writes the packer after `PAD1` besides. -/
theorem endClosesImage : Obligations.EndClosesImage := by
  refine fun s hp hc => ⟨exec_endImage false hp hc, fun hpacker => ?_⟩
  obtain ⟨hcur, hstream⟩ := pad1_stream hpacker
  obtain ⟨more, hmore⟩ := pad1_out_isPrefix s.packer
  exact ⟨pad1 s.packer, exec_endImage true hp hc, hcur, hpacker.pad1.acc_eq_zero hcur, hpacker.pad1,
    fun h0 => congrArg Packer.out (if_pos h0 : pad1 s.packer = s.packer), ⟨more, hmore.symm⟩, hstream⟩

/-! ### `LD` -/

theorem exec_ld {s : State} {buf : Buffer} {c : Fin 3} {i : Fin 64} {value : Word} (hp : s.phase ≠ .faulted)
    (hw : (Instr.ld buf (byteOf c.val) (byteOf i.val) value).WellFormed) :
    exec (.ld buf (byteOf c.val) (byteOf i.val) value) s = .next (answered (loadEntry buf c i value s)) := by
  rw [exec_accepted (i := .ld buf _ _ value) hw hp, runOf, component_byteOf, index64_byteOf]
  rfl

/-- Any 32-bit pattern is a legal value for `S` and `C`. -/
theorem ld_num_wellFormed {buf : Buffer} (hbuf : buf ≠ .zz) (c : Fin 3) (i : Fin 64) (value : Word) :
    (Instr.ld buf (byteOf c.val) (byteOf i.val) value).WellFormed := by
  simp [Instr.WellFormed, Instr.wf, componentOk_byteOf, indexOk_byteOf, hbuf]

/-- A legal value for `Z` has its upper half zero (30_encoding.md R62). -/
theorem ld_zz_wellFormed {value : Word} (hv : value.toNat < 2 ^ 16) (c : Fin 3) (i : Fin 64) :
    (Instr.ld .zz (byteOf c.val) (byteOf i.val) value).WellFormed := by
  have hhigh : value.extractLsb' 16 16 = 0#16 := (high_eq_zero_iff value).2 hv
  simp [Instr.WellFormed, Instr.wf, componentOk_byteOf, indexOk_byteOf, hhigh]

/-- Settles O29: the entry of `S` or `C` is the pattern itself, that of `Z` its low half. -/
theorem ldWritesOneEntry : Obligations.LdWritesOneEntry := by
  refine fun s c i value hp => ⟨⟨.code value, exec_ld hp (ld_num_wellFormed (by decide) c i value), rfl, rfl⟩,
    ⟨.code value, exec_ld hp (ld_num_wellFormed (by decide) c i value), rfl, rfl⟩, fun hv => ?_⟩
  have hhalf : loadedHalf value = value.setWidth 16 := (BitVec.setWidth_eq_extractLsb' (by decide)).symm
  rw [exec_ld hp (ld_zz_wellFormed hv c i), loadEntry, hhalf]
  rfl

end Sys2Proof.Machine
end

section
/-! SUPPORT. The canonical session (46_session_commands.md R180, 30_encoding.md R66): the raster order of its tiles
(47_frontend.md R191) in closed form. -/

namespace Sys2Proof.Machine

/-- Rows of length `a` laid end to end: entry `n` lies in row `n / a` at column `n % a`. -/
theorem flatMap_range_map {α : Type} (f : ℕ → ℕ → α) (a b : ℕ) :
    ((List.range b).flatMap fun y => (List.range a).map (f y)) =
      (List.range (a * b)).map fun n => f (n / a) (n % a) := by
  induction b with
  | zero => rfl
  | succ b ih =>
    have hrow : (List.range a).map (f b) = (List.range a).map fun x => f ((a * b + x) / a) ((a * b + x) % a) := by
      refine List.map_congr_left fun x hx => ?_
      have hx : x < a := List.mem_range.1 hx
      rw [Nat.mul_add_div (by omega), Nat.mul_add_mod, Nat.div_eq_of_lt hx, Nat.mod_eq_of_lt hx, Nat.add_zero]
    rw [List.range_succ, List.flatMap_append, ih, List.flatMap_singleton, hrow, Nat.mul_succ, List.range_add,
      List.map_append, List.map_map]
    rfl

theorem rasterTiles_eq (w h : Half) : rasterTiles w h = (List.range (tilesAcross w * tilesAcross h)).map fun n =>
    (BitVec.ofNat 16 (n % tilesAcross w), BitVec.ofNat 16 (n / tilesAcross w)) :=
  flatMap_range_map (fun my mx => (BitVec.ofNat 16 mx, BitVec.ofNat 16 my)) _ _

theorem tilesAcross_lt (n : Half) : tilesAcross n < 2 ^ 16 := by
  have := n.isLt
  unfold tilesAcross
  omega

/-- A number below that of the tiles is a coordinate, and it names a tile that begins inside the image. -/
theorem toNat_tileIndex {m : ℕ} {n : Half} (hm : m < tilesAcross n) :
    (BitVec.ofNat 16 m).toNat = m ∧ 8 * (BitVec.ofNat 16 m).toNat < n.toNat := by
  have hnat : (BitVec.ofNat 16 m).toNat = m := Nat.mod_eq_of_lt (hm.trans (tilesAcross_lt n))
  exact ⟨hnat, (lt_tilesAcross_iff _ n).1 (hnat.symm ▸ hm)⟩

theorem canonicalSession_wellFormed (level : Half) (strat : Strategy) (w h : Half) (pad : Bool) :
    ∀ i ∈ canonicalSession level strat w h pad, i.WellFormed := by
  have htiles : ∀ i ∈ tileLoop w h, i.WellFormed := by
    simp only [tileLoop, List.mem_flatMap]
    rintro i ⟨t, -, hi⟩
    obtain rfl | rfl : i = .tile t.1 t.2 ∨ i = .mcu := by simpa using hi
    · rfl
    · rfl
  intro i hi
  simp only [canonicalSession, List.mem_append] at hi
  obtain (hi | hi) | hi := hi
  · revert i
    simp [Instr.WellFormed, Instr.wf]
  · exact htiles i hi
  · obtain rfl := List.mem_singleton.1 hi
    rfl

/-- Settles O60: the tiles in closed form, one for each number below that of the tiles. -/
theorem canonicalSessionTiles : Obligations.CanonicalSessionTiles := by
  intro level strat w h pad _ _
  refine ⟨canonicalSession_wellFormed level strat w h pad, ?_, fun n hn => ?_, rfl⟩
  · rw [rasterTiles_eq, List.length_map, List.length_range]
    rfl
  · rw [rasterTiles_eq, List.length_map, List.length_range] at hn
    have hpos : 0 < tilesAcross w := Nat.pos_of_mul_pos_right (Nat.zero_lt_of_lt hn)
    obtain ⟨hx, hxlt⟩ := toNat_tileIndex (Nat.mod_lt n hpos)
    obtain ⟨hy, hylt⟩ := toNat_tileIndex (Nat.div_lt_of_lt_mul hn)
    refine ⟨_, _, by rw [rasterTiles_eq, List.getElem?_map, List.getElem?_range hn]; rfl, hxlt, hylt, ?_⟩
    rw [hx, hy]
    exact (Nat.div_add_mod' n (tilesAcross w)).symm

end Sys2Proof.Machine
end

section
/-! SUPPORT. The pipeline's stages where they complete (40_dct.md R90, 42_quantizer_zigzag.md R111,
44_entropy_coder.md R130): when they do, and the state they then leave. -/

namespace Sys2Proof.Machine

theorem StageWrites.of_ok {ps : List Piece} {f : Stage} (hf : StageWrites ps f) {s t : State} (h : f s = .ok t) :
    WritesOnly ps s t := by
  obtain ⟨v, hv, hw⟩ | ⟨r, v, hv, -⟩ := hf s <;> cases hv.symm.trans h
  exact hw

/-- The state after `FDCT c` has written `COEF[c]` and used up its draws. -/
def withCoef (c : Fin 3) (b : Block NumValue) (s : State) : State :=
  { s with coef := s.coef.set c.val b, draws := s.draws + 64 }

/-- The state after `QZZ c` has written `ZZ[c]` and used up its draws. -/
def withZz (c : Fin 3) (b : Block Half) (s : State) : State :=
  { s with zz := s.zz.set c.val b, draws := s.draws + 64 }

theorem getElem_set_of_ne {α : Type} {n : ℕ} (v : Vector α n) {c c' : Fin n} (h : c ≠ c') (x : α) :
    (v.set c.val x c.isLt)[c'] = v[c'] :=
  Vector.getElem_set_ne c.isLt c'.isLt fun hval => h (Fin.ext hval)

theorem withCoef_coef_same (c : Fin 3) (b : Block NumValue) (s : State) : (withCoef c b s).coef[c] = b :=
  Vector.getElem_set_self c.isLt

theorem withCoef_coef_of_ne {c c' : Fin 3} (h : c ≠ c') (b : Block NumValue) (s : State) :
    (withCoef c b s).coef[c'] = s.coef[c'] := getElem_set_of_ne s.coef h b

theorem withZz_zz_same (c : Fin 3) (b : Block Half) (s : State) : (withZz c b s).zz[c] = b :=
  Vector.getElem_set_self c.isLt

theorem withZz_zz_of_ne {c c' : Fin 3} (h : c ≠ c') (b : Block Half) (s : State) :
    (withZz c b s).zz[c'] = s.zz[c'] := getElem_set_of_ne s.zz h b

theorem fdctStage_eq_ok {c : Fin 3} {s t : State} : fdctStage c s = .ok t ↔
    firstBot s.samp[c] = none ∧ withCoef c (transformBlock s.params s.strat s.draws s.samp[c]) s = t := by
  obtain ⟨i, hbot, he⟩ | ⟨hbot, he⟩ := fdctStage_cases c s <;> rw [he, hbot]
  · simp
  · simp [withCoef]

theorem qzzStage_eq_ok {c : Fin 3} {s t : State} : qzzStage c s = .ok t ↔ firstBot s.coef[c] = none ∧
    quantTableBot s c = none ∧ firstBot (quantBlock s c) = none ∧ withZz c (toZigzag (quantBlock s c)) s = t := by
  obtain ⟨i, hbot, he⟩ | ⟨r, -, htab, he⟩ | ⟨i, -, -, hquant, he⟩ | ⟨hbot, htab, hquant, he⟩ := qzzStage_cases c s
  · rw [he, hbot]
    simp
  · simp [he, htab]
  · simp [he, hquant]
  · rw [he, hbot]
    simp [htab, hquant, withZz]

theorem encStage_eq_ok {c : Fin 3} {s t : State} : encStage c s = .ok t ↔
    firstBot s.zz[c] = none ∧ ∃ p, encodeBlock s c = .ok p ∧ encoded c p s = t := by
  obtain ⟨k, hbot, he⟩ | ⟨r, -, hblock, he⟩ | ⟨p, hbot, hblock, he⟩ := encStage_cases c s
  · rw [he, hbot]
    simp
  · simp [he, hblock]
  · rw [he, hbot]
    simp [hblock]

end Sys2Proof.Machine
end

section
/-! SUPPORT. The composite commands (46_session_commands.md R173, R174) as their parts given one by one: a stage
neither reads nor writes the record, so stages in a row answer what the last command of the row answers. -/

namespace Sys2Proof.Machine

/-! ### The record -/

/-- Both results of a stage changed alike. -/
def mapResult (k : State → State) : Except State State → Except State State
  | .ok t => .ok (k t)
  | .error t => .error (k t)

/-- The stage does the same whatever response was given before it. -/
def Stage.SparesRecord (f : Stage) : Prop := ∀ (r : Response) (s : State), f (respond r s) = mapResult (respond r) (f s)

theorem Stage.SparesRecord.andThen {f g : Stage} (hf : f.SparesRecord) (hg : g.SparesRecord) :
    (f.andThen g).SparesRecord := by
  intro r s
  simp only [Stage.andThen, hf r s]
  cases f s with
  | ok t => exact hg r t
  | error t => rfl

theorem fdctStage_sparesRecord (c : Fin 3) : (fdctStage c).SparesRecord := by
  intro r s
  unfold fdctStage
  rw [respond_samp]
  cases firstBot s.samp[c] <;> rfl

theorem qzzStage_sparesRecord (c : Fin 3) : (qzzStage c).SparesRecord := by
  intro r s
  have htab : quantTableBot (respond r s) c = quantTableBot s c := rfl
  have hquant : quantBlock (respond r s) c = quantBlock s c := rfl
  unfold qzzStage
  rw [respond_coef, htab, hquant]
  cases firstBot s.coef[c] with
  | some i => rfl
  | none =>
    cases quantTableBot s c with
    | some x => rfl
    | none =>
      dsimp only
      cases firstBot (quantBlock s c) <;> rfl

theorem afterEncFault_respond (x : Raise) (r : Response) (s : State) :
    afterEncFault x (respond r s) = respond r (afterEncFault x s) := by
  unfold afterEncFault
  split <;> rfl

theorem encStage_sparesRecord (c : Fin 3) : (encStage c).SparesRecord := by
  intro r s
  have hblock : encodeBlock (respond r s) c = encodeBlock s c := rfl
  unfold encStage
  rw [respond_zz, hblock]
  cases firstBot s.zz[c] with
  | some k => rfl
  | none =>
    cases encodeBlock s c with
    | error x => exact congrArg (fun t => Except.error (enterFault x t)) (afterEncFault_respond x r s)
    | ok p => rfl

theorem blkStage_sparesRecord (c : Fin 3) : (blkStage c).SparesRecord :=
  (fdctStage_sparesRecord c).andThen ((qzzStage_sparesRecord c).andThen (encStage_sparesRecord c))

/-! ### Two stages as two commands -/

/-- `t` with one response to what the core was given in `s`: the one that fits its phase. -/
def answerTo (s t : State) : State :=
  { t with responses := (if t.phase = .faulted then .fault else .ok) :: s.responses }

section
variable {ps qs : List Piece} {f g : Stage} (hf : StageWrites ps f) {s t u : State}
include hf

/-- What the answer to a stage says of the stage. -/
theorem finish_cases (h : finish (f s) = .next t) :
    (∃ v, f s = .ok v ∧ t = respond .ok v ∧ WritesOnly ps s v) ∨
    (∃ v, f s = .error v ∧ t = respond .fault v ∧ v.phase = .faulted) := by
  obtain ⟨v, hv, hw⟩ | ⟨r, v, hv, hw⟩ := hf s <;> rw [hv] at h <;> cases h
  · exact .inl ⟨v, hv, rfl, hw⟩
  · exact .inr ⟨_, hv, rfl, rfl⟩

theorem finish_completed (h : finish (f s) = .next t) (ht : t.phase ≠ .faulted) :
    ∃ v, f s = .ok v ∧ t = respond .ok v ∧ WritesOnly ps s v := by
  obtain hok | ⟨v, -, rfl, hphase⟩ := finish_cases hf h
  · exact hok
  · exact absurd hphase ht

/-- A fault of the first stage is the fault of both. -/
theorem finish_andThen_of_fault (hps : .phase ∉ ps) (hs : s.phase ≠ .faulted) (h : finish (f s) = .next t)
    (ht : t.phase = .faulted) : finish ((f.andThen g) s) = .next t := by
  obtain ⟨v, -, rfl, hw⟩ | ⟨v, hv, rfl, -⟩ := finish_cases hf h
  · exact absurd ((hw.same .phase hps).symm.trans ht) hs
  · rw [Stage.andThen, hv]
    rfl

/-- Where the first stage completes, both in a row leave what the second one then leaves. -/
theorem finish_andThen (hg : StageWrites qs g) (hqs : .phase ∉ qs) (hrec : g.SparesRecord)
    (h : finish (f s) = .next t) (ht : t.phase ≠ .faulted) (h' : finish (g t) = .next u) :
    finish ((f.andThen g) s) = .next (answerTo s u) := by
  obtain ⟨v, hv, rfl, hvw⟩ := finish_completed hf h ht
  rw [hrec] at h'
  rw [Stage.andThen, hv]
  dsimp only
  obtain ⟨w, hw, hww⟩ | ⟨r, w, hw, hww⟩ := hg v <;> rw [hw] at h' ⊢ <;> cases h'
  · have hphase : w.phase ≠ .faulted := (hww.same .phase hqs : w.phase = v.phase) ▸ ht
    simp [answerOk, answerTo, respond, hphase, hww.responses, hvw.responses]
  · simp [answerTo, respond, hww.responses, hvw.responses]

end

theorem answerTo_of_fault {s t : State} (ht : t.phase = .faulted) :
    answerTo s t = { t with responses := .fault :: s.responses } := by
  rw [answerTo, if_pos ht]

section
variable {ps qs rs : List Piece} {f g h : Stage} {s s1 : State}

/-- Three stages in a row against three commands: what the first fault stops, and what the last command leaves. -/
theorem finish_three (hf : StageWrites ps f) (hg : StageWrites qs g) (hh : StageWrites rs h) (hps : .phase ∉ ps)
    (hqs : .phase ∉ qs) (hrs : .phase ∉ rs) (hgrec : g.SparesRecord) (hhrec : h.SparesRecord) (hs : s.phase ≠ .faulted)
    (h1 : finish (f s) = .next s1) :
    (s1.phase = .faulted → finish ((f.andThen (g.andThen h)) s) = .next s1) ∧
    (s1.phase ≠ .faulted → ∀ s2, finish (g s1) = .next s2 →
      (s2.phase = .faulted →
        finish ((f.andThen (g.andThen h)) s) = .next { s2 with responses := .fault :: s.responses }) ∧
      (s2.phase ≠ .faulted → ∀ s3, finish (h s2) = .next s3 →
        finish ((f.andThen (g.andThen h)) s) = .next (answerTo s s3))) := by
  have hgh : StageWrites (qs ++ rs) (g.andThen h) :=
    (hg.mono (List.subset_append_left ..)).andThen (hh.mono (List.subset_append_right ..))
  have hghs : .phase ∉ qs ++ rs := by simp [hqs, hrs]
  have hghrec := hgrec.andThen hhrec
  refine ⟨finish_andThen_of_fault hf hps hs h1, fun hn1 s2 h2 => ⟨fun hf2 => ?_, fun hn2 s3 h3 => ?_⟩⟩
  · rw [finish_andThen hf hgh hghs hghrec h1 hn1 (finish_andThen_of_fault hg hqs hn1 h2 hf2), answerTo_of_fault hf2]
  · have hrest := finish_andThen hg hh hrs hhrec h2 hn2 h3
    rw [finish_andThen hf hgh hghs hghrec h1 hn1 hrest]
    rfl

end

/-! ### `BLK` -/

theorem exec_fdct_eq {s : State} {c : Fin 3} (hp : s.phase ≠ .faulted) (hq : s.qvalid = true) :
    exec (.fdct (byteOf c.val)) s = finish (fdctStage c s) := by
  rw [exec_accepted (i := .fdct (byteOf c.val)) (componentOk_byteOf c) ⟨hp, hq⟩, runOf, component_byteOf]

theorem exec_blk {s : State} {c : Fin 3} (hp : s.phase = .image) (hc : s.nextc = c) :
    exec (.blk (byteOf c.val)) s = finish (blkStage c s) := by
  have hnext : (byteOf c.val).toNat = s.nextc.val := by rw [toNat_byteOf (by omega), hc]
  rw [exec_accepted (i := .blk (byteOf c.val)) (componentOk_byteOf c) ⟨hp, hnext⟩, runOf, component_byteOf]

/-- Settles O50: what the phase table asks of `QZZ` and of `ENC` holds behind a stage that completed. -/
theorem blkIsThreeCommands : Obligations.BlkIsThreeCommands := by
  intro s s1 c hp hc hq h1
  have hs : s.phase ≠ .faulted := by simp [hp]
  rw [exec_fdct_eq hs hq] at h1
  obtain ⟨hfault, hrest⟩ := finish_three (fdctStage_writes c) (qzzStage_writes c) (encStage_writes c) (by simp)
    (by simp) (by simp) (qzzStage_sparesRecord c) (encStage_sparesRecord c) hs h1
  rw [exec_blk hp hc]
  refine ⟨hfault, fun hn1 s2 h2 => ?_⟩
  obtain ⟨v1, -, rfl, hw1⟩ := finish_completed (fdctStage_writes c) h1 hn1
  have hq1 : (respond .ok v1).qvalid = true := (hw1.same .qvalid (by simp)).trans hq
  have hp1 : (respond .ok v1).phase = .image := (hw1.same .phase (by simp)).trans hp
  have hc1 : (respond .ok v1).nextc = c := (hw1.same .nextc (by simp)).trans hc
  rw [exec_qzz hn1 hq1] at h2
  obtain ⟨hfault, hrest⟩ := hrest hn1 s2 h2
  refine ⟨hfault, fun hn2 s3 h3 => ?_⟩
  obtain ⟨v2, -, rfl, hw2⟩ := finish_completed (qzzStage_writes c) h2 hn2
  have hp2 : (respond .ok v2).phase = .image := (hw2.same .phase (by simp)).trans hp1
  have hc2 : (respond .ok v2).nextc = c := (hw2.same .nextc (by simp)).trans hc1
  rw [exec_enc hp2 hc2] at h3
  exact hrest hn2 s3 h3

/-! ### `MCU` -/

theorem exec_mcu {s : State} (hp : s.phase = .image) (hc : s.nextc = 0) : exec .mcu s = finish (mcuStage s) :=
  exec_accepted (i := .mcu) rfl ⟨hp, hc⟩

/-- A stage that codes a block moves `NEXTC` on, and component 2 counts the MCU (44_entropy_coder.md R130). -/
theorem encStage_counts {c : Fin 3} {s t : State} (h : encStage c s = .ok t) :
    t.nextc = s.nextc + 1 ∧ t.mcucnt = if c = 2 then s.mcucnt + 1 else s.mcucnt := by
  obtain ⟨-, p, -, rfl⟩ := encStage_eq_ok.1 h
  exact ⟨rfl, rfl⟩

theorem blkStage_counts {c : Fin 3} {s t : State} (h : blkStage c s = .ok t) :
    t.nextc = s.nextc + 1 ∧ t.mcucnt = if c = 2 then s.mcucnt + 1 else s.mcucnt := by
  obtain ⟨u, hu, h⟩ := (andThen_eq_ok ..).1 h
  obtain ⟨v, hv, h⟩ := (andThen_eq_ok ..).1 h
  have hu := (fdctStage_writes c).of_ok hu
  have hv := (qzzStage_writes c).of_ok hv
  have hn : v.nextc = s.nextc := (hv.same .nextc (by simp)).trans (hu.same .nextc (by simp))
  have hm : v.mcucnt = s.mcucnt := (hv.same .mcucnt (by simp)).trans (hu.same .mcucnt (by simp))
  obtain ⟨hn', hm'⟩ := encStage_counts h
  exact ⟨by rw [hn', hn], by rw [hm', hm]⟩

/-- What a `BLK` that completes leaves of the sequencing state. -/
theorem blk_completed {c : Fin 3} {s t : State} (hp : s.phase = .image) (hc : s.nextc = c)
    (h : finish (blkStage c s) = .next t) (ht : t.phase ≠ .faulted) :
    t.phase = .image ∧ t.nextc = c + 1 ∧ t.mcucnt = if c = 2 then s.mcucnt + 1 else s.mcucnt := by
  obtain ⟨v, hv, rfl, hw⟩ := finish_completed (blkStage_writes c) h ht
  obtain ⟨hn, hm⟩ := blkStage_counts hv
  exact ⟨(hw.same .phase (by simp [blkPieces])).trans hp, hc ▸ hn, hm⟩

/-- Settles O51: each `BLK` that completes leaves `NEXTC` where the phase table asks for the next one. -/
theorem mcuIsThreeBlocks : Obligations.McuIsThreeBlocks := by
  intro s s1 hp hc h1
  have hs : s.phase ≠ .faulted := by simp [hp]
  have hphase : .phase ∉ blkPieces := by simp [blkPieces]
  replace h1 := (exec_blk (c := 0) hp hc).symm.trans h1
  obtain ⟨hfault, hrest⟩ := finish_three (blkStage_writes 0) (blkStage_writes 1) (blkStage_writes 2) hphase hphase
    hphase (blkStage_sparesRecord 1) (blkStage_sparesRecord 2) hs h1
  rw [exec_mcu hp hc]
  refine ⟨hfault, fun hn1 s2 h2 => ?_⟩
  obtain ⟨hp1, hc1, hm1⟩ := blk_completed hp hc h1 hn1
  replace h2 := (exec_blk (c := 1) hp1 hc1).symm.trans h2
  obtain ⟨hfault, hrest⟩ := hrest hn1 s2 h2
  refine ⟨hfault, fun hn2 s3 h3 => ?_⟩
  obtain ⟨hp2, hc2, hm2⟩ := blk_completed hp1 hc1 h2 hn2
  replace h3 := (exec_blk (c := 2) hp2 hc2).symm.trans h3
  refine ⟨hrest hn2 s3 h3, fun hn3 => ?_⟩
  obtain ⟨-, hc3, hm3⟩ := blk_completed hp2 hc2 h3 hn3
  exact ⟨hc3, by rw [hm3, hm2, hm1]; rfl⟩

end Sys2Proof.Machine
end

section
/-! SUPPORT. The stages of an MCU in another order (46_session_commands.md R174): in the exact model the draws do not
matter, so a stage may be moved in front of stages of other components that do not feed it. -/

namespace Sys2Proof.Machine

/-! ### The exact model -/

/-- With tolerance 0 no draw is a deviation (00_scope.md R7). -/
theorem deviated_zero (draw reference : Alg) : deviated 0 draw reference = Alg.norm (Alg.add reference Alg.zero) := rfl

theorem transformed_exact {p : Params} (hp : p.epsDct = 0) (strat : Strategy) (samples : Prepared) (n n' : ℕ)
    (i : Fin 64) : transformed p strat samples n i = transformed p strat samples n' i := by
  simp only [transformed, hp, deviated_zero]

theorem transformBlock_exact {p : Params} (hp : p.epsDct = 0) {b : Block NumValue} (hb : blockValues p.fmt b ≠ none)
    (strat : Strategy) (n n' : ℕ) : transformBlock p strat n b = transformBlock p strat n' b := by
  obtain ⟨samples, hsamples⟩ := Option.ne_none_iff_exists'.1 hb
  refine Vector.ext fun i hi => ?_
  rw [transformBlock, transformBlock, hsamples]
  simp only [tabulate_getElem, transformed_exact hp strat _ (n + i) (n' + i)]

theorem quotient_exact {p : Params} (hp : p.epsQ = 0) (n n' : ℕ) (q : Alg) : quotient p n q = quotient p n' q := by
  simp only [quotient, hp, deviated_zero]

/-- The quantised block, from what it is made of but the draws. -/
theorem quantBlock_exact {s u : State} {c : Fin 3} (hp : s.params.epsQ = 0) (hparams : u.params = s.params)
    (hstrat : u.strat = s.strat) (hqtab : u.qtab = s.qtab) (hfscale : u.fscale = s.fscale)
    (hcoef : u.coef[c] = s.coef[c]) : quantBlock u c = quantBlock s c := by
  have hdirect (n n' : ℕ) (a : NumValue) (d : Byte) : quantDirect s.params n a d = quantDirect s.params n' a d := by
    simp only [quantDirect, quotient_exact hp n n']
  have hfast (n n' : ℕ) (a f : NumValue) : quantFast s.params n a f = quantFast s.params n' a f := by
    simp only [quantFast, quotient_exact hp n n']
  simp only [quantBlock, hparams, hstrat, hqtab, hfscale, hcoef, hdirect _ 0, hfast _ 0]

/-- A coefficient that is not a finite number has no quantised value (42_quantizer_zigzag.md R114). -/
theorem quantBlock_of_notFinite {s : State} {c : Fin 3} {i : Fin 64} {tag : ℕ}
    (h : s.coef[c][i] = some (.notFinite tag)) : (quantBlock s c)[i] = none := by
  rw [quantBlock, tabulate_getElem_fin, h]
  cases s.strat with
  | direct => cases s.qtab[cls c][zzMap i] <;> rfl
  | fast => cases s.fscale[cls c][i] <;> rfl

/-- A block that passes the quantiser has samples that are all finite. -/
theorem blkStage_finite {c : Fin 3} {s t : State} (h : blkStage c s = .ok t) :
    blockValues s.params.fmt s.samp[c] ≠ none := by
  obtain ⟨u, hu, h⟩ := (andThen_eq_ok ..).1 h
  obtain ⟨v, hv, -⟩ := (andThen_eq_ok ..).1 h
  intro hnone
  obtain ⟨-, rfl⟩ := fdctStage_eq_ok.1 hu
  obtain ⟨-, -, hquant, -⟩ := qzzStage_eq_ok.1 hv
  refine (firstBot_eq_none _).1 hquant 0 (quantBlock_of_notFinite (tag := s.draws + 0) ?_)
  rw [withCoef_coef_same]
  exact transformBlock_of_none hnone s.strat s.draws 0

/-- The exact model on samples that are all finite. -/
structure ExactFinite (s : State) : Prop where
  epsDct : s.params.epsDct = 0
  epsQ : s.params.epsQ = 0
  finite : ∀ c : Fin 3, blockValues s.params.fmt s.samp[c] ≠ none

theorem ExactFinite.of_writesOnly {ps : List Piece} {s t : State} (hs : ExactFinite s) (hw : WritesOnly ps s t)
    (hps : .samp ∉ ps) : ExactFinite t := by
  obtain ⟨hdct, hq, hfin⟩ := hs
  have hsamp : t.samp = s.samp := hw.same .samp hps
  exact ⟨hw.params ▸ hdct, hw.params ▸ hq, fun c => by rw [hw.params, hsamp]; exact hfin c⟩

theorem exactFinite_of_mcuStage {s t : State} (hdct : s.params.epsDct = 0) (hq : s.params.epsQ = 0)
    (h : mcuStage s = .ok t) : ExactFinite s := by
  obtain ⟨u, hu, h⟩ := (andThen_eq_ok ..).1 h
  obtain ⟨v, hv, hw⟩ := (andThen_eq_ok ..).1 h
  have hsu := (blkStage_writes 0).of_ok hu
  have hsv := hsu.trans ((blkStage_writes 1).of_ok hv)
  have husamp : u.samp = s.samp := hsu.same .samp (by simp [blkPieces])
  have hvsamp : v.samp = s.samp := hsv.same .samp (by simp [blkPieces])
  have h0 := blkStage_finite hu
  have h1 := blkStage_finite hv
  have h2 := blkStage_finite hw
  rw [hsu.params, husamp] at h1
  rw [hsv.params, hvsamp] at h2
  refine ⟨hdct, hq, fun c => ?_⟩
  match c with
  | 0 => exact h0
  | 1 => exact h1
  | 2 => exact h2

/-! ### Stages in another order -/

/-- The stages of a list in a row. -/
def runStages : List Stage → Stage
  | [] => .ok
  | f :: fs => f.andThen (runStages fs)

theorem andThen_assoc (f g h : Stage) : (f.andThen g).andThen h = f.andThen (g.andThen h) := by
  funext s
  simp only [Stage.andThen]
  cases f s <;> rfl

theorem andThen_ok (f : Stage) : f.andThen .ok = f := by
  funext s
  simp only [Stage.andThen]
  cases f s <;> rfl

/-- Where `f` completes in the exact model on finite samples, `g` completes with the same state. -/
def Stage.CompletesAs (f g : Stage) : Prop := ∀ s t : State, ExactFinite s → f s = .ok t → g s = .ok t

def Stage.KeepsExact (f : Stage) : Prop := ∀ s t : State, f s = .ok t → ExactFinite s → ExactFinite t

theorem StageWrites.keepsExact {ps : List Piece} {f : Stage} (hf : StageWrites ps f) (hps : .samp ∉ ps) :
    f.KeepsExact :=
  fun _ _ h hs => hs.of_writesOnly (hf.of_ok h) hps

/-- Whatever is done before, the rest may be done in the other way. -/
theorem Stage.CompletesAs.after {f g : Stage} (h : f.CompletesAs g) {pre : Stage} (hpre : pre.KeepsExact) :
    (pre.andThen f).CompletesAs (pre.andThen g) := by
  intro s t hs hrun
  obtain ⟨u, hu, ht⟩ := (andThen_eq_ok ..).1 hrun
  exact (andThen_eq_ok ..).2 ⟨u, hu, h u t (hpre s u hu hs) ht⟩

/-- A stage may be done before the stages `fs` where it may be done before each of them. -/
theorem runStages_move {fs : List Stage} {g : Stage} (rest : List Stage) (hkeep : ∀ f ∈ fs, f.KeepsExact)
    (hswap : ∀ f ∈ fs, (f.andThen g).CompletesAs (g.andThen f)) :
    (runStages (fs ++ g :: rest)).CompletesAs (runStages (g :: (fs ++ rest))) := by
  induction fs with
  | nil => exact fun _ _ _ h => h
  | cons f fs ih =>
    obtain ⟨hf, hfs⟩ := List.forall_mem_cons.1 hkeep
    obtain ⟨hfg, hfsg⟩ := List.forall_mem_cons.1 hswap
    intro s t hs hrun
    obtain ⟨u, hu, ht⟩ := (andThen_eq_ok ..).1 ((ih hfs hfsg).after hf s t hs hrun)
    obtain ⟨v, hv, ht⟩ := (andThen_eq_ok ..).1 ht
    obtain ⟨u', hu', hv'⟩ := (andThen_eq_ok ..).1 (hfg s v hs ((andThen_eq_ok ..).2 ⟨u, hu, hv⟩))
    exact (andThen_eq_ok ..).2 ⟨u', hu', (andThen_eq_ok ..).2 ⟨v, hv', ht⟩⟩

/-- `runStages_move` behind the stages `pre`. -/
theorem runStages_move_after {pre fs : List Stage} {g : Stage} (rest : List Stage) {s t : State} (hs : ExactFinite s)
    (hpre : ∀ f ∈ pre, f.KeepsExact) (hkeep : ∀ f ∈ fs, f.KeepsExact)
    (hswap : ∀ f ∈ fs, (f.andThen g).CompletesAs (g.andThen f))
    (h : runStages (pre ++ (fs ++ g :: rest)) s = .ok t) : runStages (pre ++ g :: (fs ++ rest)) s = .ok t := by
  induction pre generalizing s with
  | nil => exact runStages_move rest hkeep hswap s t hs h
  | cons f pre ih =>
    obtain ⟨hf, hpre⟩ := List.forall_mem_cons.1 hpre
    obtain ⟨u, hu, h⟩ := (andThen_eq_ok ..).1 h
    exact (andThen_eq_ok ..).2 ⟨u, hu, ih (hf s u hu hs) hpre h⟩

/-! ### Stages of two components -/

/-- `ENC` reads and writes nothing that `FDCT` writes or reads. -/
theorem enc_fdct_swap (c c' : Fin 3) :
    ((encStage c).andThen (fdctStage c')).CompletesAs ((fdctStage c').andThen (encStage c)) := by
  intro s t _ h
  obtain ⟨u, hu, ht⟩ := (andThen_eq_ok ..).1 h
  obtain ⟨hzz, p, hblock, rfl⟩ := encStage_eq_ok.1 hu
  obtain ⟨hsamp, rfl⟩ := fdctStage_eq_ok.1 ht
  exact (andThen_eq_ok ..).2 ⟨_, fdctStage_eq_ok.2 ⟨hsamp, rfl⟩, encStage_eq_ok.2 ⟨hzz, p, hblock, rfl⟩⟩

/-- A block that `QZZ` writes for another component is not the one that `ENC` codes. -/
theorem encodeBlock_withZz {c c' : Fin 3} (hne : c' ≠ c) (b : Block Half) (s : State) :
    encodeBlock (withZz c' b s) c = encodeBlock s c := by
  rw [encodeBlock, withZz_zz_of_ne hne]
  rfl

theorem encoded_withZz {c c' : Fin 3} (hne : c' ≠ c) (b : Block Half) (p : Packer) (s : State) :
    encoded c p (withZz c' b s) = withZz c' b (encoded c p s) := by
  rw [encoded, withZz_zz_of_ne hne]
  rfl

/-- `QZZ` reads nothing that `ENC` writes. -/
theorem enc_qzz_swap {c c' : Fin 3} (hne : c' ≠ c) :
    ((encStage c).andThen (qzzStage c')).CompletesAs ((qzzStage c').andThen (encStage c)) := by
  intro s t _ h
  obtain ⟨u, hu, ht⟩ := (andThen_eq_ok ..).1 h
  obtain ⟨hzz, p, hblock, rfl⟩ := encStage_eq_ok.1 hu
  obtain ⟨hcoef, htab, hquant, rfl⟩ := qzzStage_eq_ok.1 ht
  refine (andThen_eq_ok ..).2 ⟨_, qzzStage_eq_ok.2 ⟨hcoef, htab, hquant, rfl⟩, encStage_eq_ok.2 ⟨?_, p, ?_, ?_⟩⟩
  · rw [withZz_zz_of_ne hne]
    exact hzz
  · rw [encodeBlock_withZz hne]
    exact hblock
  · rw [encoded_withZz hne]
    rfl

/-- `QZZ` and `FDCT` of two components share the draws alone, on which nothing rests in the exact model. -/
theorem qzz_fdct_swap {c c' : Fin 3} (hne : c' ≠ c) :
    ((qzzStage c).andThen (fdctStage c')).CompletesAs ((fdctStage c').andThen (qzzStage c)) := by
  intro s t hs h
  obtain ⟨u, hu, ht⟩ := (andThen_eq_ok ..).1 h
  obtain ⟨hcoef, htab, hquant, rfl⟩ := qzzStage_eq_ok.1 hu
  obtain ⟨hsamp, rfl⟩ := fdctStage_eq_ok.1 ht
  have hkeep (b : Block NumValue) := withCoef_coef_of_ne hne b s
  have hsame (b : Block NumValue) : quantBlock (withCoef c' b s) c = quantBlock s c :=
    quantBlock_exact hs.epsQ rfl rfl rfl rfl (hkeep b)
  have hdraws : transformBlock s.params s.strat (s.draws + 64) s.samp[c'] =
      transformBlock s.params s.strat s.draws s.samp[c'] := transformBlock_exact hs.epsDct (hs.finite c') ..
  refine (andThen_eq_ok ..).2 ⟨_, fdctStage_eq_ok.2 ⟨hsamp, rfl⟩, qzzStage_eq_ok.2 ⟨?_, htab, ?_, ?_⟩⟩
  · rw [hkeep]
    exact hcoef
  · rw [hsame]
    exact hquant
  · rw [hsame, ← hdraws]
    rfl

/-! ### The nine stages -/

theorem blkStage_eq (c : Fin 3) (rest : List Stage) :
    (blkStage c).andThen (runStages rest) = runStages (fdctStage c :: qzzStage c :: encStage c :: rest) := by
  simp only [blkStage, runStages, andThen_assoc]

/-- The stages of an MCU, block by block. -/
theorem mcuStage_eq : mcuStage = runStages [fdctStage 0, qzzStage 0, encStage 0, fdctStage 1, qzzStage 1, encStage 1,
    fdctStage 2, qzzStage 2, encStage 2] := by
  rw [← blkStage_eq, ← blkStage_eq, ← blkStage_eq, runStages, andThen_ok, mcuStage]

@[simp] theorem fdctStage_keepsExact (c : Fin 3) : (fdctStage c).KeepsExact := (fdctStage_writes c).keepsExact (by simp)

@[simp] theorem qzzStage_keepsExact (c : Fin 3) : (qzzStage c).KeepsExact := (qzzStage_writes c).keepsExact (by simp)

@[simp] theorem encStage_keepsExact (c : Fin 3) : (encStage c).KeepsExact := (encStage_writes c).keepsExact (by simp)

/-- Settles O52: `FDCT 1` and `FDCT 2`, then `QZZ 1` and `QZZ 2`, are moved to the front one after another. -/
theorem mcuRunsUnitByUnit : Obligations.McuRunsUnitByUnit := by
  intro s t hdct hq hrun
  have hs := exactFinite_of_mcuStage hdct hq hrun
  rw [mcuStage_eq] at hrun
  have hfdct1 := runStages_move_after (pre := [fdctStage 0]) (fs := [qzzStage 0, encStage 0]) (g := fdctStage 1)
    [qzzStage 1, encStage 1, fdctStage 2, qzzStage 2, encStage 2] hs (by simp) (by simp)
    (by simp [enc_fdct_swap, qzz_fdct_swap]) hrun
  have hfdct2 := runStages_move_after (pre := [fdctStage 0, fdctStage 1])
    (fs := [qzzStage 0, encStage 0, qzzStage 1, encStage 1]) (g := fdctStage 2) [qzzStage 2, encStage 2] hs (by simp)
    (by simp) (by simp [enc_fdct_swap, qzz_fdct_swap]) hfdct1
  have hqzz1 := runStages_move_after (pre := [fdctStage 0, fdctStage 1, fdctStage 2, qzzStage 0]) (fs := [encStage 0])
    (g := qzzStage 1) [encStage 1, qzzStage 2, encStage 2] hs (by simp) (by simp) (by simp [enc_qzz_swap]) hfdct2
  have hqzz2 := runStages_move_after (pre := [fdctStage 0, fdctStage 1, fdctStage 2, qzzStage 0, qzzStage 1])
    (fs := [encStage 0, encStage 1]) (g := qzzStage 2) [encStage 2] hs (by simp) (by simp) (by simp [enc_qzz_swap])
    hqzz1
  simpa only [List.nil_append, List.cons_append, runStages, andThen_ok] using hqzz2

end Sys2Proof.Machine
end

section
/-! SUPPORT. The whole pipeline in the exact model (46_session_commands.md R173, R174): from the real samples of a
block to the bits of its rounded quotients, stage by stage, then the three blocks of an MCU. -/

namespace Sys2Proof.Machine

/-! ### One stage after another -/

/-- In the exact model a coefficient is the scaled reference value itself (40_dct.md R91, R94). -/
theorem transformBlock_is_dctReal {p : Params} (hp : p.epsDct = 0) {b : Block NumValue} {f : ℕ → ℝ}
    (hb : BlockIs p.fmt b f) (strat : Strategy) (n : ℕ) (i : Fin 64) :
    ∃ x : Alg, (transformBlock p strat n b)[i] = some (.real x) ∧
      x.toReal = outputScale strat (i.val % 8) (i.val / 8) * dctReal f (i.val % 8) (i.val / 8) := by
  obtain ⟨g, hg, hf⟩ := blockValues_of_blockIs hb
  refine ⟨_, transformBlock_of_some hg strat n i, ?_⟩
  rw [toReal_transformed, hp, deviated_zero, Alg.toReal_norm, Alg.toReal_add, Alg.toReal_zero, add_zero, toReal_dct2 hf]

/-- With the coefficients of `f` the reference quotient is the transform over its divisor, whatever the strategy. -/
theorem referenceIs_of_divisorsAre {s : State} {c : Fin 3} {d : Fin 64 → Byte} (hd : DivisorsAre s (cls c) d)
    {i : Fin 64} {x : Alg} {r : ℝ} (hcoef : s.coef[c][i] = some (.real x))
    (hx : x.toReal = outputScale s.strat (i.val % 8) (i.val / 8) * r) :
    ReferenceIs s c i (some (r / ((d i).toNat : ℝ))) := by
  obtain ⟨hne, htab⟩ := hd
  refine ⟨.real x, hcoef, fun hs => ?_, fun hs => ?_⟩
  · simp only [hs] at htab
    rw [hs, outputScale, one_mul] at hx
    exact ⟨d i, hne i, htab i, by rw [← hx]; rfl⟩
  · simp only [hs] at htab
    obtain ⟨g, y, hg, hy, hval⟩ := htab i
    refine ⟨g, hg, ?_⟩
    rw [hs, outputScale] at hx
    have hscale := (fastScale_pos i).ne'
    rw [hy]
    simp only [NumValue.value, Option.bind_some, Option.map_some, Option.some_inj]
    rw [hx, hval, mul_one_div, mul_div_mul_left _ _ hscale]

/-- In the exact model an element is the rounded reference quotient (42_quantizer_zigzag.md R112, R113). -/
theorem quantBlock_of_rounded {s : State} {c : Fin 3} {i : Fin 64} {r : ℝ} {z : Half} (hq : s.params.epsQ = 0)
    (href : ReferenceIs s c i (some r)) (hok : QuotientOk s.strat r) (hz : z.toInt = roundBy s.strat r) :
    (quantBlock s c)[i] = some z := by
  have hzero {e : ℝ} (he : |e| ≤ (s.params.epsQ : ℝ)) : e = 0 := by
    rwa [hq, Rat.cast_zero, abs_nonpos_iff] at he
  obtain ⟨z', e, he, hentry, hround⟩ := quantBlock_of_ok hq.ge href fun e he => by rwa [hzero he, add_zero]
  rw [hzero he, add_zero, ← hz] at hround
  rw [hentry, BitVec.eq_of_toInt_eq hround]

/-- `FDCT` on real samples writes their scaled transform. -/
theorem fdctStage_exact {s : State} {c : Fin 3} {f : ℕ → ℝ} (hdct : s.params.epsDct = 0)
    (hsamp : BlockIs s.params.fmt s.samp[c] f) :
    ∃ b : Block NumValue, fdctStage c s = .ok (withCoef c b s) ∧ ∀ i : Fin 64, ∃ x : Alg, b[i] = some (.real x) ∧
      x.toReal = outputScale s.strat (i.val % 8) (i.val / 8) * dctReal f (i.val % 8) (i.val / 8) :=
  ⟨_, fdctStage_eq_ok.2 ⟨(firstBot_eq_none _).2 hsamp.allWritten, rfl⟩,
    transformBlock_is_dctReal hdct hsamp s.strat s.draws⟩

/-- `QZZ` on quotients that all have a value writes them in zig-zag order. -/
theorem qzzStage_exact {s : State} {c : Fin 3} {r : Fin 64 → ℝ} {z : Fin 64 → Half} (hq : s.params.epsQ = 0)
    (href : ∀ i, ReferenceIs s c i (some (r i)))
    (hround : ∀ i, QuotientOk s.strat (r i) ∧ (z (zzMap i)).toInt = roundBy s.strat (r i)) :
    ∃ q : Block Half, qzzStage c s = .ok (withZz c q s) ∧ ∀ k : Fin 64, q[k] = some (z k) := by
  have hquant (i : Fin 64) : (quantBlock s c)[i] = some (z (zzMap i)) :=
    quantBlock_of_rounded hq (href i) (hround i).1 (hround i).2
  obtain ⟨hcoef, htab⟩ := written_of_referenceIs href
  refine ⟨_, qzzStage_eq_ok.2 ⟨hcoef, htab, (firstBot_eq_none _).2 (allWritten_of_eq_some fun i => ⟨_, hquant i⟩), rfl⟩,
    fun k => ?_⟩
  rw [toZigzag, tabulate_getElem_fin, hquant, zzMap_zzInv]

/-- `ENC` on a written block whose items all have codes (44_entropy_coder.md R130). -/
theorem encStage_appends {s : State} {c : Fin 3} {z : Fin 64 → Half} (hpacker : PackerOk s.packer)
    (hz : ∀ k : Fin 64, s.zz[c][k] = some (z k))
    (hcode : ∀ it ∈ blockItems c (List.ofFn fun k => (z k).toInt) s.pred[c].toInt, it.codable s.ehuf) :
    ∃ p : Packer, encStage c s = .ok (encoded c p s) ∧ PackerOk p ∧ s.out <+: p.out ∧
      streamOf p = streamOf s.packer ++ blockBits s.ehuf c (List.ofFn fun k => (z k).toInt) s.pred[c].toInt := by
  obtain ⟨p, hitems, hstream⟩ := codeItems_of_codable c s.packer hcode
  obtain ⟨hok, hbits⟩ := hstream hpacker fun it hit => cat_le_of_mem_blockItems c hit (hcode it hit)
  have hblock : encodeBlock s c = .ok p := (encodeBlock_of_written hz).trans hitems
  have hout : Extends s.packer (.ok p) := hblock ▸ encodeBlock_extends s c
  exact ⟨p, encStage_eq_ok.2 ⟨firstBot_of_written hz, p, hblock, rfl⟩, hok, hout, hbits⟩

/-! ### One block -/

/-- The state after the three stages of component `c`: the coefficients, the quantised block, and the packer that its
items have gone to. -/
def blockCoded (c : Fin 3) (b : Block NumValue) (q : Block Half) (p : Packer) (s : State) : State :=
  encoded c p (withZz c q (withCoef c b s))

/-- `BLK` codes the rounded quotients of the reference transform. -/
theorem blkStage_encodes {s : State} {c : Fin 3} {f : ℕ → ℝ} {d : Fin 64 → Byte} {z : Fin 64 → Half}
    (hdct : s.params.epsDct = 0) (hq : s.params.epsQ = 0) (hpacker : PackerOk s.packer)
    (hready : BlockReady s c f d z) : ∃ (b : Block NumValue) (q : Block Half) (p : Packer),
      blkStage c s = .ok (blockCoded c b q p s) ∧
      (∀ k : Fin 64, q[k] = some (z k)) ∧ PackerOk p ∧ s.out <+: p.out ∧
      streamOf p = streamOf s.packer ++ blockBits s.ehuf c (List.ofFn fun k => (z k).toInt) s.pred[c].toInt := by
  obtain ⟨hsamp, hd, hround, hcode⟩ := hready
  obtain ⟨b, hfdct, hb⟩ := fdctStage_exact hdct hsamp
  have href (i : Fin 64) : ReferenceIs (withCoef c b s) c i
      (some (dctReal f (i.val % 8) (i.val / 8) / ((d i).toNat : ℝ))) := by
    obtain ⟨x, hx, hval⟩ := hb i
    refine referenceIs_of_divisorsAre (s := withCoef c b s) hd ?_ hval
    rw [withCoef_coef_same, hx]
  obtain ⟨q, hqzz, hz⟩ := qzzStage_exact (s := withCoef c b s) hq href hround
  obtain ⟨p, henc, hstream⟩ := encStage_appends (s := withZz c q (withCoef c b s)) hpacker
    (fun k => by rw [withZz_zz_same]; exact hz k) hcode
  exact ⟨b, q, p, (andThen_eq_ok ..).2 ⟨_, hfdct, (andThen_eq_ok ..).2 ⟨_, hqzz, henc⟩⟩, hz, hstream⟩

/-- What `blockCoded` writes, field by field, where `z0` is the DC coefficient. -/
theorem blockCoded_eq {c : Fin 3} {q : Block Half} {z0 : Half} (hq : q[0] = some z0) (b : Block NumValue) (p : Packer)
    (s : State) : blockCoded c b q p s = { s with
      coef := s.coef.set c.val b
      zz := s.zz.set c.val q
      pred := s.pred.set c.val z0
      acc := p.acc
      cur := p.cur
      out := p.out
      nextc := s.nextc + 1
      mcucnt := if c = 2 then s.mcucnt + 1 else s.mcucnt
      draws := s.draws + 64 + 64 } := by
  rw [blockCoded, encoded, withZz_zz_same, hq]
  rfl

/-- Settles O53: the three stages complete, and the phase table asks for this block. -/
theorem blkEncodesBlock : Obligations.BlkEncodesBlock := by
  intro s c f d z hp hc hdct hq hpacker hready
  obtain ⟨b, q, p, hblk, hentry, hok, ⟨more, hmore⟩, hstream⟩ := blkStage_encodes hdct hq hpacker hready
  have hnext : s.nextc + 1 = Fin.ofNat 3 (c.val + 1) := hc ▸ rfl
  refine ⟨b, q, p, s.draws + 64 + 64, ?_, hentry, hok, ⟨more, hmore.symm⟩, hstream⟩
  rw [exec_blk hp hc, hblk, blockCoded_eq (hentry 0), hnext]
  rfl

/-! ### One MCU -/

theorem blockCoded_packer (c : Fin 3) (b : Block NumValue) (q : Block Half) (p : Packer) (s : State) :
    (blockCoded c b q p s).packer = p := rfl

theorem blockCoded_ehuf (c : Fin 3) (b : Block NumValue) (q : Block Half) (p : Packer) (s : State) :
    (blockCoded c b q p s).ehuf = s.ehuf := rfl

theorem blockCoded_pred_of_ne {c c' : Fin 3} (hne : c ≠ c') (b : Block NumValue) (q : Block Half) (p : Packer)
    (s : State) : (blockCoded c b q p s).pred[c'] = s.pred[c'] := getElem_set_of_ne s.pred hne _

/-- Coding one component leaves another one ready. -/
theorem BlockReady.blockCoded {s : State} {c c' : Fin 3} (hne : c ≠ c') {f : ℕ → ℝ} {d : Fin 64 → Byte}
    {z : Fin 64 → Half} (h : BlockReady s c' f d z) (b : Block NumValue) (q : Block Half) (p : Packer) :
    BlockReady (blockCoded c b q p s) c' f d z := by
  unfold BlockReady
  rw [blockCoded_pred_of_ne hne]
  exact h

theorem set_three {α : Type} (v : Vector α 3) (x y z : α) : ((v.set 0 x).set 1 y).set 2 z = #v[x, y, z] := by
  refine Vector.ext fun i hi => ?_
  interval_cases i <;> simp

/-- Settles O54: each block is coded from the state the one before it left. -/
theorem mcuEncodesThreeBlocks : Obligations.McuEncodesThreeBlocks := by
  intro s f d z hp hc hdct hq hpacker hready
  obtain ⟨b0, q0, p0, h0, hz0, hok0, hout0, hstream0⟩ := blkStage_encodes hdct hq hpacker (hready 0)
  have hready1 := (hready 1).blockCoded (c := 0) (by decide) b0 q0 p0
  obtain ⟨b1, q1, p1, h1, hz1, hok1, hout1, hstream1⟩ :=
    blkStage_encodes (s := blockCoded 0 b0 q0 p0 s) hdct hq hok0 hready1
  have hready2 := ((hready 2).blockCoded (c := 0) (by decide) b0 q0 p0).blockCoded (c := 1) (by decide) b1 q1 p1
  obtain ⟨b2, q2, p2, h2, hz2, hok2, hout2, hstream2⟩ :=
    blkStage_encodes (s := blockCoded 1 b1 q1 p1 (blockCoded 0 b0 q0 p0 s)) hdct hq hok1 hready2
  have hmcu : mcuStage s = .ok (blockCoded 2 b2 q2 p2 (blockCoded 1 b1 q1 p1 (blockCoded 0 b0 q0 p0 s))) :=
    (andThen_eq_ok ..).2 ⟨_, h0, (andThen_eq_ok ..).2 ⟨_, h1, h2⟩⟩
  obtain ⟨more, hmore⟩ := (hout0.trans hout1).trans hout2
  have hnext : s.nextc + 1 + 1 + 1 = 0 := by rw [hc]; rfl
  refine ⟨#v[b0, b1, b2], #v[q0, q1, q2], p2, s.draws + 64 * 6, ?_, fun c k => ?_, hok2, ⟨more, hmore.symm⟩, ?_⟩
  · rw [exec_mcu hp hc, hmcu, blockCoded_eq (hz0 0), blockCoded_eq (hz1 0), blockCoded_eq (hz2 0)]
    rw [← set_three s.coef, ← set_three s.zz, ← set_three s.pred]
    dsimp only
    rw [hnext]
    rfl
  · match c with
    | 0 => exact hz0 k
    | 1 => exact hz1 k
    | 2 => exact hz2 k
  · simp only [hstream2, hstream1, hstream0, blockCoded_packer, blockCoded_ehuf,
      blockCoded_pred_of_ne (show (0 : Fin 3) ≠ 1 by decide), blockCoded_pred_of_ne (show (0 : Fin 3) ≠ 2 by decide),
      blockCoded_pred_of_ne (show (1 : Fin 3) ≠ 2 by decide)]

end Sys2Proof.Machine
end

section
/-! SUPPORT. The front end (47_frontend.md): `IMG` (R190), the two refusals of `TILE` (R192), the samples that `TILE`
writes (R193), the addresses it forms (R195) and the ranges of the colour transform (R194). -/

namespace Sys2Proof.Machine

/-! ### The information word of a refused command -/

/-- The upper half of a word is its four bytes `{OPC, A, C, I}` (60_exceptions.md R201). -/
theorem upperWord_packWord (opc a c i : Byte) (d : Word) : upperWord (packWord opc a c i d) = opc ++ a ++ c ++ i := by
  simp (disch := decide) only [upperWord, packWord, BitVec.extractLsb'_append_eq_of_le]
  exact BitVec.extractLsb'_eq_self

theorem upper_img (w h : Half) : (Instr.img w h).upper = 0x03000000 := upperWord_packWord ..

theorem upper_tile (mx my : Half) : (Instr.tile mx my).upper = 0x08000000 := upperWord_packWord ..

/-- Outside `FAULTED` a legal command that the phase table refuses raises `F_SEQ` (60_exceptions.md R210). -/
theorem exec_refused {i : Instr} {s : State} (hp : s.phase ≠ .faulted) (hw : i.WellFormed)
    (ha : ¬ AcceptedByTable i s) : exec i s = .next (faultEntry s .seq i.upper) :=
  (phaseTable i s).1 hp hw ha

/-! ### `IMG` -/

theorem exec_img {s : State} (hp : s.phase = .idle) (w h : Half) : exec (.img w h) s = finish (declareImage w h s) :=
  exec_accepted (i := .img w h) rfl hp

/-- Settles O25: `declareImage` decides by the two dimensions, and outside `IDLE` the phase table refuses. -/
theorem imgDeclaresImage : Obligations.ImgDeclaresImage := by
  refine fun s w h => ⟨fun hp hw hh => ?_, fun hp hz => ?_, fun hp => ?_⟩
  · rw [exec_img hp, declareImage, if_neg (not_or.2 ⟨hw, hh⟩)]
    rfl
  · rw [exec_img hp, declareImage, if_pos hz]
    rfl
  · have hrefused : ¬ AcceptedByTable (.img w h) s := fun hidle => Phase.noConfusion (hp.symm.trans hidle)
    rw [exec_refused (by simp [hp]) rfl hrefused, upper_img]

/-! ### The addresses of a tile -/

/-- Settles O27: the clamped coordinates lie below the dimensions, so the last byte lies below the size. -/
theorem tileStaysInsideImage : Obligations.TileStaysInsideImage := by
  intro s mx my k hx hy
  have haddr := pixelAddress_add_two_lt hx hy k.val
  exact ⟨Nat.le_sub_one_of_lt (clampPixel_lt hx _), Nat.le_sub_one_of_lt (clampPixel_lt hy _),
    Nat.le_sub_one_of_lt haddr, readPixel_inside haddr⟩

/-! ### The pixels of a tile -/

/-- The pixel whose `R` byte is at an address. -/
def pixelAt (m : Memory) (a : ℕ) : Pixel := ⟨m.read a, m.read (a + 1), m.read (a + 2)⟩

theorem readPixel_eq {s : State} {a : ℕ} (h : a + 2 < imageSize s) : readPixel s a = .ok (pixelAt s.img a) := by
  rw [readPixel, memRead_inside (by omega), memRead_inside (by omega), memRead_inside h]
  rfl

/-- The sample blocks of a tile whose addresses lie in the image space. -/
def tileSamples (s : State) (mx my : Half) : Vector (Block NumValue) 3 :=
  tabulate (sampleBlock ((List.range 64).map fun k => pixelAt s.img (pixelAddress s mx my k)))

section
variable {s : State} {mx my : Half} (hx : 8 * mx.toNat < s.w.toNat) (hy : 8 * my.toNat < s.h.toNat)
include hx hy

theorem readPixels_eq (ks : List ℕ) :
    readPixels s mx my ks = .ok (ks.map fun k => pixelAt s.img (pixelAddress s mx my k)) := by
  induction ks with
  | nil => rfl
  | cons k rest ih =>
    rw [readPixels, readPixel_eq (pixelAddress_add_two_lt hx hy k), ih]
    rfl

/-- Inside the grid of a declared image `TILE` fills the three sample blocks. -/
theorem exec_tile_inside (hp : s.phase ≠ .faulted) (himg : s.imgvalid = true) :
    exec (.tile mx my) s = .next (answered { s with samp := tileSamples s mx my }) := by
  have hgrid : ¬ (tilesAcross s.w ≤ mx.toNat ∨ tilesAcross s.h ≤ my.toNat) := by
    rw [not_or, Nat.not_le, Nat.not_le, lt_tilesAcross_iff, lt_tilesAcross_iff]
    exact ⟨hx, hy⟩
  rw [exec_accepted (i := .tile mx my) rfl hp, runOf, runTile, if_neg (by simp [himg]), if_neg hgrid,
    readPixels_eq hx hy]
  rfl

end

/-- Outside the grid of a declared image `TILE` raises `F_ILLCMD` (R192, 60_exceptions.md R208). -/
theorem exec_tile_outside {s : State} {mx my : Half} (hp : s.phase ≠ .faulted) (himg : s.imgvalid = true)
    (hout : s.w.toNat ≤ 8 * mx.toNat ∨ s.h.toNat ≤ 8 * my.toNat) :
    exec (.tile mx my) s = .next (faultEntry s .illcmd 0x08000000) := by
  have hgrid : tilesAcross s.w ≤ mx.toNat ∨ tilesAcross s.h ≤ my.toNat := by
    rwa [← Nat.not_lt, ← Nat.not_lt, lt_tilesAcross_iff, lt_tilesAcross_iff, Nat.not_lt, Nat.not_lt]
  rw [exec_accepted (i := .tile mx my) rfl hp, runOf, runTile, if_neg (by simp [himg]), if_pos hgrid, takeFault_eq,
    upper_tile]

/-! ### The colour transform -/

theorem toReal_colour (kr kg kb offset : ℤ) (p : Pixel) : (colour kr kg kb offset p).toReal =
    (kr * p.r.toNat + kg * p.g.toNat + kb * p.b.toNat + offset * 10000) / 10000 := by
  rw [colour, Alg.toReal_norm, (Alg.ofFrac_denotes _ (by decide)).toReal_eq]
  push_cast
  rfl

theorem toReal_luma (p : Pixel) :
    (colourOf 0 p).toReal = 0.299 * p.r.toNat + 0.587 * p.g.toNat + 0.114 * p.b.toNat - 128 := by
  refine (toReal_colour 2990 5870 1140 (-128) p).trans ?_
  push_cast
  ring

theorem toReal_blueDifference (p : Pixel) :
    (colourOf 1 p).toReal = -0.1687 * p.r.toNat - 0.3313 * p.g.toNat + 0.5 * p.b.toNat := by
  refine (toReal_colour (-1687) (-3313) 5000 0 p).trans ?_
  push_cast
  ring

theorem toReal_redDifference (p : Pixel) :
    (colourOf 2 p).toReal = 0.5 * p.r.toNat - 0.4187 * p.g.toNat - 0.0813 * p.b.toNat := by
  refine (toReal_colour 5000 (-4187) (-813) 0 p).trans ?_
  push_cast
  ring

theorem byte_range (b : Byte) : (0 : ℝ) ≤ b.toNat ∧ (b.toNat : ℝ) ≤ 255 :=
  ⟨Nat.cast_nonneg _, by exact_mod_cast Nat.le_of_lt_succ b.isLt⟩

/-- Settles O28: each component is linear in three bytes of 0..255, with weights whose positive and negative parts sum
to the bounds. -/
theorem colourRanges : Obligations.ColourRanges := by
  have h255 : BitVec.toNat (255 : Byte) = 255 := rfl
  refine ⟨fun p => ?_, ?_, ?_, ?_, ?_, ?_, ?_, fun g => ?_⟩
  · obtain ⟨hr, hr'⟩ := byte_range p.r
    obtain ⟨hg, hg'⟩ := byte_range p.g
    obtain ⟨hb, hb'⟩ := byte_range p.b
    rw [toReal_luma, toReal_blueDifference, toReal_redDifference]
    refine ⟨?_, ?_, ?_, ?_, ?_, ?_⟩ <;> linarith
  · norm_num [toReal_luma]
  · norm_num [toReal_luma, h255]
  · norm_num [toReal_blueDifference, h255]
  · norm_num [toReal_blueDifference, h255]
  · norm_num [toReal_redDifference, h255]
  · norm_num [toReal_redDifference, h255]
  · rw [toReal_luma, toReal_blueDifference, toReal_redDifference]
    refine ⟨?_, ?_, ?_⟩ <;> ring

/-! ### The samples -/

theorem tileSamples_getElem (s : State) (mx my : Half) (c : Fin 3) {k : ℕ} (hk : k < 64) :
    (tileSamples s mx my)[c][k] = some (.real (colourOf c (pixelAt s.img (pixelAddress s mx my k)))) := by
  rw [tileSamples, tabulate_getElem_fin, sampleBlock, tabulate_getElem,
    List.getD_eq_getElem _ _ (by simpa using hk), List.getElem_map, List.getElem_range]

/-- The tile entry of column `i`, row `j` is read at the clamped coordinates (R193). -/
theorem pixelAddress_eq (s : State) (mx my : Half) (j i : Fin 8) : pixelAddress s mx my (j.val * 8 + i.val) =
    (min (8 * my.toNat + j.val) (s.h.toNat - 1) * s.w.toNat + min (8 * mx.toNat + i.val) (s.w.toNat - 1)) * 3 := by
  have hrow : (j.val * 8 + i.val) / 8 = j.val := by omega
  have hcol : (j.val * 8 + i.val) % 8 = i.val := by omega
  rw [pixelAddress, hrow, hcol]
  rfl

/-- Settles O26: the two faults in their order, then each sample from the pixel at its clamped coordinates. -/
theorem tileFillsSamples : Obligations.TileFillsSamples := by
  refine fun s mx my hp => ⟨fun himg => exec_tile_of_no_image hp himg mx my, exec_tile_outside hp,
    fun himg hx hy => ⟨tileSamples s mx my, exec_tile_inside hx hy hp himg, fun j i => ?_⟩⟩
  have hsample (c : Fin 3) := tileSamples_getElem s mx my c (k := j.val * 8 + i.val) (by omega)
  rw [pixelAddress_eq] at hsample
  exact ⟨_, _, _, hsample 0, hsample 1, hsample 2, toReal_luma _, toReal_blueDifference _, toReal_redDifference _⟩

end Sys2Proof.Machine
end

section
/-! SUPPORT. Illegal words (60_exceptions.md R208), what `FAULTED` accepts (R205), the two resets
(70_reset_and_hazards.md R230) and the host's other moves (R232, 46_session_commands.md R182). -/

namespace Sys2Proof.Machine

/-! ### Illegal words -/

theorem decode_error_of_not_legal {w : CommandWord} (hw : ¬ LegalWord w) : ∃ e, decode w = .error e := by
  cases hdec : decode w with
  | ok i => exact absurd ((exists_decode_eq_ok_iff w).1 ⟨i, hdec⟩) hw
  | error e => exact ⟨e, rfl⟩

/-- `RD OUTB` past the end of the stream (60_exceptions.md R208). -/
theorem exec_rd_outb_past_end {s : State} {d : Word} (hp : s.phase ≠ .faulted) (hd : s.out.length ≤ d.toNat) :
    exec (.rd .outb 0 0 d) s = .next (faultEntry s .illcmd 0x06080000) := by
  have hupper : (Instr.rd .outb 0 0 d).upper = 0x06080000 := upperWord_packWord ..
  have hread : readSelector .outb 0 0 d s = .error ⟨.illcmd, 0x06080000⟩ := by
    rw [← hupper]
    simp only [readSelector, List.getElem?_eq_none hd]
  rw [exec_accepted (i := .rd .outb 0 0 d) rfl (acceptedByTable_rd hp ..), runOf, runRead, hread]
  rfl

/-- Settles O4: a word that is not legal does not decode, illegal operands stop at the checks in front of every command,
and the two causes that depend on state are the command's own. -/
theorem illegalCommandsFault : Obligations.IllegalCommandsFault := by
  refine ⟨fun s w rest hport hp hw => ?_, fun i s hp hw => ?_, fun s d => exec_rd_outb_past_end,
    fun s mx my => exec_tile_outside⟩
  · obtain ⟨e, hdec⟩ := decode_error_of_not_legal hw
    rw [step_illegal hport hdec, issueIllegal, if_neg hp]
    rfl
  · rw [exec_eq_issue, issue_illegal _ hw hp]
    rfl

/-! ### Reset -/

theorem coreReset_resetCore (s : State) : CoreReset (resetCore s) := resetState.1

theorem statusWord_resetCore (s : State) : statusWord (resetCore s) = 0 := resetState.2.1

/-- Settles O14: both resets leave `resetCore`, the command with its response besides. -/
theorem resetCommandAndInput : Obligations.ResetCommandAndInput := fun s =>
  ⟨⟨_, exec_reset s, coreReset_resetCore s, statusWord_resetCore s, rfl, rfl, rfl⟩,
    fun _ hport => ⟨_, step_resetInput hport, coreReset_resetCore _, statusWord_resetCore _, rfl, rfl⟩⟩

/-! ### `FAULTED` -/

/-- The legal commands that the phase table accepts in `FAULTED`. -/
theorem eq_of_accepted_faulted {i : Instr} {s : State} (hp : s.phase = .faulted) (hw : i.WellFormed)
    (ha : AcceptedByTable i s) : i = .reset ∨ i = .rd .status 0 0 0 ∨ i = .rd .finfo 0 0 0 := by
  cases i
  case reset => exact .inl rfl
  case rd sel c k d =>
    obtain rfl | rfl : sel = .status ∨ sel = .finfo := by simpa [AcceptedByTable, hp] using ha
    all_goals
      obtain ⟨⟨rfl, rfl⟩, rfl⟩ : (c = 0 ∧ k = 0) ∧ d = 0 := by
        simpa [Instr.WellFormed, Instr.wf, Selector.operandsOk] using hw
      simp
  all_goals simp [AcceptedByTable, hp] at ha

/-- Any other word, legal or not, is answered `FAULT` and writes nothing. -/
theorem step_faulted {s : State} {w : CommandWord} {rest : List HostMove} (hp : s.phase = .faulted)
    (hport : s.port = .command w :: rest) (hreset : w ≠ encode .reset) (hstatus : w ≠ encode (.rd .status 0 0 0))
    (hfinfo : w ≠ encode (.rd .finfo 0 0 0)) :
    step s = .next { s with port := rest, responses := .fault :: s.responses } := by
  by_cases hlegal : LegalWord w
  · obtain ⟨i, hdec⟩ := (exists_decode_eq_ok_iff w).2 hlegal
    obtain ⟨rfl, -⟩ := encode_of_decode hdec
    rw [step_decoded hport hdec]
    refine (phaseTable i { s with port := rest }).2.1 hp fun ⟨hw, ha⟩ => ?_
    obtain rfl | rfl | rfl := eq_of_accepted_faulted (s := { s with port := rest }) hp hw ha
    · exact hreset rfl
    · exact hstatus rfl
    · exact hfinfo rfl
  · exact step_illegal_faulted hp hport hlegal

/-- A legal command's own word. -/
theorem step_encode {s : State} {i : Instr} {rest : List HostMove} (hw : i.WellFormed)
    (hport : s.port = .command (encode i) :: rest) : step s = exec i { s with port := rest } :=
  step_decoded hport (decode_encode hw)

/-- Settles O9: the three words are those of `RESET`, `RD STATUS` and `RD FINFO`. -/
theorem faultedAcceptsOnlyThreeWords : Obligations.FaultedAcceptsOnlyThreeWords := by
  refine fun s rest hp => ⟨fun w hport => ⟨?_, ?_, ?_, step_faulted hp hport⟩, fun hport =>
    ⟨_, step_resetInput hport, coreReset_resetCore _⟩⟩
  · rintro rfl
    have hexec := (step_encode (i := .reset) rfl hport).trans (exec_reset _)
    exact ⟨_, hexec, coreReset_resetCore s, rfl⟩
  · rintro rfl
    exact (step_encode (i := .rd .status 0 0 0) rfl hport).trans (exec_rd_status _)
  · rintro rfl
    exact (step_encode (i := .rd .finfo 0 0 0) rfl hport).trans
      (exec_rd_ok rfl (acceptedByTable_rd_always (.inr rfl) ..) rfl)

/-! ### The hand-over of an image -/

/-- The cells written over a memory, the later ones over the earlier. -/
def Memory.writeCells (m : Memory) (cells : List Host.Cell) : Memory :=
  cells.foldl (fun m c => Memory.write m c.1 c.2) m

theorem Memory.read_writeCells_of_unlisted {cells : List Host.Cell} {a : ℕ} (h : ∀ c ∈ cells, c.1 ≠ a) (m : Memory) :
    (m.writeCells cells).read a = m.read a := by
  induction cells generalizing m with
  | nil => rfl
  | cons c rest ih =>
    obtain ⟨hc, hrest⟩ := List.forall_mem_cons.1 h
    exact (ih hrest _).trans (Memory.read_write_ne m c.2 hc.symm)

/-- The last cell at an address decides what it reads as. -/
theorem Memory.read_ofCells_last (before : List Host.Cell) {after : List Host.Cell} {a : ℕ} (x : Byte)
    (h : ∀ c ∈ after, c.1 ≠ a) : (Memory.ofCells (before ++ (a, x) :: after)).read a = x := by
  have hcells : Memory.ofCells (before ++ (a, x) :: after) =
      ((Memory.ofCells before).write a x).writeCells after := List.foldl_append
  rw [hcells, Memory.read_writeCells_of_unlisted h, Memory.read_write_same (Memory.wf_ofCells before)]

/-- Settles O6: the image is `Memory.ofCells`, which is canonical, and in which the last cell at an address counts. -/
theorem hostMoves : Obligations.HostMoves := by
  refine ⟨fun s => step_waiting, fun s rest hport => ⟨_, step_resetInput hport, rfl, rfl, rfl⟩,
    fun s cells rest hport => ⟨fun hp => ?_, fun hp => ⟨Memory.ofCells cells, ?_, Memory.wf_ofCells cells, ?_, ?_⟩⟩⟩
  · rw [step_supplyImage hport]
    exact if_pos hp
  · rw [step_supplyImage hport]
    exact if_neg hp
  · rintro before after a x rfl h
    exact Memory.read_ofCells_last before x h
  · exact fun a h => Memory.read_writeCells_of_unlisted h []

end Sys2Proof.Machine
end

section
/-! SUPPORT. Faults of the tables and the buffers: the overflow of `HBUILD` (43_huffman_builder.md R123) and reads of
entries that were never written (60_exceptions.md R209). -/

namespace Sys2Proof.Machine

/-! ### More than 256 symbols -/

theorem finRange_split (t : Fin 4) :
    List.finRange 4 = (List.finRange 4).take t.val ++ t :: (List.finRange 4).drop (t.val + 1) := by
  revert t; decide

theorem lt_of_mem_take_finRange {t t' : Fin 4} (h : t' ∈ (List.finRange 4).take t.val) : t'.val < t.val := by
  revert t t'; decide

/-- The lowest table whose check fails decides. -/
theorem firstOverflow_eq_some {hs : Vector HuffSpec 4} {t : Fin 4} {r : Raise} (hr : overflow t hs[t] = some r)
    (hlow : ∀ t' : Fin 4, t'.val < t.val → hs[t'].Fits) : firstOverflow hs = some r :=
  List.findSome?_eq_some_iff.2 ⟨_, t, _, finRange_split t, hr, fun t' ht =>
    overflow_eq_none.2 (hlow t' (lt_of_mem_take_finRange ht))⟩

/-- The information word of R212. -/
theorem overflowInfo_eq (t : Fin 4) {n : ℕ} (hn : n ≤ 65535) :
    (0 : Byte) ++ byteOf t.val ++ BitVec.ofNat 16 n = BitVec.ofNat 32 (t.val * 65536 + n) := by
  have hbyte : ((0 : Byte) ++ byteOf t.val).toNat = t.val := by revert t; decide
  have hhalf := toNat_append_half ((0 : Byte) ++ byteOf t.val) (BitVec.ofNat 16 n)
  refine BitVec.eq_of_toNat_eq ?_
  rw [hbyte, BitVec.toNat_ofNat, Nat.mod_eq_of_lt (by omega)] at hhalf
  rw [BitVec.toNat_ofNat, Nat.mod_eq_of_lt (by omega)]
  exact hhalf

/-- Settles O22: the checks of all four tables come first, in their order. -/
theorem hbuildOverflowFaults : Obligations.HbuildOverflowFaults := by
  intro s t hp hv hgt hlow
  have hoverflow := firstOverflow_eq_some (if_pos hgt) hlow
  rw [← overflowInfo_eq t (Nat.min_le_right _ _)]
  exact exec_hbuild_of_error hp hv (by rw [buildAll, hoverflow])

/-! ### Never-written entries -/

/-- The information word of an entry: its array's code and its two indexes (60_exceptions.md R209). -/
theorem infoBytes_entry (code : Byte) {a b : ℕ} (ha : a < 256) (hb : b < 256) :
    infoBytes code (byteOf a) (byteOf b) = BitVec.ofNat 32 (code.toNat * 65536 + a * 256 + b) := by
  have hcode := code.isLt
  refine BitVec.eq_of_toNat_eq ?_
  rw [toNat_infoBytes, toNat_byteOf ha, toNat_byteOf hb, BitVec.toNat_ofNat, Nat.mod_eq_of_lt (by omega)]

/-- `exec_rd_entry` where the entry was never written. -/
theorem exec_rd_uninit {α : Type} {sel : Selector} {s : State} {a b : ℕ} {entry : Option α} {answer : α → Response}
    (hp : s.phase ≠ .faulted) (hw : (Instr.rd sel (byteOf a) (byteOf b) 0).WellFormed) (ha : a < 256) (hb : b < 256)
    (hr : readSelector sel (byteOf a) (byteOf b) 0 s = readEntry sel (byteOf a) (byteOf b) entry answer)
    (hx : entry = none) : exec (.rd sel (byteOf a) (byteOf b) 0) s =
      .next (faultEntry s .uninit (BitVec.ofNat 32 (sel.code.toNat * 65536 + a * 256 + b))) := by
  rw [exec_accepted hw (acceptedByTable_rd hp ..), runOf, runRead, hr, hx, readEntry, infoBytes_entry _ ha hb]
  rfl

theorem firstBot_of_lowest {α : Type} {n : ℕ} {b : Vector (Option α) n} {i : Fin n} (hi : b[i] = none)
    (hlow : ∀ j : Fin n, j.val < i.val → b[j] ≠ none) : firstBot b = some i.val :=
  (firstBot_eq_some b i.val).2 ⟨i.isLt, hi, fun j hj => hlow ⟨j, hj.trans i.isLt⟩ hj⟩

/-- A stage that finds a never-written entry in a block. -/
theorem finish_uninit (code : Byte) (c : Fin 3) (i : Fin 64) (s : State) :
    finish (raiseIn ⟨.uninit, infoBytes code (byteOf c.val) (byteOf i.val)⟩ s) =
      .next (faultEntry s .uninit (BitVec.ofNat 32 (code.toNat * 65536 + c.val * 256 + i.val))) := by
  rw [infoBytes_entry code (by omega) (by omega)]
  rfl

section
variable {s : State} {c : Fin 3} {i : Fin 64}

theorem exec_fdct_uninit (hp : s.phase ≠ .faulted) (hq : s.qvalid = true) (h : firstBot s.samp[c] = some i.val) :
    exec (.fdct (byteOf c.val)) s =
      .next (faultEntry s .uninit (BitVec.ofNat 32 (0x100000 + c.val * 256 + i.val))) := by
  rw [exec_fdct_eq hp hq, fdctStage, h]
  exact finish_uninit 0x10 c i s

theorem exec_qzz_uninit (hp : s.phase ≠ .faulted) (hq : s.qvalid = true) (h : firstBot s.coef[c] = some i.val) :
    exec (.qzz (byteOf c.val)) s =
      .next (faultEntry s .uninit (BitVec.ofNat 32 (0x110000 + c.val * 256 + i.val))) := by
  rw [exec_qzz hp hq, qzzStage, h]
  exact finish_uninit 0x11 c i s

theorem exec_enc_uninit (hp : s.phase = .image) (hc : s.nextc = c) (h : firstBot s.zz[c] = some i.val) :
    exec (.enc (byteOf c.val)) s =
      .next (faultEntry s .uninit (BitVec.ofNat 32 (0x120000 + c.val * 256 + i.val))) := by
  rw [exec_enc hp hc, encStage, h]
  exact finish_uninit 0x12 c i s

end

/-- Settles O33: `RD` reads the one entry, and the three stages look for the lowest before anything else. -/
theorem uninitialisedReadsFault : Obligations.UninitialisedReadsFault := by
  intro s hp
  refine ⟨fun c i h => ⟨?_, fun hq hlow => exec_fdct_uninit hp hq (firstBot_of_lowest h hlow)⟩,
    fun c i h => ⟨?_, fun hq hlow => exec_qzz_uninit hp hq (firstBot_of_lowest h hlow)⟩,
    fun c k h => ⟨?_, fun himage hc hlow => exec_enc_uninit himage hc (firstBot_of_lowest h hlow)⟩,
    fun cl i h => ?_, fun cl i h => ?_, fun t k h => ?_⟩
  · exact exec_rd_uninit (answer := numDatum s) hp (rd_block_wellFormed (by simp) c i) (by omega) (by omega)
      (by simp only [readSelector, component_byteOf, index64_byteOf]) h
  · exact exec_rd_uninit (answer := numDatum s) hp (rd_block_wellFormed (by simp) c i) (by omega) (by omega)
      (by simp only [readSelector, component_byteOf, index64_byteOf]) h
  · exact exec_rd_uninit (answer := fun x => .data (sext x)) hp (rd_block_wellFormed (by simp) c k) (by omega)
      (by omega) (by simp only [readSelector, component_byteOf, index64_byteOf]) h
  · exact exec_rd_uninit (answer := fun x => .data (x.setWidth 32)) hp (rd_quant_wellFormed (by simp) cl i) (by omega)
      (by omega) (by simp only [readSelector, classOf_byteOf, index64_byteOf]) h
  · exact exec_rd_uninit (answer := numDatum s) hp (rd_quant_wellFormed (by simp) cl i) (by omega) (by omega)
      (by simp only [readSelector, classOf_byteOf, index64_byteOf]) h
  · exact exec_rd_uninit (answer := fun e => .data (huffDatum e)) hp (rd_huff_wellFormed (by simp) t _) (by omega)
      k.isLt (by simp only [readSelector, tableOf_byteOf, index256_byteOf]) h

end Sys2Proof.Machine
end

section
/-! SUPPORT. What a fault leaves (60_exceptions.md R203 items 1 to 3, R206): stage by stage, then for every
command. -/

namespace Sys2Proof.Machine

/-- `u` is a state that the command `i` may have come to from `s` when it raises a fault: `BLK` and `MCU` may have
written the pieces of their stages, `ENC` what R203 item 3 leaves unspecified, any other command nothing. -/
structure FaultLeaves (i : Instr) (s u : State) : Prop where
  writes : WritesOnly blkPieces s u
  simple : mnemonic i ∉ ["ENC", "BLK", "MCU"] → ∃ draws, u = { s with draws := draws }
  enc : mnemonic i = "ENC" → ∃ out acc cur pred draws,
    u = { s with out := out, acc := acc, cur := cur, pred := pred, draws := draws }

theorem FaultLeaves.of_draws (i : Instr) (s : State) (draws : ℕ) : FaultLeaves i s { s with draws := draws } :=
  ⟨⟨fun p _ => p.same_refl s, rfl, rfl, rfl, rfl⟩, fun _ => ⟨draws, rfl⟩, fun _ => ⟨_, _, _, _, draws, rfl⟩⟩

theorem FaultLeaves.refl (i : Instr) (s : State) : FaultLeaves i s s := .of_draws i s s.draws

theorem FaultLeaves.of_composite {i : Instr} (hi : mnemonic i ∈ ["BLK", "MCU"]) {s u : State}
    (hw : WritesOnly blkPieces s u) : FaultLeaves i s u :=
  ⟨hw, fun h => absurd (List.mem_cons_of_mem _ hi) h, fun h => absurd (h ▸ hi) (by decide)⟩

/-! ### Stages -/

/-- A fault that the stage raises on behalf of the command `i` has a code, and is entered from a state as above. -/
def Stage.FaultsAs (i : Instr) (f : Stage) : Prop :=
  ∀ s t : State, f s = .error t → ∃ r u, r.code ≠ .none ∧ FaultLeaves i s u ∧ t = enterFault r u

theorem fdctStage_faultsAs (i : Instr) (c : Fin 3) : (fdctStage c).FaultsAs i := by
  intro s t h
  obtain ⟨k, -, he⟩ | ⟨-, he⟩ := fdctStage_cases c s <;> cases he.symm.trans h
  exact ⟨_, s, FaultCode.noConfusion, .refl i s, rfl⟩

theorem qzzStage_faultsAs (i : Instr) (c : Fin 3) : (qzzStage c).FaultsAs i := by
  intro s t h
  obtain ⟨k, -, he⟩ | ⟨r, -, hr, he⟩ | ⟨k, -, -, -, he⟩ | ⟨-, -, -, he⟩ := qzzStage_cases c s <;> cases he.symm.trans h
  · exact ⟨_, s, FaultCode.noConfusion, .refl i s, rfl⟩
  · exact ⟨r, s, quantTableBot_code hr, .refl i s, rfl⟩
  · exact ⟨_, _, FaultCode.noConfusion, .of_draws i s _, rfl⟩

/-- What a fault inside the coding of a block leaves, for the three commands that code blocks. -/
theorem afterEncFault_faultLeaves {i : Instr} (hi : mnemonic i ∈ ["ENC", "BLK", "MCU"]) (r : Raise) (s : State) :
    FaultLeaves i s (afterEncFault r s) := by
  refine ⟨(afterEncFault_writes r s).mono (by simp [blkPieces]), fun h => absurd hi h, fun _ => ?_⟩
  unfold afterEncFault
  split
  · exact ⟨s.out, s.acc, s.cur, s.pred, s.draws, rfl⟩
  · exact ⟨_, _, _, _, _, rfl⟩

theorem encStage_faultsAs {i : Instr} (hi : mnemonic i ∈ ["ENC", "BLK", "MCU"]) (c : Fin 3) :
    (encStage c).FaultsAs i := by
  intro s t h
  obtain ⟨k, -, he⟩ | ⟨r, -, hr, he⟩ | ⟨p, -, -, he⟩ := encStage_cases c s <;> cases he.symm.trans h
  · exact ⟨_, s, FaultCode.noConfusion, .refl i s, rfl⟩
  · have hcode : Extends s.packer (.error r) := hr ▸ encodeBlock_extends s c
    exact ⟨r, _, hcode, afterEncFault_faultLeaves hi r s, rfl⟩

theorem hbuildStage_faultsAs (i : Instr) : hbuildStage.FaultsAs i := by
  intro s t h
  obtain ⟨r, hr, he⟩ | ⟨tabs, -, he⟩ := hbuildStage_cases s <;> cases he.symm.trans h
  have hcode := buildAll_ensures_bounded s.hspec
  rw [hr] at hcode
  exact ⟨r, s, hcode, .refl i s, rfl⟩

theorem declareImage_faultsAs (i : Instr) (w h : Half) : (declareImage w h).FaultsAs i := by
  intro s t ht
  obtain ⟨-, he⟩ | ⟨-, -, he⟩ := declareImage_cases w h s <;> cases he.symm.trans ht
  exact ⟨_, s, FaultCode.noConfusion, .refl i s, rfl⟩

/-- Stages in a row under a composite command: the ones that completed have written their pieces. -/
theorem Stage.FaultsAs.andThen {i : Instr} (hi : mnemonic i ∈ ["BLK", "MCU"]) {f g : Stage}
    (hw : StageWrites blkPieces f) (hf : f.FaultsAs i) (hg : g.FaultsAs i) : (f.andThen g).FaultsAs i := by
  intro s t h
  obtain he | ⟨v, hv, he⟩ := (andThen_eq_error ..).1 h
  · exact hf s t he
  · obtain ⟨r, u, hr, hu, rfl⟩ := hg v t he
    exact ⟨r, u, hr, .of_composite hi ((hw.of_ok hv).trans hu.writes), rfl⟩

theorem blkStage_faultsAs {i : Instr} (hi : mnemonic i ∈ ["BLK", "MCU"]) (c : Fin 3) : (blkStage c).FaultsAs i :=
  .andThen hi ((fdctStage_writes c).mono (by simp [blkPieces])) (fdctStage_faultsAs i c)
    (.andThen hi ((qzzStage_writes c).mono (by simp [blkPieces])) (qzzStage_faultsAs i c)
      (encStage_faultsAs (List.mem_cons_of_mem _ hi) c))

theorem mcuStage_faultsAs {i : Instr} (hi : mnemonic i ∈ ["BLK", "MCU"]) : mcuStage.FaultsAs i :=
  .andThen hi (blkStage_writes 0) (blkStage_faultsAs hi 0)
    (.andThen hi (blkStage_writes 1) (blkStage_faultsAs hi 1) (blkStage_faultsAs hi 2))

/-! ### Commands -/

/-- `t` is left by a fault of the command `i`. -/
def LeftByFault (i : Instr) (s t : State) : Prop :=
  ∃ r u, r.code ≠ .none ∧ FaultLeaves i s u ∧ t = respond .fault (enterFault r u)

theorem LeftByFault.of_takeFault {i : Instr} {r : Raise} (hr : r.code ≠ .none) {s t : State}
    (h : takeFault r s = .next t) : LeftByFault i s t :=
  ⟨r, s, hr, .refl i s, ((takeFault_next r s t).1 h).symm⟩

/-- A command that answers `OK` in a phase other than `FAULTED` took no fault. -/
theorem LeftByFault.of_answerOk {i : Instr} {s t u : State} (h : answerOk u = .next t) (ht : t.phase = .faulted)
    (hu : u.phase ≠ .faulted) : LeftByFault i s t := by
  cases h
  exact absurd ht hu

section
variable {i : Instr} {s t : State} (hs : s.phase ≠ .faulted) (ht : t.phase = .faulted)
include hs ht

theorem LeftByFault.of_finish {ps : List Piece} {f : Stage} (hw : StageWrites ps f) (hf : f.FaultsAs i)
    (hps : .phase ∉ ps) (h : finish (f s) = .next t) : LeftByFault i s t := by
  obtain ⟨v, -, rfl, hv⟩ | ⟨v, hv, rfl, -⟩ := finish_cases hw h
  · exact absurd ((hv.same .phase hps).symm.trans ht) hs
  · obtain ⟨r, u, hr, hu, rfl⟩ := hf s v hv
    exact ⟨r, u, hr, hu, rfl⟩

theorem runRead_leftByFault {sel : Selector} {c k : Byte} {d : Word} (h : runRead sel c k d s = .next t) :
    LeftByFault i s t := by
  have hread := readSelector_ensures sel c k d s
  unfold runRead at h
  cases hr : readSelector sel c k d s with
  | ok r =>
    rw [hr] at h
    cases h
    exact absurd ht hs
  | error r =>
    rw [hr] at h hread
    exact .of_takeFault hread h

theorem runTile_leftByFault {mx my : Half} (h : runTile mx my s = .next t) : LeftByFault i s t := by
  unfold runTile at h
  split at h
  · exact .of_takeFault FaultCode.noConfusion h
  split at h
  · exact .of_takeFault FaultCode.noConfusion h
  split at h
  · cases h
  · exact .of_answerOk h ht hs

theorem runOf_leftByFault (h : runOf i s = .next t) : LeftByFault i s t := by
  cases i with
  | reset | start => exact .of_answerOk h ht Phase.noConfusion
  | endImage pad => exact .of_answerOk h ht Phase.noConfusion
  | cfg level strat => exact .of_answerOk h ht hs
  | putbits n v => exact .of_answerOk h ht hs
  | ld buf c k value =>
    have hphase := (loadEntry_writes buf c k value s).same .phase (by cases buf <;> simp [writtenBy])
    exact .of_answerOk h ht (hphase ▸ hs)
  | rd sel c k d => exact runRead_leftByFault hs ht h
  | tile mx my => exact runTile_leftByFault hs ht h
  | hbuild => exact .of_finish hs ht hbuildStage_writes (hbuildStage_faultsAs _) (by simp) h
  | img w h' => exact .of_finish hs ht (declareImage_writes w h') (declareImage_faultsAs _ w h') (by simp) h
  | fdct c => exact .of_finish hs ht (fdctStage_writes _) (fdctStage_faultsAs _ _) (by simp) h
  | qzz c => exact .of_finish hs ht (qzzStage_writes _) (qzzStage_faultsAs _ _) (by simp) h
  | enc c => exact .of_finish hs ht (encStage_writes _) (encStage_faultsAs (by simp [mnemonic]) _) (by simp) h
  | blk c =>
    exact .of_finish hs ht (blkStage_writes _) (blkStage_faultsAs (by simp [mnemonic]) _) (by simp [blkPieces]) h
  | mcu => exact .of_finish hs ht mcuStage_writes (mcuStage_faultsAs (by simp [mnemonic])) (by simp [blkPieces]) h

theorem exec_leftByFault (h : exec i s = .next t) : LeftByFault i s t := by
  obtain ⟨hp, -, -⟩ | ⟨-, -, he⟩ | ⟨-, -, -, he⟩ | ⟨-, -, he⟩ := exec_cases i s
  · exact absurd hp hs
  · exact .of_takeFault (r := ⟨.illcmd, i.upper⟩) FaultCode.noConfusion (he.symm.trans h)
  · exact .of_takeFault (r := ⟨.seq, i.upper⟩) FaultCode.noConfusion (he.symm.trans h)
  · exact runOf_leftByFault hs ht (he.symm.trans h)

end

/-- Settles O10: the fault was entered from a state that `FaultLeaves` describes. -/
theorem faultLeavesTheRest : Obligations.FaultLeavesTheRest := by
  intro i s t hs h ht
  obtain ⟨r, u, hr, ⟨hw, hsimple, henc⟩, rfl⟩ := exec_leftByFault hs ht h
  have hsame (p : Piece) (hp : p ∉ blkPieces := by simp [blkPieces]) : p.same s u := hw.same p hp
  obtain ⟨hwidth, hheight⟩ := hsame .dimensions
  refine ⟨by simp [hw.responses], hr, hsame .level, hsame .strat, hsame .qvalid, hsame .hvalid, hsame .imgvalid, hwidth,
    hheight, fun hi => ?_, fun hi => ?_⟩
  · obtain ⟨draws, rfl⟩ := hsimple hi
    rfl
  · obtain ⟨out, acc, cur, pred, draws, rfl⟩ := henc hi
    rfl

end Sys2Proof.Machine
end
